-- ==== Sys2Proof/Word.lean ====
section
/-!
DEFINITION. The word types of the block and nothing else: a binary32 value is its 32-bit pattern
(20_memory.md R64), a group is four 16-bit blocks (30_encoding.md R90).
-/

namespace Sys2Proof

/-- A 32-bit control register's content (10_state.md R20). -/
abbrev Word := BitVec 32

/-- A binary32 value as its bit pattern: bit 31 the sign, bits 30:23 the biased exponent, bits 22:0
the fraction (20_memory.md R64). `bits32` and `asf32` of 00_scope.md R17 are the identity on it. -/
abbrev F32 := BitVec 32

/-- A command word `cmd[71:0]` (30_encoding.md R80). -/
abbrev Cmd := BitVec 72

/-- One of the four modulator streams s = 0..3 (00_scope.md R19). -/
abbrev Stream := Fin 4

/-- One of the five oscillators k = 0..4 (00_scope.md R19). -/
abbrev OscId := Fin 5

/-- A block position k = 0..3 within a group (00_scope.md R19, "Group"). -/
abbrev Position := Fin 4

/-- A group: the four blocks in the positions A, B, C (or C'), D (30_encoding.md R90). -/
structure Group where
  a : BitVec 16
  b : BitVec 16
  c : BitVec 16
  d : BitVec 16
  deriving DecidableEq, Repr

/-- `block[k]` of a group (30_encoding.md R90). -/
def Group.block (g : Group) : Position → BitVec 16
  | 0 => g.a
  | 1 => g.b
  | 2 => g.c
  | 3 => g.d

end Sys2Proof
end

