-- ==== Sys2Proof/Syntax.lean ====
section
/-!
DEFINITION. The commands of the block, one constructor per row of spec/opcode_table.json, with the
operands 30_encoding.md R82 assembles. An operand has exactly the values its field can hold, so every
term is a legal command (R84).
-/

namespace Sys2Proof

/-- A command of the block (30_encoding.md R83). -/
inductive Instr where
  /-- OP 0x00, format Z (44_control.md R190) -/
  | nop
  /-- OP 0x01, format Q: block[0..3] (40_checkword.md R116) -/
  | enc (a b c d : BitVec 16)
  /-- OP 0x02, format Z (43_mixer.md R176) -/
  | tick
  /-- OP 0x03, format N: COUNT (43_mixer.md R177) -/
  | frames (count : BitVec 32)
  /-- OP 0x04, format W: REGNO and DATA (44_control.md R193) -/
  | wrreg (regno : BitVec 8) (data : Word)
  /-- OP 0x05, format R: REGNO (44_control.md R194) -/
  | rdreg (regno : BitVec 8)
  /-- OP 0x06, format Z (44_control.md R191) -/
  | reset
  deriving DecidableEq, Repr

end Sys2Proof
end

