-- ==== Sys2Proof/Decode.lean ====
section
/-!
DEFINITION. Reading a command word, total on every 72-bit word, and writing one (30_encoding.md R80 to
R86).
-/

namespace Sys2Proof

/-- Why a word is no command (60_exceptions.md R220), with its OP byte. -/
inductive Illegal where
  /-- OP is 0x07..0xFF -/
  | reservedOpcode (op : BitVec 8)
  /-- a bit of the reserved mask of OP is 1 -/
  | reservedBits (op : BitVec 8)
  deriving DecidableEq, Repr

/-- The OP byte, which E_ILLEGAL records (60_exceptions.md R221). -/
def Illegal.op : Illegal → BitVec 8
  | .reservedOpcode op => op
  | .reservedBits op => op

/-- What a command word is: exactly one of the two cases of 30_encoding.md R84. -/
inductive Decoded where
  | legal (i : Instr)
  | illegal (why : Illegal)
  deriving DecidableEq, Repr

/-- OP = cmd[71:64] (30_encoding.md R80). -/
def Cmd.op (w : Cmd) : BitVec 8 := w.extractLsb' 64 8

/-- PL = cmd[63:0] (30_encoding.md R80). -/
def Cmd.payload (w : Cmd) : BitVec 64 := w.extractLsb' 0 64

/-- The reserved mask over PL, by OP; none for a reserved OP (30_encoding.md R83, R85). -/
def reservedMask (op : BitVec 8) : Option (BitVec 64) :=
  match op.toNat with
  | 0x00 => some 0xFFFFFFFFFFFFFFFF#64
  | 0x01 => some 0x0000000000000000#64
  | 0x02 => some 0xFFFFFFFFFFFFFFFF#64
  | 0x03 => some 0xFFFFFFFF00000000#64
  | 0x04 => some 0x00FFFFFF00000000#64
  | 0x05 => some 0x00FFFFFFFFFFFFFF#64
  | 0x06 => some 0xFFFFFFFFFFFFFFFF#64
  | _ => none

/-- The command an OP selects, its operands read from the payload by its format; none for a reserved
OP (30_encoding.md R81 to R83). -/
def selectInstr (op : BitVec 8) (pl : BitVec 64) : Option Instr :=
  match op.toNat with
  | 0x00 => some .nop
  | 0x01 => some (.enc (pl.extractLsb' 48 16) (pl.extractLsb' 32 16) (pl.extractLsb' 16 16)
      (pl.extractLsb' 0 16))
  | 0x02 => some .tick
  | 0x03 => some (.frames (pl.extractLsb' 0 32))
  | 0x04 => some (.wrreg (pl.extractLsb' 56 8) (pl.extractLsb' 0 32))
  | 0x05 => some (.rdreg (pl.extractLsb' 56 8))
  | 0x06 => some .reset
  | _ => none

/-- The decoder (30_encoding.md R84): a reserved OP is checked first, then the reserved bits
(60_exceptions.md R228). -/
def decode (w : Cmd) : Decoded :=
  match reservedMask w.op, selectInstr w.op w.payload with
  | some mask, some i =>
    if w.payload &&& mask = 0#64 then .legal i else .illegal (.reservedBits w.op)
  | _, _ => .illegal (.reservedOpcode w.op)

/-- A command word put together from OP and PL (30_encoding.md R80). -/
def Cmd.make (op : BitVec 8) (pl : BitVec 64) : Cmd := op ++ pl

/-- The word of a command, every reserved bit 0 (30_encoding.md R81 to R83). -/
def encode : Instr → Cmd
  | .nop => Cmd.make 0x00#8 0#64
  | .enc a b c d => Cmd.make 0x01#8 (a ++ b ++ c ++ d)
  | .tick => Cmd.make 0x02#8 0#64
  | .frames count => Cmd.make 0x03#8 (0#32 ++ count)
  | .wrreg regno data => Cmd.make 0x04#8 (regno ++ 0#24 ++ data)
  | .rdreg regno => Cmd.make 0x05#8 (regno ++ 0#56)
  | .reset => Cmd.make 0x06#8 0#64

/-- The command that the decoder reads from a word given as a number, bit 0 its least significant bit,
as spec/opcode_table.json numbers its rows: the whole instruction is one word of 72 bits
(30_encoding.md R80, R86), so the bits above `nbits` are 0 and a longer one is refused. -/
def decodeTableWord (nbits w : Nat) : Option Instr :=
  if nbits ≤ 72 then
    match decode (BitVec.ofNat 72 (w % 2 ^ nbits)) with
    | .legal i => some i
    | .illegal _ => none
  else none

end Sys2Proof
end

