-- ==== Sys2Proof/Config.lean ====
section
/-!
DEFINITION. What an implementation fixes: the parameters P_* of 00_scope.md as plain data, and the
values the spec leaves open, as constants with no body. Which parameters the spec admits is
WellFormed.lean.
-/

namespace Sys2Proof

/-! ### Patterns whose exponent field says what they are -/

/-- The bits of a NaN: the sign and a nonzero fraction. Both are free in the result of an operation
(93_implementation_defined.md I19). -/
structure NaNBits where
  sign : Bool
  fracPred : Fin 8388607
  deriving DecidableEq, Repr, Inhabited

/-- A binary32 pattern put together from its fields (20_memory.md R64). -/
def F32.ofFields (sign : Bool) (expo frac : Nat) : F32 :=
  BitVec.ofNat 32 (sign.toNat * 2 ^ 31 + expo * 2 ^ 23 + frac)

/-- The binary32 pattern of a NaN: exponent field 255, fraction at least 1. -/
def NaNBits.toF32 (n : NaNBits) : F32 := F32.ofFields n.sign 255 (n.fracPred.val + 1)

/-- The bits of a finite binary32 value: an exponent field below 255. -/
structure FiniteBits where
  sign : Bool
  expo : Fin 255
  frac : BitVec 23
  deriving DecidableEq, Repr, Inhabited

/-- The binary32 pattern of a finite value. -/
def FiniteBits.toF32 (x : FiniteBits) : F32 := F32.ofFields x.sign x.expo.val x.frac.toNat

/-- The biased exponent, bits 30:23 (20_memory.md R64). -/
def F32.expo (x : F32) : Nat := x.toNat / 2 ^ 23 % 256

/-- A pattern is finite when its exponent field is not 255 (20_memory.md R64). -/
def F32.finite (x : F32) : Bool := decide (F32.expo x ≠ 255)

theorem FiniteBits.toF32_finite (x : FiniteBits) : F32.finite x.toF32 = true := by
  have he := x.expo.isLt
  have hf := x.frac.isLt
  have hs : x.sign.toNat ≤ 1 := by cases x.sign <;> decide
  simp only [F32.finite, decide_eq_true_eq, F32.expo, FiniteBits.toF32, F32.ofFields,
    BitVec.toNat_ofNat]
  omega

/-! ### Where an arithmetic operation stands -/

/-- The places of a tick where a binary32 operation is done (41_modulator.md R136, 43_mixer.md R172,
R173, R175). A free NaN is chosen anew at each. -/
inductive ArithSite where
  /-- the addition of shape entry `i` into ACC of a stream (41_modulator.md R136) -/
  | overlapAdd (s : Stream) (i : Nat)
  /-- the pilot product (43_mixer.md R172) -/
  | pilot
  /-- carrier times sample (43_mixer.md R173) -/
  | carrier (s : Stream)
  /-- times the stream level (43_mixer.md R173) -/
  | level (s : Stream)
  /-- the sum (43_mixer.md R173) -/
  | sum (s : Stream)
  /-- times the output level (43_mixer.md R175) -/
  | output
  deriving DecidableEq, Repr

/-! ### The values the spec leaves open -/

/-- The bits of a NaN result of the operation at a site of the tick numbered by the counter
State.freeIndex: any value (93_implementation_defined.md I19). Free value, log 3. -/
opaque Config.nanResult : Nat → ArithSite → NaNBits

/-- P_FS less 1, at the reference P_SPB = 160: P_FS is OPEN, with 1 <= P_FS and
P_SPB + P_FS <= 65536 (00_scope.md R8). Free value, log 2. -/
opaque Config.filterSizePred : Fin 65376

/-- The entry of P_SHAPE at an index: OPEN, any finite binary32 value (00_scope.md R9). Free value,
log 2. -/
opaque Config.shape : Nat → FiniteBits

/-- P_OFFSET(s, k, v) for s = 1..3 (first argument s - 1): OPEN (00_scope.md R13). Free value,
log 2. -/
opaque Config.offset : Fin 3 → Position → Bool → BitVec 10

/-- What an internal memory would give at an index it does not have. No state that a run reaches
reads there (10_state.md R38, R41). Free value, log 10. -/
opaque Config.absentEntry : Nat → F32

/-- What BITS would give at an index of 104 or more. No state that a run reaches reads there
(10_state.md R38). Free value, log 10. -/
opaque Config.absentBit : Nat → Bool

/-- What OSC_LEN[k] reads while N is 2^32 or more: 10_state.md R29 says only 'as a u32', and P_SR and
P_OSC_CAP have no upper bound (00_scope.md R6, R14). Free value, log 23. -/
opaque Config.wideOscLen : OscId → Nat → Word

/-- What OSC_PHASE[k] reads while the phase is 2^32 or more: 10_state.md R30 says only 'as a u32'. Free
value, log 23. -/
opaque Config.wideOscPhase : OscId → Nat → Word

/-! ### The parameters -/

/-- The two versions of P_OFFSET for one stream and position: v = 0 and v = 1 (00_scope.md R13). -/
structure OffsetPair where
  versionA : BitVec 10
  versionB : BitVec 10
  deriving DecidableEq, Repr

/-- The parameters P_SR, P_SPB, P_SHAPE (its length is P_FS), P_NSTREAMS, P_OFFSET, P_OSC_CAP and
P_TRIG of 00_scope.md R6 to R15. `trig` lists the entries of P_TRIG that differ from the reference,
each under its frequency modulo P_SR, on which alone P_TRIG depends (42_oscillator.md R156), and its
index. -/
structure ParamSet where
  sr : Nat
  spb : Nat
  shape : List F32
  nstreams : Nat
  offset : Vector (Vector OffsetPair 4) 3
  oscCap : Nat
  trig : List ((Nat × Nat) × (F32 × F32))
  deriving DecidableEq, Repr

/-- P_FS, the length of the pulse shape (00_scope.md R8). -/
def ParamSet.fs (p : ParamSet) : Nat := p.shape.length

/-- P_L = P_SPB + P_FS (00_scope.md R10). -/
def ParamSet.accLen (p : ParamSet) : Nat := p.spb + p.fs

/-- P_OSC_DEFAULT (00_scope.md R16). -/
def oscDefault : OscId → Word
  | 0 => 19000#32
  | 1 => 57000#32
  | 2 => 66500#32
  | 3 => 71250#32
  | 4 => 76000#32

/-- P_VOLMAX, the binary32 value nearest to 0.15 (00_scope.md R11). -/
def volMax : F32 := 0x3E19999A#32

/-- The reference parameters, and the open constants where the spec gives no reference value
(00_scope.md R6 to R15). -/
def ParamSet.reference : ParamSet where
  sr := 190000
  spb := 160
  shape := (List.range (Config.filterSizePred.val + 1)).map fun i => (Config.shape i).toF32
  nstreams := 4
  offset :=
    let row := fun (s : Fin 3) (k : Position) =>
      OffsetPair.mk (Config.offset s k false) (Config.offset s k true)
    let rows := fun (s : Fin 3) => #v[row s 0, row s 1, row s 2, row s 3]
    #v[rows 0, rows 1, rows 2]
  oscCap := 190000
  trig := []

end Sys2Proof
end

