-- ==== Sys2Proof/Machine/Binary32.lean ====
section
/-!
DEFINITION. IEEE 754 binary32 arithmetic as 00_scope.md R17 names it: fadd, fmul, fneg, the
comparisons and isNaN, rounded to nearest with ties to even, subnormals kept (92_eei_decisions.md D19).
Every finite value is a whole multiple of 2^-149, so sums and products are computed exactly on
integers and narrowed once at the end.
-/

namespace Sys2Proof

/-! ### The fields of a pattern (20_memory.md R64) -/

/-- The sign, bit 31. -/
def F32.sign (x : F32) : Bool := x.msb

/-- The fraction, bits 22:0. -/
def F32.frac (x : F32) : Nat := x.toNat % 2 ^ 23

/-- `isNaN(x)`: any NaN pattern (00_scope.md R17). -/
def F32.isNaN (x : F32) : Bool := decide (F32.expo x = 255 ∧ F32.frac x ≠ 0)

/-- An infinity. -/
def F32.isInf (x : F32) : Bool := decide (F32.expo x = 255 ∧ F32.frac x = 0)

/-- The magnitude of a finite value in units of 2^-149. -/
def F32.mag (x : F32) : Nat :=
  if F32.expo x = 0 then F32.frac x else (2 ^ 23 + F32.frac x) * 2 ^ (F32.expo x - 1)

/-- A finite value in units of 2^-149. -/
def F32.units (x : F32) : Int := if F32.sign x then -(F32.mag x : Int) else (F32.mag x : Int)

/-! ### Named values -/

/-- +0.0 -/
def F32.zero : F32 := 0x00000000#32

/-- -0.0 -/
def F32.negZero : F32 := 0x80000000#32

/-- 1.0 -/
def F32.one : F32 := 0x3F800000#32

/-- -1.0 -/
def F32.negOne : F32 := 0xBF800000#32

/-! ### Narrowing -/

/-- `m / 2^q` rounded to the nearest integer, ties to even. -/
def roundShift (m q : Nat) : Nat :=
  let d := m / 2 ^ q
  let r := m % 2 ^ q
  if 2 * r < 2 ^ q then d else if 2 ^ q < 2 * r then d + 1 else d + d % 2

/-- Bits 30:0 of the binary32 value nearest to `m * 2^-(149 + sh)`, ties to even; an overflow gives
the pattern of infinity (00_scope.md R17). The quantum is 2^-149 or, from 24 significant bits on, the
one that keeps 24 of them. -/
def roundMag (m sh : Nat) : Nat :=
  let q := max (Nat.log2 m - 23) sh
  min ((q - sh) * 2 ^ 23 + roundShift m q) (255 * 2 ^ 23)

/-- A pattern from a sign and bits 30:0. -/
def F32.ofSignMag (neg : Bool) (bits : Nat) : F32 := F32.ofFields neg 0 bits

/-! ### Operations -/

/-- `fneg(a)` flips the sign bit exactly (00_scope.md R17). -/
def fneg (a : F32) : F32 := a ^^^ 0x80000000#32

/-- `fadd(a, b)`: binary32 addition to nearest, ties to even (00_scope.md R17). `nan` is what a NaN
result is, which the spec leaves open (93_implementation_defined.md I19). -/
def fadd (nan : NaNBits) (a b : F32) : F32 :=
  if F32.isNaN a || F32.isNaN b then nan.toF32
  else if F32.isInf a then
    if F32.isInf b && (F32.sign a != F32.sign b) then nan.toF32 else a
  else if F32.isInf b then b
  else
    let sum := F32.units a + F32.units b
    if sum = 0 then
      if F32.sign a && F32.sign b then F32.negZero else F32.zero
    else F32.ofSignMag (decide (sum < 0)) (roundMag sum.natAbs 0)

/-- `fmul(a, b)`: binary32 multiplication to nearest, ties to even (00_scope.md R17). `nan` is what a
NaN result is (93_implementation_defined.md I19). -/
def fmul (nan : NaNBits) (a b : F32) : F32 :=
  let neg := F32.sign a != F32.sign b
  if F32.isNaN a || F32.isNaN b then nan.toF32
  else if F32.isInf a || F32.isInf b then
    if (F32.finite a && F32.mag a == 0) || (F32.finite b && F32.mag b == 0) then nan.toF32
    else F32.ofSignMag neg (255 * 2 ^ 23)
  else F32.ofSignMag neg (roundMag (F32.mag a * F32.mag b) 149)

/-! ### Comparisons -/

/-- A key whose integer order is the order of the values that are no NaN: both zeros give 0. -/
def F32.key (x : F32) : Int :=
  if F32.sign x then -((x.toNat % 2 ^ 31 : Nat) : Int) else ((x.toNat % 2 ^ 31 : Nat) : Int)

/-- `a < b`, false with a NaN (00_scope.md R17). -/
def F32.lt (a b : F32) : Bool :=
  !F32.isNaN a && !F32.isNaN b && decide (F32.key a < F32.key b)

/-- `a <= b`, false with a NaN (00_scope.md R17). -/
def F32.le (a b : F32) : Bool :=
  !F32.isNaN a && !F32.isNaN b && decide (F32.key a ≤ F32.key b)

/-- `-1.0 <= x <= 1.0`, so neither a NaN nor an infinity. -/
def F32.inUnit (x : F32) : Bool := F32.le F32.negOne x && F32.le x F32.one

end Sys2Proof
end

