-- ==== Sys2Proof/Machine/Accum.lean ====
section
/-!
DEFINITION. The circular accumulator memory ACC[s] (10_state.md R36, 20_memory.md R60) as a list of
(index, value) pairs in one canonical form: indices strictly rising, and no entry equal to +0.0, which
is what an unlisted index reads as (its value after reset, R36; log 11).
-/

namespace Sys2Proof.Machine

/-- The contents of one ACC[s]. -/
abbrev AccMem := List (Nat × F32)

/-- MemRead(ACC, a) (00_scope.md R18). -/
def accRead : AccMem → Nat → F32
  | [], _ => F32.zero
  | (b, v) :: rest, a => if a = b then v else accRead rest a

/-- Puts an entry at an index, or removes it where the value is what an unlisted index reads as. -/
def accPut (a : Nat) (v : F32) (rest : AccMem) : AccMem :=
  if v = F32.zero then rest else (a, v) :: rest

/-- MemWrite(ACC, a, v) (00_scope.md R18). -/
def accWrite : AccMem → Nat → F32 → AccMem
  | [], a, v => accPut a v []
  | (b, u) :: rest, a, v =>
    if a < b then accPut a v ((b, u) :: rest)
    else if a = b then accPut a v rest
    else (b, u) :: accWrite rest a v

/-- The canonical form: indices strictly rising from `lo` on, all below `len`, no entry +0.0. -/
def accWfFrom (len : Nat) : Nat → AccMem → Bool
  | _, [] => true
  | lo, (b, u) :: rest =>
    decide (lo ≤ b) && decide (b < len) && (u != F32.zero) && accWfFrom len (b + 1) rest

/-- The canonical form of an accumulator of `len` entries. -/
def accWf (len : Nat) (m : AccMem) : Bool := accWfFrom len 0 m

end Sys2Proof.Machine
end

