-- ==== Sys2Proof/WellFormed.lean ====
section
/-!
DEFINITION. What well-formed means here. A command needs no check: each operand of Instr has exactly
the values its field can hold, and the spec admits them all (30_encoding.md R82, R84, R85). A
configuration does: 00_scope.md R6 to R14 bound the parameters, and a model must refuse to build one
outside the bounds (70_reset_and_hazards.md R253).
-/

namespace Sys2Proof

/-- P_SR is a positive integer (00_scope.md R6). -/
def ParamSet.srOk (p : ParamSet) : Bool := decide (1 ≤ p.sr)

/-- 1 <= P_SPB <= 65535 (00_scope.md R7). -/
def ParamSet.spbOk (p : ParamSet) : Bool := decide (1 ≤ p.spb ∧ p.spb ≤ 65535)

/-- 1 <= P_FS and P_SPB + P_FS <= 65536 (00_scope.md R8). -/
def ParamSet.fsOk (p : ParamSet) : Bool := decide (1 ≤ p.fs ∧ p.spb + p.fs ≤ 65536)

/-- Every entry of P_SHAPE is finite (00_scope.md R9). -/
def ParamSet.shapeOk (p : ParamSet) : Bool := p.shape.all F32.finite

/-- P_NSTREAMS is in 1..4 (00_scope.md R12). -/
def ParamSet.nstreamsOk (p : ParamSet) : Bool := decide (1 ≤ p.nstreams ∧ p.nstreams ≤ 4)

/-- P_OSC_CAP >= 1 (00_scope.md R14), and every default oscillator fits
(70_reset_and_hazards.md R253). -/
def ParamSet.oscCapOk (p : ParamSet) : Bool :=
  decide (1 ≤ p.oscCap) &&
    [0, 1, 2, 3, 4].all fun k => decide (p.sr / Nat.gcd p.sr (oscDefault k).toNat ≤ p.oscCap)

/-- Every departure from the reference P_TRIG is a pair of values in [-1, 1]: 43_mixer.md R180 and R181
rest on finite tables of sines and cosines (log 24). -/
def ParamSet.trigOk (p : ParamSet) : Bool :=
  p.trig.all fun entry => F32.inUnit entry.2.1 && F32.inUnit entry.2.2

/-- The configurations the spec admits. -/
def ParamSet.admitted (p : ParamSet) : Bool :=
  p.srOk && p.spbOk && p.fsOk && p.shapeOk && p.nstreamsOk && p.oscCapOk && p.trigOk

/-- A configuration of the block: parameters together with the proof that the spec admits them, so
that one the spec refuses cannot be built (70_reset_and_hazards.md R253). -/
structure Params extends ParamSet where
  isAdmitted : toParamSet.admitted = true
  deriving DecidableEq, Repr

theorem ParamSet.reference_fs : ParamSet.reference.fs = Config.filterSizePred.val + 1 := by
  simp [ParamSet.reference, ParamSet.fs]

theorem ParamSet.reference_fsOk : ParamSet.reference.fsOk = true := by
  have hlt := Config.filterSizePred.isLt
  have h : ParamSet.reference.spb = 160 := rfl
  simp only [ParamSet.fsOk, ParamSet.reference_fs, h, decide_eq_true_eq]
  omega

theorem ParamSet.reference_shapeOk : ParamSet.reference.shapeOk = true := by
  rw [ParamSet.shapeOk, List.all_eq_true]
  intro x hx
  simp only [ParamSet.reference, List.mem_map] at hx
  obtain ⟨i, -, rfl⟩ := hx
  exact FiniteBits.toF32_finite _

theorem ParamSet.reference_admitted : ParamSet.reference.admitted = true := by
  have hosc : ParamSet.reference.oscCapOk = true := by decide
  simp only [ParamSet.admitted, ParamSet.reference_fsOk, ParamSet.reference_shapeOk, hosc]
  decide

/-- The reference configuration (00_scope.md R6 to R15). -/
def Params.reference : Params :=
  ⟨ParamSet.reference, ParamSet.reference_admitted⟩

end Sys2Proof
end

