-- ==== Sys2Proof/Machine/Trig.lean ====
section
/-!
DEFINITION. The table values of the oscillators: P_TRIG with its reference values (00_scope.md R15) and
the table length (42_oscillator.md R151). The reference values are the correctly rounded sine and
cosine of a rational part of a turn: computed with integers in fixed point, far finer than the
rounding step, and rounded once (log 4).
-/

namespace Sys2Proof

/-- The table length N(f) = P_SR / gcd(P_SR, f) (42_oscillator.md R151). -/
def tableLen (sr f : Nat) : Nat := sr / Nat.gcd sr f

/-- arctan(1/k) in fixed point by its series, given the next power `pw` of 1/k; at most `fuel` terms
from term `j` on, ending where a power is 0. -/
def arctanSeries (k : Nat) : Nat → Nat → Nat → Nat
  | 0, _, _ => 0
  | fuel + 1, j, pw =>
    if pw = 0 then 0 else pw / (2 * j + 1) - arctanSeries k fuel (j + 1) (pw / (k * k))

/-- pi with `bits` fractional bits, by pi = 16 arctan(1/5) - 4 arctan(1/239) with 32 guard bits. -/
def piFixed (bits : Nat) : Nat :=
  let b := bits + 32
  (16 * arctanSeries 5 b 0 (2 ^ b / 5) - 4 * arctanSeries 239 b 0 (2 ^ b / 239)) / 2 ^ 32

/-- The sine series in fixed point with `bits` fractional bits: from the term `term` of index `j`,
with `xx` the square of the angle; at most `fuel` terms. -/
def sineSeries (bits xx : Nat) : Nat → Nat → Nat → Nat
  | 0, _, _ => 0
  | fuel + 1, j, term =>
    if term = 0 then 0
    else term - sineSeries bits xx fuel (j + 1)
      (term * xx / 2 ^ bits / ((2 * j + 2) * (2 * j + 3)))

/-- Fractional bits of the fixed-point values for a sample rate. -/
def trigBits (sr : Nat) : Nat := 160 + 2 * Nat.log2 sr

/-- Bits 30:0 of the binary32 value nearest to sin((pi / 2) * (t / sr)), for 0 <= t <= sr. The ends
are exact (42_oscillator.md R152), and no sine is above 1.0. -/
def quarterSine (sr t : Nat) : Nat :=
  if t = 0 then 0
  else if t = sr then 0x3F800000
  else
    let b := trigBits sr
    let x := piFixed b * t / (2 * sr)
    min (roundMag (sineSeries b (x * x / 2 ^ b) b 0 x) (b - 149)) 0x3F800000

/-- A pattern with a sign, where a zero is stored as +0.0 (00_scope.md R15). -/
def signedTableValue (neg : Bool) (bits : Nat) : F32 :=
  F32.ofSignMag (neg && bits != 0) bits

/-- The sine of r / sr of a turn, 0 <= r < sr. -/
def turnSine (sr r : Nat) : F32 :=
  let t := 4 * r % sr
  match 4 * r / sr with
  | 0 => signedTableValue false (quarterSine sr t)
  | 1 => signedTableValue false (quarterSine sr (sr - t))
  | 2 => signedTableValue true (quarterSine sr t)
  | _ => signedTableValue true (quarterSine sr (sr - t))

/-- The cosine of r / sr of a turn, 0 <= r < sr. -/
def turnCosine (sr r : Nat) : F32 :=
  let t := 4 * r % sr
  match 4 * r / sr with
  | 0 => signedTableValue false (quarterSine sr (sr - t))
  | 1 => signedTableValue true (quarterSine sr t)
  | 2 => signedTableValue true (quarterSine sr (sr - t))
  | _ => signedTableValue false (quarterSine sr t)

/-- The reference P_TRIG(f, i): sine and cosine of 2 pi ((f i) mod P_SR) / P_SR (00_scope.md R15). -/
def referenceTrig (sr f i : Nat) : F32 × F32 :=
  (turnSine sr (f * i % sr), turnCosine sr (f * i % sr))

/-- P_TRIG(f, i): a listed departure, else the reference value (00_scope.md R15, log 4). It depends on f
only through f mod P_SR (42_oscillator.md R156). -/
def ParamSet.pTrig (p : ParamSet) (f i : Nat) : F32 × F32 :=
  match p.trig.lookup (f % p.sr, i) with
  | some v => v
  | none => referenceTrig p.sr f i

end Sys2Proof
end

