-- ==== Sys2Proof/Machine/Parts.lean ====
section
/-!
DEFINITION. The parts State is made of, the modulator context and the oscillator, with what each of them
is after its own reset (10_state.md R35 to R41).
-/

namespace Sys2Proof.Machine

/-- One entry for each stream. -/
def perStream {α : Type} (f : Stream → α) : Vector α 4 := #v[f 0, f 1, f 2, f 3]

/-- One entry for each oscillator. -/
def perOsc {α : Type} (f : OscId → α) : Vector α 5 := #v[f 0, f 1, f 2, f 3, f 4]

/-- The context MOD[s] with ACC[s] and BITS[s] (10_state.md R35 to R37). BITS[s][j] is bit j of `bits`
counted from its most significant bit, so that entry 0, sent first, leads (30_encoding.md R93). -/
structure ModCtx where
  sampleCount : Nat
  bitPos : Nat
  curOut : Bool
  prevOut : Bool
  w : Nat
  r : Nat
  acc : AccMem
  bits : BitVec 104
  deriving DecidableEq, Repr

/-- What ModReset sets a context to (41_modulator.md R139, 10_state.md R35 to R37). -/
def freshCtx (p : Params) : ModCtx where
  sampleCount := p.spb
  bitPos := 104
  curOut := false
  prevOut := false
  w := 0
  r := 0
  acc := []
  bits := 0#104

/-- The state OSC[k] with its two tables (10_state.md R40). `f` is also the register OSC_FREQ[k], of
which OSC[k].f is a copy. -/
structure Osc where
  f : Word
  n : Nat
  phase : Nat
  sin : List F32
  cos : List F32
  deriving DecidableEq, Repr

/-- What OscBuild(k, f) leaves when the tables fit (42_oscillator.md R150 to R152). -/
def builtOsc (p : Params) (f : Word) : Osc where
  f := f
  n := tableLen p.sr f.toNat
  phase := 0
  sin := (List.range (tableLen p.sr f.toNat)).map fun i => (p.pTrig f.toNat i).1
  cos := (List.range (tableLen p.sr f.toNat)).map fun i => (p.pTrig f.toNat i).2

/-- The error causes (60_exceptions.md R221). -/
inductive Cause where
  | illegal
  | operand
  | oscAlloc
  | underrun
  deriving DecidableEq, Repr

/-- The fields of STATUS that exist; the other bits read as 0 (10_state.md R23). -/
structure Status where
  halted : Bool
  eIllegal : Bool
  eOperand : Bool
  eOscAlloc : Bool
  eUnderrun : Bool
  firstCause : BitVec 4
  firstInfo : BitVec 8
  deriving DecidableEq, Repr

/-- STATUS after reset (10_state.md R23). -/
def clearStatus : Status where
  halted := false
  eIllegal := false
  eOperand := false
  eOscAlloc := false
  eUnderrun := false
  firstCause := 0#4
  firstInfo := 0#8

/-- What the block puts on a port: a frame, the result of an ENC, the result of an RDREG
(10_state.md R47), or a request for a group on GROUP[s] (R46). -/
inductive Output where
  | frame (l r : F32)
  | encResp (v : BitVec 104)
  | regResp (v : Word)
  | groupRequest (s : Stream)
  deriving DecidableEq, Repr

/-- What the host does next: sends a command word (10_state.md R45), or asserts the reset input, either
between commands or while a command is pending (70_reset_and_hazards.md R251). In the last case a
FRAMES has completed at most the given number of ticks; every other command is atomic and has not
taken effect (20_memory.md R66; log 6). -/
inductive HostInput where
  | command (w : Cmd)
  | assertReset
  | assertResetDuring (w : Cmd) (ticks : Nat)
  deriving DecidableEq, Repr

end Sys2Proof.Machine
end

