-- ==== Sys2Proof/Machine/State.lean ====
section
/-!
DEFINITION. The state of the block: every row of 10_state.md R48, the parameters, and the ports; and the
state after reset (70_reset_and_hazards.md R250 to R252).
-/

namespace Sys2Proof.Machine

/-- The whole machine. The first field is fixed for a machine; the last four are the ports and the
model's own counter. -/
structure State where
  /-- the parameters P_* (00_scope.md R6 to R15), fixed; SHAPE is among them (10_state.md R42) -/
  params : Params
  /-- STATUS (10_state.md R23) -/
  status : Status
  /-- STREAM_EN (10_state.md R24) -/
  streamEn : Word
  /-- OUT_VOL (10_state.md R25) -/
  outVol : F32
  /-- PILOT_VOL (10_state.md R26) -/
  pilotVol : F32
  /-- STREAM_VOL[0..3] (10_state.md R27) -/
  streamVol : Vector F32 4
  /-- OSC[0..4], with OSC_FREQ, OSC_LEN and OSC_PHASE (10_state.md R28 to R30, R40) -/
  osc : Vector Osc 5
  /-- MOD[0..3], with ACC and BITS (10_state.md R35 to R37) -/
  mods : Vector ModCtx 4
  /-- what the host does next on the command port and the reset input (10_state.md R45) -/
  hostIn : List HostInput
  /-- GROUP[0..3]: the host's answers to the coming requests (10_state.md R46); past the end: none -/
  groupIn : Vector (List (Option Group)) 4
  /-- what was put on the output ports so far, oldest first (10_state.md R47) -/
  out : List Output
  /-- the model's own: which free NaN bits the next tick takes (log 3) -/
  freeIndex : Nat
  deriving DecidableEq, Repr

/-- Why the machine stops with a fault. There is no constructor: every error of the block is recorded
in STATUS and the block goes on (60_exceptions.md R222, R231), so no command and no illegal word
raises one. -/
inductive Fault where
  deriving DecidableEq, Repr

/-- Why an instruction has no meaning. -/
inductive Refusal where
  /-- An instruction with no meaning yet: raised by `exec` alone, for an arm not yet written. No arm is
  left so; safe, since the machine stops where the block would go on. -/
  | notModelled (mnemonic : String)
  deriving DecidableEq, Repr

/-- The state after power-on of a block with given parameters: every row of 10_state.md R48, and ports
on which nothing has happened. -/
def State.resetWith (p : Params) : State where
  params := p
  status := clearStatus
  streamEn := 0#32
  outVol := F32.one
  pilotVol := F32.zero
  streamVol := perStream fun _ => F32.zero
  osc := perOsc fun k => builtOsc p (oscDefault k)
  mods := perStream fun _ => freshCtx p
  hostIn := []
  groupIn := perStream fun _ => []
  out := []
  freeIndex := 0

/-- The state after power-on of the block with the reference parameters (70_reset_and_hazards.md R251,
R252). -/
def State.reset : State := State.resetWith Params.reference

end Sys2Proof.Machine
end

