-- ==== Sys2Proof/Machine/Flags.lean ====
section
/-!
DEFINITION. STATUS: its cause codes, its layout, and what an error does to it (10_state.md R23,
60_exceptions.md R221, R222). The block has no condition codes (10_state.md R22).
-/

namespace Sys2Proof.Machine

/-- The cause code, which is also the number of the flag's bit (60_exceptions.md R221). -/
def Cause.code : Cause → BitVec 4
  | .illegal => 1#4
  | .operand => 2#4
  | .oscAlloc => 3#4
  | .underrun => 4#4

/-- The fatal causes, which halt the block (60_exceptions.md R221, R222). -/
def Cause.fatal : Cause → Bool
  | .illegal => false
  | .operand => false
  | .oscAlloc => true
  | .underrun => true

/-- `raise Err(code, info)` on STATUS: set the flag, record the first cause with its information byte,
halt on a fatal cause (60_exceptions.md R222). -/
def Status.raise (c : Cause) (info : BitVec 8) (st : Status) : Status where
  halted := st.halted || c.fatal
  eIllegal := st.eIllegal || c == .illegal
  eOperand := st.eOperand || c == .operand
  eOscAlloc := st.eOscAlloc || c == .oscAlloc
  eUnderrun := st.eUnderrun || c == .underrun
  firstCause := if st.firstCause = 0#4 then c.code else st.firstCause
  firstInfo := if st.firstCause = 0#4 then info else st.firstInfo

/-- STATUS as a 32-bit word: FIRST_INFO in bits 23:16, FIRST_CAUSE in bits 11:8, the flags in bits 4:1,
HALTED in bit 0, zeros elsewhere (10_state.md R23). -/
def Status.word (st : Status) : Word :=
  0#8 ++ st.firstInfo ++ 0#4 ++ st.firstCause ++ 0#3 ++ BitVec.ofBool st.eUnderrun ++
    BitVec.ofBool st.eOscAlloc ++ BitVec.ofBool st.eOperand ++ BitVec.ofBool st.eIllegal ++
    BitVec.ofBool st.halted

end Sys2Proof.Machine
end

