-- ==== Sys2Proof/Machine/Operands.lean ====
section
/-!
DEFINITION. The operand forms of WRREG and RDREG: which register a number names (10_state.md R20), and
what a register makes of DATA (30_encoding.md R82; 44_control.md R196, R197).
-/

namespace Sys2Proof.Machine

/-- The control registers (10_state.md R20). -/
inductive Reg where
  | status
  | streamEn
  | outVol
  | pilotVol
  | streamVol (s : Stream)
  | oscFreq (k : OscId)
  | oscLen (k : OscId)
  | oscPhase (k : OscId)
  | modState (s : Stream)
  | modPtr (s : Stream)
  deriving DecidableEq, Repr

/-- The register map (10_state.md R20). -/
def regMap : List (Nat × Reg) :=
  [ (0x00, .status), (0x01, .streamEn), (0x02, .outVol), (0x03, .pilotVol),
    (0x04, .streamVol 0), (0x05, .streamVol 1), (0x06, .streamVol 2), (0x07, .streamVol 3),
    (0x08, .oscFreq 0), (0x09, .oscFreq 1), (0x0A, .oscFreq 2), (0x0B, .oscFreq 3),
    (0x0C, .oscFreq 4),
    (0x10, .oscLen 0), (0x11, .oscLen 1), (0x12, .oscLen 2), (0x13, .oscLen 3),
    (0x14, .oscLen 4),
    (0x18, .oscPhase 0), (0x19, .oscPhase 1), (0x1A, .oscPhase 2), (0x1B, .oscPhase 3),
    (0x1C, .oscPhase 4),
    (0x20, .modState 0), (0x21, .modState 1), (0x22, .modState 2), (0x23, .modState 3),
    (0x24, .modPtr 0), (0x25, .modPtr 1), (0x26, .modPtr 2), (0x27, .modPtr 3) ]

/-- The register a number names; none for an unimplemented number (10_state.md R20, R33). -/
def regOf (regno : BitVec 8) : Option Reg := regMap.lookup regno.toNat

/-- The bits of STREAM_EN that exist: 0..P_NSTREAMS-1 (10_state.md R24). -/
def streamMask (p : Params) : Word := BitVec.ofNat 32 (2 ^ p.nstreams - 1)

/-- `Clamp(v, max)` on a value that is no NaN: above the ceiling it becomes the ceiling, at or below
zero it becomes +0.0 (44_control.md R197). -/
def clampLevel (v max : F32) : F32 :=
  if F32.lt max v then max else if F32.le v F32.zero then F32.zero else v

/-- DATA read as a level: none for a NaN, which is refused (44_control.md R197). -/
def levelOperand (data : Word) (max : F32) : Option F32 :=
  if F32.isNaN data then none else some (clampLevel data max)

end Sys2Proof.Machine
end

