-- ==== Sys2Proof/Machine/Ops.lean ====
section
/-!
DEFINITION. The named operations over State: reading the internal memories, the ports, recording an
error, and the reset of a context and of the block. The block has no trap entry and no return: the
whole of entering the error state is `State.raise`, and `State.blockReset` is what leaves it
(60_exceptions.md R231, R232).
-/

namespace Sys2Proof.Machine

/-! ### The internal memories (20_memory.md R60) -/

/-- MemRead of SIN[k] or COS[k]. -/
def tableRead (table : List F32) (i : Nat) : F32 :=
  match table[i]? with
  | some v => v
  | none => Config.absentEntry i

/-- MemRead(BITS, j): entry 0 is the bit sent first (10_state.md R37, 30_encoding.md R93). -/
def bitsRead (bits : BitVec 104) (j : Nat) : Bool :=
  if j < 104 then bits.getMsbD j else Config.absentBit j

/-- MemRead(ACC, a) of an accumulator of `len` entries. -/
def accFetch (len : Nat) (m : AccMem) (a : Nat) : F32 :=
  if a < len then accRead m a else Config.absentEntry a

/-! ### Parts of State -/

/-- HALTED (10_state.md R23). -/
def State.halted (s : State) : Bool := s.status.halted

/-- EN[k]: stream k is implemented and its bit is set (10_state.md R24). -/
def State.enabled (s : State) (k : Stream) : Bool :=
  decide (k.val < s.params.nstreams) && s.streamEn.getLsbD k.val

/-- MOD[k] (10_state.md R35). -/
def State.mod (s : State) (k : Stream) : ModCtx := s.mods[k]

/-- OSC[k] (10_state.md R40). -/
def State.oscillator (s : State) (k : OscId) : Osc := s.osc[k]

/-- STREAM_VOL[k] (10_state.md R27). -/
def State.level (s : State) (k : Stream) : F32 := s.streamVol[k]

/-- GROUP[k]: the host's answers to the coming requests (10_state.md R46). -/
def State.groups (s : State) (k : Stream) : List (Option Group) := s.groupIn[k]

/-- MOD[k] is replaced. -/
def State.setMod (s : State) (k : Stream) (m : ModCtx) : State :=
  { s with mods := s.mods.set k m }

/-- OSC[k] is replaced. -/
def State.setOsc (s : State) (k : OscId) (o : Osc) : State :=
  { s with osc := s.osc.set k o }

/-- STREAM_VOL[k] is replaced. -/
def State.setStreamVol (s : State) (k : Stream) (v : F32) : State :=
  { s with streamVol := s.streamVol.set k v }

/-- GROUP[k] is replaced: the host's answers after some have been taken. -/
def State.setGroups (s : State) (k : Stream) (answers : List (Option Group)) : State :=
  { s with groupIn := s.groupIn.set k answers }

/-! ### The ports (10_state.md R46, R47) -/

/-- A value is put on an output port (00_scope.md R18 `emit`, `respond`). -/
def State.emit (s : State) (o : Output) : State := { s with out := s.out ++ [o] }

/-- `request GROUP[k]`: the host's next answer on that port, and the port after it. The request shows
on the port whatever the answer is (10_state.md R46; log 7, 8). -/
def State.requestGroup (s : State) (k : Stream) : Option Group × State :=
  ((s.groups k).head?.join, (s.setGroups k (s.groups k).tail).emit (.groupRequest k))

/-! ### Errors and reset -/

/-- `raise Err(code, info)` (60_exceptions.md R222). -/
def State.raise (s : State) (c : Cause) (info : BitVec 8) : State :=
  { s with status := s.status.raise c info }

/-- `ModReset(k)` (41_modulator.md R139). -/
def State.modReset (s : State) (k : Stream) : State := s.setMod k (freshCtx s.params)

/-- `OscBuild(k, f)` (42_oscillator.md R150): where the tables do not fit, E_OSC_ALLOC and the
oscillator unchanged. -/
def State.oscBuild (s : State) (k : OscId) (f : Word) : State :=
  if s.params.oscCap < tableLen s.params.sr f.toNat then s.raise .oscAlloc (BitVec.ofNat 8 k.val)
  else s.setOsc k (builtOsc s.params f)

/-- `BlockReset()` (70_reset_and_hazards.md R250). The parameters (SHAPE among them), what was emitted
and what the host does next are not changed; no group is requested. The oscillators are built in
order, and in an admitted configuration none of them fails (R253). -/
def State.blockReset (s : State) : State :=
  let s0 : State :=
    { s with
      status := clearStatus
      streamEn := 0#32
      outVol := F32.one
      pilotVol := F32.zero
      streamVol := perStream fun _ => F32.zero }
  let s1 := (((s0.modReset 0).modReset 1).modReset 2).modReset 3
  ((((s1.oscBuild 0 (oscDefault 0)).oscBuild 1 (oscDefault 1)).oscBuild 2 (oscDefault 2)).oscBuild 3
    (oscDefault 3)).oscBuild 4 (oscDefault 4)

end Sys2Proof.Machine
end

