-- ==== Sys2Proof/Machine/Checkword.lean ====
section
/-!
DEFINITION. The checkword encoder and the command ENC (40_checkword.md). It holds no state
(10_state.md R43).
-/

namespace Sys2Proof.Machine

/-- One step of the bit-serial division: shift, and subtract the generator where the bit that leaves
differs from the data bit (40_checkword.md R112; feedback constant of R111). -/
def crcStep (reg : BitVec 10) (bit : Bool) : BitVec 10 :=
  let fb := bit ^^ reg.msb
  let shifted := reg <<< 1
  if fb then shifted ^^^ 0x1B9#10 else shifted

/-- `Crc10(m)`: most significant bit first, from a register of zero (40_checkword.md R112). -/
def crc10 (m : BitVec 16) : BitVec 10 :=
  [15, 14, 13, 12, 11, 10, 9, 8, 7, 6, 5, 4, 3, 2, 1, 0].foldl
    (fun reg i => crcStep reg (m.getLsbD i)) 0#10

/-- `CodedBlock(m, off)` (40_checkword.md R115). -/
def codedBlock (m : BitVec 16) (off : BitVec 10) : BitVec 26 := m ++ (crc10 m ^^^ off)

/-- Off(0, k, v): the offset words A, B, C or C', D (40_checkword.md R113, 30_encoding.md R94). -/
def legacyOffset : Position → Bool → BitVec 10
  | 0, _ => 0x0FC#10
  | 1, _ => 0x198#10
  | 2, false => 0x168#10
  | 2, true => 0x350#10
  | 3, _ => 0x1B4#10

/-- P_OFFSET of one of the streams 1..3, given as s - 1 (00_scope.md R13). -/
def tunnelOffset (p : Params) (s : Fin 3) (k : Position) (v : Bool) : BitVec 10 :=
  let pair := p.offset[s][k]
  if v then pair.versionB else pair.versionA

/-- Off(s, k, v) (40_checkword.md R113, R114). -/
def offsetWord (p : Params) : Stream → Position → Bool → BitVec 10
  | 0, k, v => legacyOffset k v
  | 1, k, v => tunnelOffset p 0 k v
  | 2, k, v => tunnelOffset p 1 k v
  | 3, k, v => tunnelOffset p 2 k v

/-- The version bit of a group, bit 11 of block 1 (30_encoding.md R91). -/
def Group.version (g : Group) : Bool := (g.block 1).getLsbD 11

/-- `cw[k]`, the coded block at position k (40_checkword.md R110). -/
def codeword (p : Params) (s : Stream) (g : Group) (k : Position) : BitVec 26 :=
  codedBlock (g.block k) (offsetWord p s k (Group.version g))

/-- `EncodeBits(s, block)`, the bit sent first leading (40_checkword.md R110, 30_encoding.md R93). -/
def encodeBits (p : Params) (s : Stream) (g : Group) : BitVec 104 :=
  codeword p s g 0 ++ codeword p s g 1 ++ codeword p s g 2 ++ codeword p s g 3

/-- ENC: the coded group by the stream-0 offset rule, in every state (40_checkword.md R116). -/
def execEnc (a b c d : BitVec 16) (s : State) : Host.Outcome State Fault Refusal :=
  .next (s.emit (.encResp (encodeBits s.params 0 ⟨a, b, c, d⟩)))

end Sys2Proof.Machine
end

