-- ==== Sys2Proof/Machine/Modulator.lean ====
section
/-!
DEFINITION. The differential biphase modulator: one call of ModStep (41_modulator.md R130 to R138), as
the phases of R130 on one context.
-/

namespace Sys2Proof.Machine

/-- Group load: BITS is overwritten and its cursor goes to 0 (41_modulator.md R133). -/
def loadGroup (p : Params) (k : Stream) (g : Group) (m : ModCtx) : ModCtx :=
  { m with bits := encodeBits p k g, bitPos := 0 }

/-- Bit consumption and differential encoding (41_modulator.md R134). -/
def consumeBit (m : ModCtx) : ModCtx :=
  { m with
    bitPos := m.bitPos + 1
    prevOut := m.curOut
    curOut := m.curOut ^^ bitsRead m.bits m.bitPos }

/-- The pulse-shape entry that a polarity selects: `neg` for cur_out = 1 (41_modulator.md R135). -/
def polarised (neg : Bool) (c : F32) : F32 := if neg then fneg c else c

/-- The additions of R136 for the shape entries from index `i` on, in increasing index, into an
accumulator of `len` entries at write offset `w`. -/
def addShape (tick : Nat) (k : Stream) (len w : Nat) (neg : Bool) :
    List F32 → Nat → AccMem → AccMem
  | [], _, acc => acc
  | c :: rest, i, acc =>
    let a := (w + i) % len
    let sum := fadd (Config.nanResult tick (.overlapAdd k i)) (accRead acc a) (polarised neg c)
    addShape tick k len w neg rest (i + 1) (accWrite acc a sum)

/-- Overlap-add of the pulse shape at the write offset (41_modulator.md R136). -/
def overlapAdd (p : Params) (tick : Nat) (k : Stream) (m : ModCtx) : ModCtx :=
  { m with acc := addShape tick k p.accLen m.w m.curOut p.shape 0 m.acc }

/-- Offset advance at a bit boundary (41_modulator.md R137). -/
def advanceWrite (p : Params) (m : ModCtx) : ModCtx :=
  { m with w := (m.w + p.spb) % p.accLen, sampleCount := 0 }

/-- A bit boundary after the group is there: R134, R136, R137 in this order. -/
def boundary (p : Params) (tick : Nat) (k : Stream) (m : ModCtx) : ModCtx :=
  advanceWrite p (overlapAdd p tick k (consumeBit m))

/-- The sample counter counts in every call (41_modulator.md R137). -/
def countSample (m : ModCtx) : ModCtx := { m with sampleCount := m.sampleCount + 1 }

/-- The sample at the read cursor (41_modulator.md R138). -/
def sampleOf (p : Params) (m : ModCtx) : F32 := accFetch p.accLen m.acc m.r

/-- The entry read is cleared and the cursor moves on (41_modulator.md R138). -/
def clearRead (p : Params) (m : ModCtx) : ModCtx :=
  { m with acc := accWrite m.acc m.r F32.zero, r := (m.r + 1) % p.accLen }

/-- What a call of ModStep gives: a sample, or an underrun. Both carry the state it leaves, in which
the port of the stream has moved on. -/
inductive ModResult where
  | sample (y : F32) (s : State)
  | underrun (s : State)

/-- The part of ModStep after the boundary: count, read, clear (41_modulator.md R137, R138). -/
def finishStep (s : State) (k : Stream) (m : ModCtx) : ModResult :=
  let counted := countSample m
  .sample (sampleOf s.params counted) (s.setMod k (clearRead s.params counted))

/-- `ModStep(k)` (41_modulator.md R130): a boundary falls exactly when sample_count = P_SPB (R131), and
loads a group when the buffer is exhausted (R133). -/
def modStep (s : State) (k : Stream) : ModResult :=
  let m := s.mod k
  if m.sampleCount = s.params.spb then
    if m.bitPos = 104 then
      match s.requestGroup k with
      | (none, s') => .underrun s'
      | (some g, s') =>
        finishStep s' k (boundary s.params s.freeIndex k (loadGroup s.params k g m))
    else finishStep s k (boundary s.params s.freeIndex k m)
  else finishStep s k m

end Sys2Proof.Machine
end

