-- ==== Sys2Proof/Machine/Oscillator.lean ====
section
/-!
DEFINITION. Reading and advancing the oscillators (42_oscillator.md R153, R154). Building one is
`State.oscBuild`.
-/

namespace Sys2Proof.Machine

/-- `OscCos(k)` (42_oscillator.md R153). -/
def oscCos (o : Osc) : F32 := tableRead o.cos o.phase

/-- `OscSin(k)` (42_oscillator.md R153). -/
def oscSin (o : Osc) : F32 := tableRead o.sin o.phase

/-- `OscAdvance(k)` (42_oscillator.md R154). -/
def oscAdvance (o : Osc) : Osc := { o with phase := (o.phase + 1) % o.n }

/-- All five oscillators advance, whatever STREAM_EN and the levels hold (42_oscillator.md R154). -/
def State.advanceOscs (s : State) : State :=
  { s with osc := perOsc fun k => oscAdvance (s.oscillator k) }

end Sys2Proof.Machine
end

