-- ==== Sys2Proof/Machine/Mixer.lean ====
section
/-!
DEFINITION. The mixer and the commands TICK and FRAMES (43_mixer.md).
-/

namespace Sys2Proof.Machine

/-- The carrier of a stream, cos(theta - s * 90 degrees) from the tables of oscillator s + 1
(43_mixer.md R170). -/
def carrier (s : State) : Stream → F32
  | 0 => oscCos (s.oscillator 1)
  | 1 => oscSin (s.oscillator 2)
  | 2 => fneg (oscCos (s.oscillator 3))
  | 3 => fneg (oscSin (s.oscillator 4))

/-- What stepping the streams gives: the samples of the active streams in increasing stream number, or
the stream that underran. -/
inductive Pass where
  | done (samples : List (Stream × F32)) (s : State)
  | underrun (k : Stream) (s : State)

/-- A sample is put before the samples of the later streams. -/
def Pass.withSample (k : Stream) (y : F32) : Pass → Pass
  | .done samples s => .done ((k, y) :: samples) s
  | .underrun j s => .underrun j s

/-- Stream sampling over a list of streams in order; a stream that is not active is skipped, and the
pass stops at the first underrun (43_mixer.md R171). -/
def stepStreams : List Stream → State → Pass
  | [], s => .done [] s
  | k :: rest, s =>
    if s.enabled k then
      match modStep s k with
      | .underrun s' => .underrun k s'
      | .sample y s' => (stepStreams rest s').withSample k y
    else stepStreams rest s

/-- The streams in increasing number (43_mixer.md R171). -/
def allStreams : List Stream := [0, 1, 2, 3]

/-- The pilot term (43_mixer.md R172). -/
def pilotTerm (s : State) : F32 :=
  fmul (Config.nanResult s.freeIndex .pilot) (oscCos (s.oscillator 0)) s.pilotVol

/-- One stream term added to the sum, ((carrier * sample) * level) (43_mixer.md R173). -/
def addStreamTerm (s : State) (acc : F32) (ky : Stream × F32) : F32 :=
  let free := fun site => Config.nanResult s.freeIndex site
  let modulated := fmul (free (.carrier ky.1)) (carrier s ky.1) ky.2
  fadd (free (.sum ky.1)) acc (fmul (free (.level ky.1)) modulated (s.level ky.1))

/-- The mix sum before the clip (43_mixer.md R172, R173). -/
def mixSum (s : State) (samples : List (Stream × F32)) : F32 :=
  samples.foldl (addStreamTerm s) (pilotTerm s)

/-- `Clip(x)` (43_mixer.md R174). -/
def clip (x : F32) : F32 :=
  if F32.lt F32.one x then F32.one else if F32.lt x F32.negOne then F32.negOne else x

/-- The output value: the clipped sum times the output level (43_mixer.md R175). A zero keeps the sign of
the products as R176 says, also after a reset, where 70_reset_and_hazards.md R252 writes +0.0 (DESIGN
CHOICE, log 20). -/
def outputValue (s : State) (samples : List (Stream × F32)) : F32 :=
  fmul (Config.nanResult s.freeIndex .output) (clip (mixSum s samples)) s.outVol

/-- A tick whose streams all gave their samples: mix at the phases of the tick start, advance the
oscillators, emit the frame (43_mixer.md R176). The model's counter of free NaN choices goes on. -/
def finishTick (s : State) (samples : List (Stream × F32)) : State :=
  let y := outputValue s samples
  { s.advanceOscs with freeIndex := s.freeIndex + 1 }.emit (.frame y y)

/-- A tick in which stream `k` underran: only the error is recorded, in the state `s` before the tick;
on the ports the requests made stand (60_exceptions.md R226; log 7). -/
def underrunTick (s : State) (k : Stream) (ports : State) : State :=
  { s with groupIn := ports.groupIn, out := ports.out }.raise .underrun (BitVec.ofNat 8 k.val)

/-- The body of TICK (43_mixer.md R176). -/
def tickBody (s : State) : State :=
  match stepStreams allStreams s with
  | .done samples s' => finishTick s' samples
  | .underrun k s' => underrunTick s k s'

/-- At most `n` ticks, each atomic, none once HALTED is set (43_mixer.md R177). -/
def tickTimes : Nat → State → State
  | 0, s => s
  | n + 1, s => if s.halted then s else tickTimes n (tickBody s)

/-- TICK: ignored while HALTED (43_mixer.md R176, 60_exceptions.md R224). -/
def execTick (s : State) : Host.Outcome State Fault Refusal :=
  .next (if s.halted then s else tickBody s)

/-- FRAMES: COUNT ticks, stopping at a halt (43_mixer.md R177). -/
def execFrames (count : BitVec 32) (s : State) : Host.Outcome State Fault Refusal :=
  .next (tickTimes count.toNat s)

end Sys2Proof.Machine
end

