-- ==== Sys2Proof/Machine/Control.lean ====
section
/-!
DEFINITION. The control commands NOP, RESET, WRREG and RDREG, and what an illegal word does
(44_control.md; 60_exceptions.md R220).
-/

namespace Sys2Proof.Machine

/-! ### Reading -/

/-- MOD_STATE[s]: sample_count in bits 31:16, zeros in 15:9, prev_out in bit 8, cur_out in bit 7,
bit_pos in bits 6:0 (10_state.md R31). A counter out of its range, which no run reaches, shows its low bits
(log 10). -/
def modStateWord (m : ModCtx) : Word :=
  BitVec.ofNat 16 m.sampleCount ++ 0#7 ++ BitVec.ofBool m.prevOut ++ BitVec.ofBool m.curOut ++
    BitVec.ofNat 7 m.bitPos

/-- MOD_PTR[s]: w in bits 31:16, r in bits 15:0 (10_state.md R32), of a cursor out of its range as in
MOD_STATE (log 10). -/
def modPtrWord (m : ModCtx) : Word := BitVec.ofNat 16 m.w ++ BitVec.ofNat 16 m.r

/-- A natural read 'as a u32' (10_state.md R29, R30). The spec does not say what is read of a value that
does not fit; it is then the value `wide` that the caller leaves free (DESIGN CHOICE, log 23). -/
def readNat (wide : Nat → Word) (n : Nat) : Word :=
  if n < 2 ^ 32 then BitVec.ofNat 32 n else wide n

/-- The value a RDREG returns (44_control.md R195). The spec does not say what OSC_LEN and OSC_PHASE
read where the value does not fit 32 bits: a free value (DESIGN CHOICE, log 23). -/
def readReg (s : State) : Reg → Word
  | .status => s.status.word
  | .streamEn => s.streamEn &&& streamMask s.params
  | .outVol => s.outVol
  | .pilotVol => s.pilotVol
  | .streamVol k => s.level k
  | .oscFreq k => (s.oscillator k).f
  | .oscLen k => readNat (Config.wideOscLen k) (s.oscillator k).n
  | .oscPhase k => readNat (Config.wideOscPhase k) (s.oscillator k).phase
  | .modState k => modStateWord (s.mod k)
  | .modPtr k => modPtrWord (s.mod k)

/-! ### Writing -/

/-- `WriteStreamEn(DATA)`: the context of every implemented stream whose bit goes from 0 to 1 is reset;
bits that do not exist are ignored (44_control.md R196). -/
def writeStreamEn (s : State) (data : Word) : State :=
  let new := data &&& streamMask s.params
  let context := fun k : Stream =>
    if new.getLsbD k.val && !s.enabled k then freshCtx s.params else s.mod k
  { s with mods := perStream context, streamEn := new }

/-- `WriteLevel`: a NaN is refused with E_OPERAND, any other value is clamped and stored by `store`
(44_control.md R197, R198). -/
def writeLevel (s : State) (regno : BitVec 8) (data : Word) (max : F32) (store : F32 → State) :
    State :=
  match levelOperand data max with
  | none => s.raise .operand regno
  | some v => store v

/-- The effect of a WRREG while the block is not halted (44_control.md R193, R196 to R200). -/
def writeReg (s : State) (regno : BitVec 8) (data : Word) : State :=
  match regOf regno with
  | some .streamEn => writeStreamEn s data
  | some .outVol => writeLevel s regno data F32.one fun v => { s with outVol := v }
  | some .pilotVol => writeLevel s regno data volMax fun v => { s with pilotVol := v }
  | some (.streamVol k) => writeLevel s regno data volMax fun v => s.setStreamVol k v
  | some (.oscFreq k) => s.oscBuild k data
  | some .status => s.raise .operand regno
  | some (.oscLen _) => s.raise .operand regno
  | some (.oscPhase _) => s.raise .operand regno
  | some (.modState _) => s.raise .operand regno
  | some (.modPtr _) => s.raise .operand regno
  | none => s.raise .operand regno

/-! ### Commands -/

/-- NOP (44_control.md R190). -/
def execNop (s : State) : Host.Outcome State Fault Refusal := .next s

/-- RESET, accepted while HALTED too (44_control.md R191). -/
def execReset (s : State) : Host.Outcome State Fault Refusal := .next s.blockReset

/-- WRREG: ignored while HALTED (44_control.md R193, 60_exceptions.md R224). -/
def execWrreg (regno : BitVec 8) (data : Word) (s : State) : Host.Outcome State Fault Refusal :=
  .next (if s.halted then s else writeReg s regno data)

/-- RDREG: an unimplemented number records E_OPERAND and responds 0 (44_control.md R194). -/
def execRdreg (regno : BitVec 8) (s : State) : Host.Outcome State Fault Refusal :=
  .next (match regOf regno with
    | some r => s.emit (.regResp (readReg s r))
    | none => (s.raise .operand regno).emit (.regResp 0#32))

/-- An illegal word records E_ILLEGAL with its OP byte and does nothing else, halted or not
(60_exceptions.md R220). -/
def execIllegal (why : Illegal) (s : State) : State := s.raise .illegal why.op

/-- The reset input asserted while a command word is pending: a FRAMES has committed at most `ticks` of
its ticks, any other command and any illegal word nothing; then BlockReset
(70_reset_and_hazards.md R251, 20_memory.md R66; log 6). -/
def resetDuring (w : Cmd) (ticks : Nat) (s : State) : State :=
  match decode w with
  | .legal (.frames count) => (tickTimes (min ticks count.toNat) s).blockReset
  | _ => s.blockReset

end Sys2Proof.Machine
end

