-- ==== Sys2Proof/Machine/Dispatch.lean ====
section
/-!
DEFINITION. One arm per command of Sys2Proof.Instr (30_encoding.md R83).
-/

namespace Sys2Proof.Machine

def exec (i : Instr) (s : State) : Host.Outcome State Fault Refusal :=
  match i with
  | .nop => Sys2Proof.Machine.execNop s
  | .enc a b c d => Sys2Proof.Machine.execEnc a b c d s
  | .tick => Sys2Proof.Machine.execTick s
  | .frames count => Sys2Proof.Machine.execFrames count s
  | .wrreg regno data => Sys2Proof.Machine.execWrreg regno data s
  | .rdreg regno => Sys2Proof.Machine.execRdreg regno s
  | .reset => Sys2Proof.Machine.execReset s

end Sys2Proof.Machine
end

