-- ==== Sys2Proof/Machine/Step.lean ====
section
/-!
DEFINITION. One step of the machine: the block takes the next thing the host does on the command port or
the reset input, and finishes it (10_state.md R45, 20_memory.md R66, R69). With nothing pending it is
idle and keeps its state (60_exceptions.md R238). There is no program counter (10_state.md R21).
-/

namespace Sys2Proof.Machine

/-- A command word is decoded first, whatever HALTED holds; then it acts (60_exceptions.md R228). -/
def runWord (w : Cmd) (s : State) : Host.Outcome State Fault Refusal :=
  match decode w with
  | .legal i => exec i s
  | .illegal why => .next (execIllegal why s)

/-- One step. -/
def step (s : State) : Host.Outcome State Fault Refusal :=
  match s.hostIn with
  | [] => .next s
  | .command w :: rest => runWord w { s with hostIn := rest }
  | .assertReset :: rest => .next { s with hostIn := rest }.blockReset
  | .assertResetDuring w ticks :: rest => .next (resetDuring w ticks { s with hostIn := rest })

/-- The state in which the host sends, as its next command, the word with the given number: bit 0 is the
least significant bit of cmd, the bits above `nbits` are 0 (30_encoding.md R80; log 5). -/
def State.withFetchWord (s : State) (nbits w : Nat) : State :=
  { s with hostIn := .command (BitVec.ofNat 72 (w % 2 ^ nbits)) :: s.hostIn }

end Sys2Proof.Machine
end

