-- ==== Sys2Proof/Safety.lean ====
section
/-!
DEFINITION. What holds in a safe run: the invariants the spec states of its state (10_state.md R24 to
R27, R31, R35, R38, R41, 43_mixer.md R180), in the terms the statements use. They are predicates on one
state; that reset has them and every step keeps them are statements.
-/

namespace Sys2Proof.Machine

/-- A level register holds a value in [+0.0, max] (10_state.md R25 to R27). -/
def levelOk (max v : F32) : Prop := F32.sign v = false ∧ F32.le v max = true

/-- The ranges of a modulator context (10_state.md R35, R38), and the canonical form of its
accumulator. -/
structure ModCtx.InRange (p : Params) (m : ModCtx) : Prop where
  r_lt : m.r < p.accLen
  w_lt : m.w < p.accLen
  bitPos_le : m.bitPos ≤ 104
  sampleCount_pos : 1 ≤ m.sampleCount
  sampleCount_le : m.sampleCount ≤ p.spb
  acc_wf : accWf p.accLen m.acc = true

/-- An oscillator is what OscBuild made of its frequency but for its phase, which is below the table
length (10_state.md R40, R41), and every table entry is finite, in [-1, 1] (43_mixer.md R180). -/
structure Osc.Built (p : Params) (o : Osc) : Prop where
  tables : o = { builtOsc p o.f with phase := o.phase }
  fits : o.n ≤ p.oscCap
  phase_lt : o.phase < o.n
  sin_unit : ∀ x ∈ o.sin, F32.inUnit x = true
  cos_unit : ∀ x ∈ o.cos, F32.inUnit x = true

/-- The flag that a cause sets (60_exceptions.md R221). -/
def Status.flag (st : Status) : Cause → Bool
  | .illegal => st.eIllegal
  | .operand => st.eOperand
  | .oscAlloc => st.eOscAlloc
  | .underrun => st.eUnderrun

/-- STATUS records errors as 60_exceptions.md R222 says: HALTED exactly with a fatal cause, and a first
cause exactly with a flag, the flag of the first cause among them. -/
structure Status.Consistent (st : Status) : Prop where
  halted_iff : st.halted = (st.eOscAlloc || st.eUnderrun)
  none_iff : st.firstCause = 0#4 ↔ ∀ c, st.flag c = false
  first_flag : st.firstCause ≠ 0#4 → ∃ c : Cause, st.firstCause = c.code ∧ st.flag c = true
  info_zero : st.firstCause = 0#4 → st.firstInfo = 0#8

/-- The invariant of the block. -/
structure State.Inv (s : State) : Prop where
  status_ok : s.status.Consistent
  streamEn_ok : s.streamEn &&& streamMask s.params = s.streamEn
  outVol_ok : levelOk F32.one s.outVol
  pilotVol_ok : levelOk volMax s.pilotVol
  streamVol_ok : ∀ k : Stream, levelOk volMax (s.level k)
  osc_ok : ∀ k : OscId, (s.oscillator k).Built s.params
  mods_ok : ∀ k : Stream, (s.mod k).InRange s.params
  spare_ok : ∀ k : Stream, s.params.nstreams ≤ k.val → s.mod k = freshCtx s.params

/-- The counters of a context after `t` calls of ModStep since its last reset (10_state.md R38); the
bit cursor follows the boundaries, 104 to a group (41_modulator.md R131, R133, R134). -/
structure ModCtx.AtTime (p : Params) (m : ModCtx) (t : Nat) : Prop where
  r_eq : m.r = t % p.accLen
  w_eq : m.w = if t = 0 then 0 else ((t - 1) / p.spb + 1) * p.spb % p.accLen
  sampleCount_eq : m.sampleCount = if t = 0 then p.spb else (t - 1) % p.spb + 1
  bitPos_eq : m.bitPos = if t = 0 then 104 else (t - 1) / p.spb % 104 + 1

/-- A step that ends in a next state: a run is safe when every step does. The block has no other
outcome, since errors are recorded in STATUS (60_exceptions.md R222, R231). -/
def Goes (o : Host.Outcome State Fault Refusal) : Prop := ∃ t, o = .next t

end Sys2Proof.Machine
end

