-- ==== Sys2Proof/Certificates/Slice0/Obligations.lean ====
section
/-!
DEFINITION. The statements for the provers. Each says which rule of spec/ it formalises; the parameters
are those of the state or of an arbitrary admitted configuration, so each is about every admitted value.
Values that the spec leaves open (Config.nanResult) appear as such, and no statement rests on what they
are. Where a clause says what a choice of the model gives, the docstring names the log entry.
-/

open Sys2Proof Sys2Proof.Machine

namespace Sys2Proof.Claims

/-! ### Terms the statements use -/

/-- q(x) g(x) over GF(2), with g(x) = x^10 + x^8 + x^7 + x^5 + x^4 + x^3 + 1 = 0x5B9
(40_checkword.md R111). -/
def timesGenerator (q : BitVec 16) : BitVec 26 :=
  (List.range 16).foldl (fun acc i => if q.getLsbD i then acc ^^^ (0x5B9#26 <<< i) else acc) 0#26

/-- Crc10(2^i) for i = 0..15, the table of 40_checkword.md R117. -/
def crcBasis : List (BitVec 10) :=
  [0x1B9#10, 0x372#10, 0x35D#10, 0x303#10, 0x3BF#10, 0x2C7#10, 0x037#10, 0x06E#10,
    0x0DC#10, 0x1B8#10, 0x370#10, 0x359#10, 0x30B#10, 0x3AF#10, 0x2E7#10, 0x077#10]

/-- Stream k's next call of ModStep asks for a group (41_modulator.md R131, R133). -/
def wantsGroup (s : State) (k : Stream) : Bool :=
  (s.mod k).sampleCount == s.params.spb && (s.mod k).bitPos == 104

/-- No stream is active. -/
def noActiveStream (s : State) : Prop := ∀ k : Stream, s.enabled k = false

/-- A stream's bit k since its last reset, d_k of 41_modulator.md R140, where q g is the g-th group it
was supplied with. -/
def bitSent (p : Params) (k : Stream) (q : Nat → Group) (j : Nat) : Bool :=
  (encodeBits p k (q (j / 104))).getMsbD (j % 104)

/-- e_k of 41_modulator.md R140, with e_(-1) = 0. -/
def polarity (p : Params) (k : Stream) (q : Nat → Group) : Nat → Bool
  | 0 => bitSent p k q 0
  | j + 1 => polarity p k q j ^^ bitSent p k q (j + 1)

/-- y_t of 41_modulator.md R140: the contributions of every bit j with 0 <= t - j P_SPB < P_FS, added
to +0.0 in increasing j. The tick t = 0 has the number `n` among the free NaN choices. -/
def closedForm (p : Params) (k : Stream) (q : Nat → Group) (n t : Nat) : F32 :=
  (List.range (t / p.spb + 1)).foldl
    (fun y j =>
      match p.shape[t - j * p.spb]? with
      | some c =>
        fadd (Config.nanResult (n + j * p.spb) (.overlapAdd k (t - j * p.spb))) y
          (if polarity p k q j then fneg c else c)
      | none => y)
    F32.zero

end Sys2Proof.Claims

open Sys2Proof.Claims

/-! ### The step and the command word -/

/-- A step runs the decoded command: the block takes the next word of the command port, and does what
exec says of the command it decodes to (10_state.md R45, 20_memory.md R66). -/
def Obligations.StepRunsTheDecodedCommand : Prop :=
  ∀ (s : State) (w : Cmd) (rest : List HostInput) (i : Instr),
    s.hostIn = .command w :: rest → decode w = .legal i →
      step s = exec i { s with hostIn := rest }

/-- With nothing pending the block is idle and keeps its state (60_exceptions.md R238). -/
def Obligations.IdleBlockKeepsItsState : Prop :=
  ∀ s : State, s.hostIn = [] → step s = .next s

/-- No step ends in a fault or a refusal: every error is recorded in STATUS and the block goes on
(60_exceptions.md R222, R231). -/
def Obligations.EveryStepGoesOn : Prop :=
  ∀ s : State, Goes (step s)

/-- 30_encoding.md R85: a word is a command exactly when its OP is one of the seven and the reserved
bits of its format are zero. -/
def Obligations.LegalWordsAreThoseWithReservedBitsZero : Prop :=
  ∀ w : Cmd, (∃ i, decode w = .legal i) ↔
    ((w.op = 0x00#8 ∨ w.op = 0x02#8 ∨ w.op = 0x06#8) ∧ w.extractLsb' 0 64 = 0#64) ∨
      w.op = 0x01#8 ∨
      (w.op = 0x03#8 ∧ w.extractLsb' 32 32 = 0#32) ∨
      (w.op = 0x04#8 ∧ w.extractLsb' 32 24 = 0#24) ∨
      (w.op = 0x05#8 ∧ w.extractLsb' 0 56 = 0#56)

/-- 60_exceptions.md R220: an illegal word (OP 0x07 or above, or a bit of its reserved mask set) records
E_ILLEGAL with its OP byte and changes nothing else, halted or not. -/
def Obligations.IllegalWordOnlyRecordsTheError : Prop :=
  ∀ (s : State) (w : Cmd) (rest : List HostInput),
    s.hostIn = .command w :: rest →
    (0x07 ≤ w.op.toNat ∨
      ∃ mask, reservedMask w.op = some mask ∧ w.payload &&& mask ≠ 0#64) →
      step s = .next { s with hostIn := rest, status := s.status.raise .illegal w.op }

/-- Decode and encode agree on every command, with every operand at every value. -/
def Obligations.DecodingAnEncodedCommandGivesItBack : Prop :=
  ∀ i : Instr, decode (encode i) = .legal i

/-- A legal word is the encoding of what it decodes to: no two words are the same command. -/
def Obligations.EncodingADecodedWordGivesItBack : Prop :=
  ∀ (w : Cmd) (i : Instr), decode w = .legal i → encode i = w

/-- 30_encoding.md R89, the worked encodings, both ways. -/
def Obligations.WorkedEncodingsDecode : Prop :=
  decode 0x011000040820204D50#72 = .legal (.enc 0x1000#16 0x0408#16 0x2020#16 0x4D50#16) ∧
    decode 0x030000000000000003#72 = .legal (.frames 3#32) ∧
    decode 0x04030000003E000000#72 = .legal (.wrreg 0x03#8 0x3E000000#32) ∧
    regOf 0x03#8 = some .pilotVol ∧
    decode 0x051100000000000000#72 = .legal (.rdreg 0x11#8) ∧
    regOf 0x11#8 = some (.oscLen 1) ∧
    decode 0x060000000000000000#72 = .legal .reset ∧
    encode (.enc 0x1000#16 0x0408#16 0x2020#16 0x4D50#16) = 0x011000040820204D50#72 ∧
    encode (.wrreg 0x03#8 0x3E000000#32) = 0x04030000003E000000#72

/-! ### The checkword encoder -/

/-- 40_checkword.md R117: Crc10 is linear over GF(2), has the tabled values on the powers of two, and so
is the XOR of the tabled values of the bits that are set. -/
def Obligations.CrcIsLinearWithTheTabledBasis : Prop :=
  (∀ a b : BitVec 16, crc10 (a ^^^ b) = crc10 a ^^^ crc10 b) ∧
    crc10 0#16 = 0#10 ∧
    (∀ (i : Nat) (h : i < crcBasis.length), crc10 (1#16 <<< i) = crcBasis[i]) ∧
    ∀ m : BitVec 16, crc10 m =
      (List.range 16).foldl
        (fun x i => if m.getLsbD i then x ^^^ crcBasis.getD i 0#10 else x) 0#10

/-- 40_checkword.md R112: Crc10(m) is the remainder of x^10 m(x) divided by g(x) over GF(2): x^10 m(x)
is a multiple of g(x) plus Crc10(m), which has degree below 10. -/
def Obligations.CrcIsThePolynomialRemainder : Prop :=
  ∀ m : BitVec 16, ∃ q : BitVec 16,
    m ++ 0#10 = timesGenerator q ^^^ (0#16 ++ crc10 m)

/-- 30_encoding.md R94 in the positions of 40_checkword.md R113: the offset words of stream 0. -/
def Obligations.OffsetWordsOfStreamZero : Prop :=
  ∀ (p : Params) (v : Bool),
    offsetWord p 0 0 v = 0x0FC#10 ∧ offsetWord p 0 1 v = 0x198#10 ∧
      offsetWord p 0 2 false = 0x168#10 ∧ offsetWord p 0 2 true = 0x350#10 ∧
      offsetWord p 0 3 v = 0x1B4#10

/-- 40_checkword.md R114: streams 1..3 take P_OFFSET(s, k, v) with v the version bit of the group, and
the checkword computation is the same. -/
def Obligations.OtherStreamsTakeTheParameterOffsets : Prop :=
  ∀ (p : Params) (s : Fin 3) (g : Group) (k : Position),
    codeword p s.succ g k =
      codedBlock (g.block k)
        (if g.b.getLsbD 11 then p.offset[s][k].versionB else p.offset[s][k].versionA)

/-- 40_checkword.md R110: bit j of the coded bitstream is bit 25 - (j mod 26) of coded block
floor(j / 26), for every stream and group; here j = 26 k + i. -/
def Obligations.CodedBitstreamIndexing : Prop :=
  ∀ (p : Params) (s : Stream) (g : Group) (k : Position) (i : Nat), i < 26 →
    (encodeBits p s g).getMsbD (26 * k.val + i) =
      (g.block k ++ (crc10 (g.block k) ^^^ offsetWord p s k (g.b.getLsbD 11))).getLsbD (25 - i)

/-- 40_checkword.md R116, 30_encoding.md R93: ENC responds the four coded blocks by the stream-0 offset
rule, in every state, halted or not, and writes nothing else. -/
def Obligations.EncRespondsTheCodedGroup : Prop :=
  ∀ (a b c d : BitVec 16) (s : State),
    exec (.enc a b c d) s =
      .next { s with
        out := s.out ++
          [.encResp
            ((a ++ (crc10 a ^^^ 0x0FC#10)) ++ (b ++ (crc10 b ^^^ 0x198#10)) ++
              (c ++ (crc10 c ^^^ if b.getLsbD 11 then 0x350#10 else 0x168#10)) ++
              (d ++ (crc10 d ^^^ 0x1B4#10)))] }

/-- 40_checkword.md R118, on stream 0: blocks 0, 1 and 3 are coded the same in a version-A and a
version-B group but for the data bits of block 1, and the coded blocks at position 2 of the two differ
by C XOR C' = 0x238. -/
def Obligations.VersionBitAffectsOnlyPositionTwo : Prop :=
  ∀ (p : Params) (g h : Group), h.a = g.a → h.c = g.c → h.d = g.d →
    codeword p 0 h 0 = codeword p 0 g 0 ∧
      codeword p 0 h 3 = codeword p 0 g 3 ∧
      codeword p 0 g 1 = g.b ++ (crc10 g.b ^^^ 0x198#10) ∧
      (g.b.getLsbD 11 = h.b.getLsbD 11 → codeword p 0 h 2 = codeword p 0 g 2) ∧
      (g.b.getLsbD 11 ≠ h.b.getLsbD 11 → codeword p 0 h 2 ^^^ codeword p 0 g 2 = 0x238#26)

/-! ### Errors -/

/-- 60_exceptions.md R222: an error sets its own flag and no other, records the cause code and the
information byte if it is the first, and sets HALTED exactly for the codes 3 and 4. -/
def Obligations.RaisingAnErrorUpdatesStatus : Prop :=
  ∀ (st : Status) (c : Cause) (info : BitVec 8),
    let t := st.raise c info
    (∀ d, t.flag d = (st.flag d || decide (d = c))) ∧
      (st.firstCause = 0#4 → t.firstCause = c.code ∧ t.firstInfo = info) ∧
      (st.firstCause ≠ 0#4 → t.firstCause = st.firstCause ∧ t.firstInfo = st.firstInfo) ∧
      (t.halted = true ↔ st.halted = true ∨ c.code = 3#4 ∨ c.code = 4#4)

/-- 10_state.md R23: RDREG STATUS responds the layout of STATUS: HALTED in bit 0, the four flags in bits
1 to 4, FIRST_CAUSE from bit 8, FIRST_INFO from bit 16, zeros elsewhere; and changes nothing. -/
def Obligations.StatusReadsItsLayout : Prop :=
  ∀ s : State, ∃ v : Word,
    exec (.rdreg 0x00#8) s = .next { s with out := s.out ++ [.regResp v] } ∧
      v.toNat = s.status.halted.toNat + 2 * s.status.eIllegal.toNat +
        4 * s.status.eOperand.toNat + 8 * s.status.eOscAlloc.toNat +
        16 * s.status.eUnderrun.toNat + 256 * s.status.firstCause.toNat +
        65536 * s.status.firstInfo.toNat

/-- 60_exceptions.md R224 in part: while HALTED, TICK, FRAMES and WRREG have no effect at all. -/
def Obligations.HaltedBlockIgnoresTickFramesAndWrreg : Prop :=
  ∀ (s : State) (count : BitVec 32) (regno : BitVec 8) (data : Word), s.halted = true →
    exec .tick s = .next s ∧ exec (.frames count) s = .next s ∧
      exec (.wrreg regno data) s = .next s

/-- 10_state.md R23, 60_exceptions.md R224: STATUS is sticky. No command but RESET clears a flag or
HALTED, or changes a recorded first cause. -/
def Obligations.OnlyResetClearsStatus : Prop :=
  ∀ (i : Instr) (s t : State), i ≠ .reset → exec i s = .next t →
    (∀ c, s.status.flag c = true → t.status.flag c = true) ∧
      (s.halted = true → t.halted = true) ∧
      (s.status.firstCause ≠ 0#4 →
        t.status.firstCause = s.status.firstCause ∧ t.status.firstInfo = s.status.firstInfo)

/-! ### Control commands -/

/-- 44_control.md R190: NOP leaves every state unchanged, halted or not. -/
def Obligations.NopChangesNothing : Prop :=
  ∀ s : State, exec .nop s = .next s

/-- 70_reset_and_hazards.md R250, 10_state.md R47: RESET gives every piece of state its reset value,
halted or not; what was emitted stays, the parameters (SHAPE among them) do not change, and no group is
requested. That what the host does next and its pending group answers (hostIn, groupIn) stay is the
model's choice (log 18, and the last lines of log 5 and log 7), not a rule of the spec. -/
def Obligations.ResetGivesEveryFieldItsResetValue : Prop :=
  ∀ s : State, ∃ t, exec .reset s = .next t ∧
    t.status.word = 0#32 ∧ t.streamEn = 0#32 ∧
    t.outVol = 0x3F800000#32 ∧ t.pilotVol = 0x00000000#32 ∧
    (∀ k : Stream, t.level k = 0x00000000#32) ∧
    (∀ k : Stream, (t.mod k).sampleCount = s.params.spb ∧ (t.mod k).bitPos = 104 ∧
      (t.mod k).curOut = false ∧ (t.mod k).prevOut = false ∧ (t.mod k).w = 0 ∧ (t.mod k).r = 0 ∧
      (∀ a, accRead (t.mod k).acc a = 0x00000000#32) ∧ (t.mod k).bits = 0#104) ∧
    (∀ k : OscId, (t.oscillator k).f = oscDefault k ∧ (t.oscillator k).phase = 0 ∧
      (t.oscillator k).n = s.params.sr / Nat.gcd s.params.sr (oscDefault k).toNat ∧
      (t.oscillator k).sin.length = (t.oscillator k).n ∧
      (t.oscillator k).cos.length = (t.oscillator k).n ∧
      ∀ i, i < (t.oscillator k).n →
        (t.oscillator k).sin[i]? = some (s.params.pTrig (oscDefault k).toNat i).1 ∧
          (t.oscillator k).cos[i]? = some (s.params.pTrig (oscDefault k).toNat i).2) ∧
    t.params = s.params ∧ t.hostIn = s.hostIn ∧ t.groupIn = s.groupIn ∧ t.out = s.out

/-- 70_reset_and_hazards.md R251: the power-on state is the state after BlockReset: a RESET there
changes nothing, in every admitted configuration. -/
def Obligations.PowerOnIsTheResetState : Prop :=
  ∀ p : Params, exec .reset (State.resetWith p) = .next (State.resetWith p)

/-- 70_reset_and_hazards.md R251: the reset input puts the block into the reset state whatever HALTED
holds and whatever command is pending. The rest is the model's choice and no rule of the spec: that what
the host does next, its pending group answers and the counter of free values (hostIn, groupIn, freeIndex)
are kept by a reset, in both clauses (log 18, and the last lines of log 5 and log 7; log 3 for the
counter); and that, where a command is pending, a FRAMES is cut between two of its ticks and any other
command has not begun, so that the output, the group answers used and the counter may have moved on
(log 6). -/
def Obligations.ResetInputActsInEveryState : Prop :=
  (∀ (s : State) (rest : List HostInput), s.hostIn = .assertReset :: rest →
    step s = .next { State.resetWith s.params with
      hostIn := rest, groupIn := s.groupIn, out := s.out, freeIndex := s.freeIndex }) ∧
  ∀ (s : State) (w : Cmd) (n : Nat) (rest : List HostInput),
    s.hostIn = .assertResetDuring w n :: rest →
    ∃ gi more fi, step s = .next { State.resetWith s.params with
        hostIn := rest, groupIn := gi, out := s.out ++ more, freeIndex := fi } ∧
      ((∀ count, decode w ≠ .legal (.frames count)) →
        gi = s.groupIn ∧ more = [] ∧ fi = s.freeIndex)

/-- 44_control.md R195 with the map of 10_state.md R20: what RDREG responds for each register with a
plain value, halted or not, and that nothing else changes. Where N or the phase does not fit 32 bits the
spec does not say what OSC_LEN and OSC_PHASE read: one word is responded, and it is free (log 23). -/
def Obligations.RdregRespondsTheRegister : Prop :=
  ∀ s : State,
    (∃ v : Word, exec (.rdreg 0x01#8) s = .next { s with out := s.out ++ [.regResp v] } ∧
      ∀ i, v.getLsbD i = (decide (i < s.params.nstreams) && s.streamEn.getLsbD i)) ∧
    exec (.rdreg 0x02#8) s = .next { s with out := s.out ++ [.regResp s.outVol] } ∧
    exec (.rdreg 0x03#8) s = .next { s with out := s.out ++ [.regResp s.pilotVol] } ∧
    (∀ k : Stream, exec (.rdreg (BitVec.ofNat 8 (0x04 + k.val))) s =
      .next { s with out := s.out ++ [.regResp (s.level k)] }) ∧
    (∀ k : OscId, exec (.rdreg (BitVec.ofNat 8 (0x08 + k.val))) s =
      .next { s with out := s.out ++ [.regResp (s.oscillator k).f] }) ∧
    (∀ k : OscId, ∃ v : Word, exec (.rdreg (BitVec.ofNat 8 (0x10 + k.val))) s =
        .next { s with out := s.out ++ [.regResp v] } ∧
      ((s.oscillator k).n < 2 ^ 32 → v.toNat = (s.oscillator k).n)) ∧
    ∀ k : OscId, ∃ v : Word, exec (.rdreg (BitVec.ofNat 8 (0x18 + k.val))) s =
        .next { s with out := s.out ++ [.regResp v] } ∧
      ((s.oscillator k).phase < 2 ^ 32 → v.toNat = (s.oscillator k).phase)

/-- 10_state.md R31, R32: what RDREG of MOD_STATE[s] and MOD_PTR[s] responds, for a context in its
ranges. -/
def Obligations.ModulatorCountersReadTheirLayout : Prop :=
  ∀ (s : State) (k : Stream), (s.mod k).InRange s.params →
    ∃ v v' : Word,
      exec (.rdreg (BitVec.ofNat 8 (0x20 + k.val))) s =
        .next { s with out := s.out ++ [.regResp v] } ∧
      v.toNat = (s.mod k).bitPos + 128 * (s.mod k).curOut.toNat + 256 * (s.mod k).prevOut.toNat +
        65536 * (s.mod k).sampleCount ∧
      exec (.rdreg (BitVec.ofNat 8 (0x24 + k.val))) s =
        .next { s with out := s.out ++ [.regResp v'] } ∧
      v'.toNat = (s.mod k).r + 65536 * (s.mod k).w

/-- 44_control.md R194, 10_state.md R33: RDREG of an unimplemented number responds 0 and records
E_OPERAND with the number. -/
def Obligations.RdregOfAnUnimplementedNumber : Prop :=
  ∀ (s : State) (n : BitVec 8),
    (0x0D ≤ n.toNat ∧ n.toNat ≤ 0x0F) ∨ (0x15 ≤ n.toNat ∧ n.toNat ≤ 0x17) ∨
      (0x1D ≤ n.toNat ∧ n.toNat ≤ 0x1F) ∨ 0x28 ≤ n.toNat →
    exec (.rdreg n) s =
      .next { s with
        status := s.status.raise .operand n
        out := s.out ++ [.regResp 0#32] }

/-- 44_control.md R200: WRREG to a read-only register (0x00, 0x10..0x14, 0x18..0x1C, 0x20..0x27) or an
unimplemented number, that is to 0x00 or any number from 0x0D on, writes nothing and records E_OPERAND
with the number. -/
def Obligations.WrregOfAReadOnlyOrUnimplementedNumber : Prop :=
  ∀ (s : State) (n : BitVec 8) (data : Word), s.halted = false →
    n = 0x00#8 ∨ 0x0D ≤ n.toNat →
      exec (.wrreg n data) s = .next { s with status := s.status.raise .operand n }

/-- 44_control.md R197, R198: a level write. A NaN is refused with E_OPERAND and the register number;
above the ceiling (1.0 for OUT_VOL, P_VOLMAX for the others) the ceiling is stored, at or below zero
+0.0, any other value as it is; and nothing else changes. -/
def Obligations.WrregOfALevelClamps : Prop :=
  ∀ (s : State) (data : Word), s.halted = false →
    let stored := fun max : F32 =>
      if F32.lt max data then max
      else if F32.le data 0x00000000#32 then 0x00000000#32 else data
    (F32.isNaN data = true →
      (∀ n ∈ [0x02#8, 0x03#8, 0x04#8, 0x05#8, 0x06#8, 0x07#8],
        exec (.wrreg n data) s = .next { s with status := s.status.raise .operand n })) ∧
    (F32.isNaN data = false →
      exec (.wrreg 0x02#8 data) s = .next { s with outVol := stored 0x3F800000#32 } ∧
      exec (.wrreg 0x03#8 data) s = .next { s with pilotVol := stored 0x3E19999A#32 } ∧
      ∀ k : Stream, exec (.wrreg (BitVec.ofNat 8 (0x04 + k.val)) data) s =
        .next (s.setStreamVol k (stored 0x3E19999A#32)))

/-- 44_control.md R196: a write of STREAM_EN. The bits below P_NSTREAMS take the data's, the others stay
0; the context of a stream whose bit goes from 0 to 1 is reset, so that its next step asks for a group;
every other context stays; nothing else changes. -/
def Obligations.WrregOfStreamEnable : Prop :=
  ∀ (s : State) (data : Word), s.halted = false →
    let on := fun k : Stream =>
      decide (k.val < s.params.nstreams) && data.getLsbD k.val && !s.enabled k
    ∃ t, exec (.wrreg 0x01#8 data) s = .next t ∧
      t = { s with streamEn := t.streamEn, mods := t.mods } ∧
      (∀ i, t.streamEn.getLsbD i = (decide (i < s.params.nstreams) && data.getLsbD i)) ∧
      (∀ k, t.mod k = if on k then freshCtx s.params else s.mod k) ∧
      ∀ k, on k = true → t.enabled k = true ∧ wantsGroup t k = true

/-- 44_control.md R199, 42_oscillator.md R150: a write of OSC_FREQ[k]. Where the table fits, the
oscillator has the new frequency, the length N = P_SR / gcd(P_SR, f), tables of the N values of P_TRIG,
and phase 0; where it does not, E_OSC_ALLOC is recorded with k and the block halts; nothing else
changes. -/
def Obligations.WrregOfAnOscillatorFrequency : Prop :=
  ∀ (s : State) (k : OscId) (f : Word), s.halted = false →
    let n := s.params.sr / Nat.gcd s.params.sr f.toNat
    (n ≤ s.params.oscCap →
      ∃ sin cos, exec (.wrreg (BitVec.ofNat 8 (0x08 + k.val)) f) s =
          .next (s.setOsc k (Osc.mk f n 0 sin cos)) ∧
        sin.length = n ∧ cos.length = n ∧
        ∀ i, i < n → sin[i]? = some (s.params.pTrig f.toNat i).1 ∧
          cos[i]? = some (s.params.pTrig f.toNat i).2) ∧
    (s.params.oscCap < n →
      ∃ t, exec (.wrreg (BitVec.ofNat 8 (0x08 + k.val)) f) s = .next t ∧
        t = { s with status := s.status.raise .oscAlloc (BitVec.ofNat 8 k.val) } ∧
        t.halted = true)

/-! ### The oscillators -/

/-- 42_oscillator.md R151: the table length is the least i >= 1 with (f i) mod P_SR = 0, it divides
P_SR, and it is 1 for f = 0. -/
def Obligations.TableLengthIsTheLeastPeriod : Prop :=
  ∀ sr f : Nat, 0 < sr →
    1 ≤ tableLen sr f ∧ f * tableLen sr f % sr = 0 ∧
      (∀ i, 1 ≤ i → f * i % sr = 0 → tableLen sr f ≤ i) ∧
      tableLen sr f ∣ sr ∧ tableLen sr 0 = 1

/-- 42_oscillator.md R158, 10_state.md R29: the default table lengths at P_SR = 190000 are 10, 10, 20, 8
and 5, and that is what OSC_LEN[k] reads after reset at the reference parameters. -/
def Obligations.DefaultTableLengths : Prop :=
  let len : Vector Word 5 := #v[10#32, 10#32, 20#32, 8#32, 5#32]
  (∀ k : OscId, tableLen 190000 (oscDefault k).toNat = len[k].toNat) ∧
    ∀ k : OscId, exec (.rdreg (BitVec.ofNat 8 (0x10 + k.val))) State.reset =
      .next { State.reset with out := [.regResp len[k]] }

/-- 42_oscillator.md R155, R157: there is no phase step where the table wraps, because
(f * (t mod N)) mod P_SR = (f * t) mod P_SR; and the angle of an oscillator of frequency 3 f0 is at
every tick t three times that of one of frequency f0, modulo a turn. -/
def Obligations.TableWrapIsPhaseContinuous : Prop :=
  ∀ sr f t : Nat, 0 < sr →
    f * (t % tableLen sr f) % sr = f * t % sr ∧
      3 * f * (t % tableLen sr (3 * f)) % sr = 3 * (f * (t % tableLen sr f) % sr) % sr

/-- 42_oscillator.md R156: f and f + m P_SR build identical oscillators, but for the frequency they
record, in every admitted configuration, whatever its P_TRIG. -/
def Obligations.AliasedFrequenciesBuildAlike : Prop :=
  ∀ (p : Params) (f g : Word) (m : Nat), g.toNat = f.toNat + m * p.sr →
    { builtOsc p g with f := f } = builtOsc p f

/-- 42_oscillator.md R152: where the angle is a multiple of pi/2 the reference table values are exactly
0, 1 or -1, and a zero is stored as +0.0. -/
def Obligations.ReferenceTableIsExactAtQuarterTurns : Prop :=
  ∀ sr f i : Nat, 0 < sr → 4 * (f * i % sr) % sr = 0 →
    referenceTrig sr f i = (0x00000000#32, 0x3F800000#32) ∧ 4 * (f * i % sr) / sr = 0 ∨
      referenceTrig sr f i = (0x3F800000#32, 0x00000000#32) ∧ 4 * (f * i % sr) / sr = 1 ∨
      referenceTrig sr f i = (0x00000000#32, 0xBF800000#32) ∧ 4 * (f * i % sr) / sr = 2 ∨
      referenceTrig sr f i = (0xBF800000#32, 0x00000000#32) ∧ 4 * (f * i % sr) / sr = 3

/-! ### Binary32 arithmetic -/

/-- 00_scope.md R17: fadd is rounded to nearest, ties to even. For finite a and b the result is finite
exactly when the exact sum lies below the midpoint of the largest finite value and 2^128, and then no
finite value is nearer to the exact sum, and an equally near one is not the result unless the result is
even; beyond it, the result is the infinity of the sum's sign. Sums are in units of 2^-149. -/
def Obligations.SumIsRoundedToNearestEven : Prop :=
  ∀ (nan : NaNBits) (a b : F32), F32.finite a = true → F32.finite b = true →
    let r := fadd nan a b
    let exact := F32.units a + F32.units b
    (F32.finite r = true ↔ exact.natAbs < (2 ^ 25 - 1) * 2 ^ 252) ∧
    (F32.finite r = false →
      F32.isInf r = true ∧ (F32.sign r = true ↔ exact < 0)) ∧
    (F32.finite r = true → ∀ c : F32, F32.finite c = true →
      (F32.units r - exact).natAbs ≤ (F32.units c - exact).natAbs ∧
        ((F32.units r - exact).natAbs = (F32.units c - exact).natAbs →
          F32.units c ≠ F32.units r → r.getLsbD 0 = false))

/-- 00_scope.md R17: fmul is rounded to nearest, ties to even, in the same sense. Products are in units
of 2^-298. -/
def Obligations.ProductIsRoundedToNearestEven : Prop :=
  ∀ (nan : NaNBits) (a b : F32), F32.finite a = true → F32.finite b = true →
    let r := fmul nan a b
    let exact := F32.units a * F32.units b
    (F32.finite r = true ↔ exact.natAbs < (2 ^ 25 - 1) * 2 ^ (252 + 149)) ∧
    (F32.finite r = false →
      F32.isInf r = true ∧ (F32.sign r = true ↔ exact < 0)) ∧
    (F32.finite r = true → ∀ c : F32, F32.finite c = true →
      (F32.units r * 2 ^ 149 - exact).natAbs ≤ (F32.units c * 2 ^ 149 - exact).natAbs ∧
        ((F32.units r * 2 ^ 149 - exact).natAbs = (F32.units c * 2 ^ 149 - exact).natAbs →
          F32.units c ≠ F32.units r → r.getLsbD 0 = false))

/-- 43_mixer.md R174: Clip gives 1.0 above 1.0, -1.0 below -1.0 and its argument otherwise; +inf gives
1.0, -inf gives -1.0, a NaN stays a NaN, -0.0 stays -0.0. -/
def Obligations.ClipLimitsToOne : Prop :=
  (∀ x : F32, (F32.lt 0x3F800000#32 x = true → clip x = 0x3F800000#32) ∧
    (F32.lt x 0xBF800000#32 = true → clip x = 0xBF800000#32) ∧
    (F32.lt 0x3F800000#32 x = false → F32.lt x 0xBF800000#32 = false → clip x = x) ∧
    (F32.isNaN x = true → clip x = x)) ∧
  clip 0x7F800000#32 = 0x3F800000#32 ∧ clip 0xFF800000#32 = 0xBF800000#32 ∧
  clip 0x80000000#32 = 0x80000000#32

/-- 43_mixer.md R179: for every tick, -OUT_VOL <= y <= OUT_VOL whenever the mix sum is no NaN, and a sum
beyond 1.0 or -1.0 gives exactly OUT_VOL or -OUT_VOL, for every level that OUT_VOL can hold. -/
def Obligations.OutputNeverExceedsTheOutputLevel : Prop :=
  ∀ (s : State) (samples : List (Stream × F32)), levelOk F32.one s.outVol →
    let acc := mixSum s samples
    let y := outputValue s samples
    (F32.isNaN acc = false → F32.le (fneg s.outVol) y = true ∧ F32.le y s.outVol = true) ∧
      (F32.lt 0x3F800000#32 acc = true → y = s.outVol) ∧
      (F32.lt acc 0xBF800000#32 = true → y = fneg s.outVol)

/-! ### The modulator -/

/-- 41_modulator.md R138 with R131, R137: a call that is no bit boundary counts, returns the entry at
the read cursor, clears it and moves the cursor on; nothing else changes. -/
def Obligations.ModStepBetweenBoundaries : Prop :=
  ∀ (s : State) (k : Stream), (s.mod k).InRange s.params →
    (s.mod k).sampleCount ≠ s.params.spb →
    modStep s k = .sample (accRead (s.mod k).acc (s.mod k).r)
      (s.setMod k
        { s.mod k with
          sampleCount := (s.mod k).sampleCount + 1
          acc := accWrite (s.mod k).acc (s.mod k).r 0x00000000#32
          r := ((s.mod k).r + 1) % s.params.accLen })

/-- 41_modulator.md R130 to R138: a call that is a bit boundary. Where the buffer is exhausted the next
group of the port is loaded first and its bit 0 is taken; the bit is encoded differentially; the shape
is added at the write offset, which moves on by P_SPB; then one sample is read and cleared. Where no
group is supplied, the call is an underrun. That the port has then used up the answer of the failed
request (groupIn becomes its tail), and that a request stands on the output list, are the model's
choices (log 7, log 8), not rules of the spec. -/
def Obligations.ModStepAtABoundary : Prop :=
  ∀ (s : State) (k : Stream), (s.mod k).InRange s.params →
    (s.mod k).sampleCount = s.params.spb →
    let m := s.mod k
    let after := fun (bits : BitVec 104) (j : Nat) =>
      let e := m.curOut ^^ bits.getMsbD j
      let added := addShape s.freeIndex k s.params.accLen m.w e s.params.shape 0 m.acc
      (accRead added m.r,
        ModCtx.mk 1 (j + 1) e m.curOut ((m.w + s.params.spb) % s.params.accLen)
          ((m.r + 1) % s.params.accLen) (accWrite added m.r 0x00000000#32) bits)
    (m.bitPos < 104 →
      modStep s k = .sample (after m.bits m.bitPos).1 (s.setMod k (after m.bits m.bitPos).2)) ∧
    (∀ g rest, m.bitPos = 104 → s.groups k = some g :: rest →
      modStep s k = .sample (after (encodeBits s.params k g) 0).1
        { s.setMod k (after (encodeBits s.params k g) 0).2 with
          groupIn := s.groupIn.set k rest
          out := s.out ++ [.groupRequest k] }) ∧
    (m.bitPos = 104 → (s.groups k = [] ∨ ∃ rest, s.groups k = none :: rest) →
      modStep s k = .underrun
        { s with
          groupIn := s.groupIn.set k (s.groups k).tail
          out := s.out ++ [.groupRequest k] })

/-- 41_modulator.md R136: the overlap-add reaches each of the P_FS entries from the write offset on,
cyclically, exactly once, adding the shape entry with the sign the encoded bit selects (R135), and no
other entry. -/
def Obligations.OverlapAddReachesEachEntryOnce : Prop :=
  ∀ (p : Params) (tick : Nat) (k : Stream) (m : ModCtx), accWf p.accLen m.acc = true →
    let m' := overlapAdd p tick k m
    (∀ (i : Nat) (h : i < p.shape.length),
      accRead m'.acc ((m.w + i) % p.accLen) =
        fadd (Config.nanResult tick (.overlapAdd k i)) (accRead m.acc ((m.w + i) % p.accLen))
          (if m.curOut = false then p.shape[i] else fneg p.shape[i])) ∧
    (∀ a, (∀ i, i < p.shape.length → a ≠ (m.w + i) % p.accLen) →
      accRead m'.acc a = accRead m.acc a) ∧
    { m' with acc := m.acc } = m

/-- 10_state.md R38, 41_modulator.md R131, R133, R134: the counters follow the number of calls since the
last context reset, which starts it at 0 (R139). -/
def Obligations.ModStepAdvancesTheStreamClock : Prop :=
  (∀ p : Params, (freshCtx p).AtTime p 0) ∧
    ∀ (s s' : State) (k : Stream) (y : F32) (t : Nat), (s.mod k).AtTime s.params t →
      modStep s k = .sample y s' → (s'.mod k).AtTime s.params (t + 1)

/-- 41_modulator.md R142: number the calls of ModStep of a stream from 0 since its last context reset,
whatever happens to the rest of the block in between; call t makes a GROUP request exactly when t is a
multiple of 104 P_SPB. -/
def Obligations.GroupRequestsComeEvery104Bits : Prop :=
  ∀ (calls : Nat → State) (k : Stream) (t : Nat),
    (calls 0).mod k = freshCtx (calls 0).params →
    (∀ j, j < t → ∃ y s', modStep (calls j) k = .sample y s' ∧
      (calls (j + 1)).mod k = s'.mod k ∧ (calls (j + 1)).params = s'.params) →
    let after := match modStep (calls t) k with
      | .sample _ s' => s'.out
      | .underrun s' => s'.out
    (t % (104 * (calls 0).params.spb) = 0 → after = (calls t).out ++ [.groupRequest k]) ∧
      (t % (104 * (calls 0).params.spb) ≠ 0 → after = (calls t).out)

/-- 41_modulator.md R140, R141: the closed form. In a run of ticks that starts right after the context
of stream k was reset, with the stream active, the block not halted and every group supplied, the
sample of tick t is the sum of the shape contributions of the bits that reach it, in increasing bit
number: the circular accumulator never mixes samples of different output times. -/
def Obligations.ModulatorOutputHasTheClosedForm : Prop :=
  ∀ (run : Nat → State) (k : Stream) (q : Nat → Group) (t : Nat),
    (run 0).mod k = freshCtx (run 0).params →
    (run 0).enabled k = true →
    (∀ j, j < t → exec .tick (run j) = .next (run (j + 1))) →
    (∀ j, j ≤ t → (run j).halted = false) →
    (∀ g, 104 * g * (run 0).params.spb ≤ t → ((run 0).groups k)[g]? = some (some (q g))) →
    ∃ s', modStep (run t) k =
      .sample (closedForm (run 0).params k q (run 0).freeIndex t) s'

/-! ### Ticks and frames -/

/-- 43_mixer.md R172, R174, R175, R176: a TICK with no active stream emits the clipped pilot term times
the output level on both channels, advances every oscillator, and changes nothing else of the block's
state; the model's own counter of free values advances (log 3). -/
def Obligations.TickWithoutStreamsEmitsThePilot : Prop :=
  ∀ s : State, s.halted = false → noActiveStream s →
    let y := fmul (Config.nanResult s.freeIndex .output)
      (clip (fmul (Config.nanResult s.freeIndex .pilot) (oscCos (s.oscillator 0)) s.pilotVol))
      s.outVol
    ∃ t, exec .tick s = .next t ∧
      t = { s with
        osc := t.osc, out := s.out ++ [.frame y y], freeIndex := s.freeIndex + 1 } ∧
      ∀ k, t.oscillator k =
        { s.oscillator k with phase := ((s.oscillator k).phase + 1) % (s.oscillator k).n }

/-- 70_reset_and_hazards.md R252, 43_mixer.md R176: FRAMES from the power-on state of every admitted
configuration completes with COUNT frames of zeros on both channels. The sign of frame j is that of the
pilot carrier at phase j, as R172, R175 and the -0.0 of R174 give it. R252 writes (+0.0, +0.0)
for every such frame: where the carrier is negative the two rules conflict, and that R176 is followed
there is the model's choice (log 20); the two zeros compare equal (00_scope.md R17).
Where P_TRIG is the reference, the first TICK emits exactly (+0.0, +0.0). -/
def Obligations.FirstTickAfterResetIsSilent : Prop :=
  ∀ p : Params,
    (∀ count : BitVec 32, ∃ (ys : List F32) (t : State),
      exec (.frames count) (State.resetWith p) = .next t ∧
        t.out = ys.map (fun y => .frame y y) ∧ ys.length = count.toNat ∧
        ∀ j, j < count.toNat →
          let carrier := (p.pTrig 19000 (j % tableLen p.sr 19000)).2
          ys[j]? = some (if F32.sign carrier then 0x80000000#32 else 0x00000000#32)) ∧
    (p.trig = [] → ∃ t, exec .tick (State.resetWith p) = .next t ∧
      t.out = [.frame 0x00000000#32 0x00000000#32])

/-- 43_mixer.md R170 to R176: a TICK in which every request is answered with a group completes. The
samples are those of ModStep on the state before the tick, one stream not disturbing another; the mix is
the pilot term plus, in increasing stream number, ((carrier * sample) * level), with the carriers cos,
sin, -cos, -sin of oscillators 1 to 4 at the phases of the tick start; the output is the clipped sum
times OUT_VOL on both channels; every oscillator advances; the requests are made in increasing stream
number; a stream that is not active is not touched; and nothing else of the block's state changes. That
each request has used up one answer of its port (log 7), that the requests stand before the frame on one
output list (log 8), and that the counter of free values advances by one (log 3) are the model's choices. -/
def Obligations.TickMixesTheActiveStreams : Prop :=
  ∀ s : State, s.halted = false →
    (∀ k, s.enabled k = true → wantsGroup s k = true → ∃ g rest, s.groups k = some g :: rest) →
    ∃ (sample : Stream → F32) (after : Stream → State) (t : State),
      (∀ k, s.enabled k = true → modStep s k = .sample (sample k) (after k)) ∧
      exec .tick s = .next t ∧
      (let free := fun site => Config.nanResult s.freeIndex site
       let cosine := fun k => tableRead (s.oscillator k).cos (s.oscillator k).phase
       let sine := fun k => tableRead (s.oscillator k).sin (s.oscillator k).phase
       let carriers : Vector F32 4 := #v[cosine 1, sine 2, fneg (cosine 3), fneg (sine 4)]
       let active := ([0, 1, 2, 3] : List Stream).filter fun k => s.enabled k
       let acc := active.foldl
         (fun acc k => fadd (free (.sum k)) acc
           (fmul (free (.level k)) (fmul (free (.carrier k)) carriers[k] (sample k)) (s.level k)))
         (fmul (free .pilot) (cosine 0) s.pilotVol)
       let y := fmul (free .output) (clip acc) s.outVol
       t = { s with
         mods := t.mods, osc := t.osc, groupIn := t.groupIn,
         out := s.out ++ (active.filter fun k => wantsGroup s k).map Output.groupRequest ++
           [.frame y y],
         freeIndex := s.freeIndex + 1 }) ∧
      (∀ k, t.mod k = if s.enabled k then (after k).mod k else s.mod k) ∧
      (∀ k, t.groups k =
        if s.enabled k && wantsGroup s k then (s.groups k).tail else s.groups k) ∧
      ∀ k, t.oscillator k =
        { s.oscillator k with phase := ((s.oscillator k).phase + 1) % (s.oscillator k).n }

/-- 60_exceptions.md R226, 43_mixer.md R171: a TICK in which stream k underruns, no lower active stream
doing so, records E_UNDERRUN with k and halts; no MOD, ACC, BITS or OSC state changes, no frame is
emitted, and no stream after k is stepped: it makes no request. That the answers given to the requests
of this tick are used up is the model's choice (log 7). -/
def Obligations.UnderrunOnlyRecordsTheLowestStream : Prop :=
  ∀ (s : State) (k : Stream), s.halted = false →
    s.enabled k = true → wantsGroup s k = true →
    (s.groups k = [] ∨ ∃ rest, s.groups k = none :: rest) →
    (∀ j, j < k → s.enabled j = true → wantsGroup s j = true →
      ∃ g rest, s.groups j = some g :: rest) →
    let asks := fun j : Stream => decide (j ≤ k) && s.enabled j && wantsGroup s j
    ∃ t, exec .tick s = .next t ∧
      t = { s with
        status := s.status.raise .underrun (BitVec.ofNat 8 k.val)
        groupIn := t.groupIn
        out := s.out ++ (([0, 1, 2, 3] : List Stream).filter asks).map Output.groupRequest } ∧
      t.halted = true ∧
      ∀ j, t.groups j = if asks j then (s.groups j).tail else s.groups j

/-- 43_mixer.md R177: FRAMES n leaves the same state and output as n TICKs in a row, whether they run,
halt or are ignored; TICK always gives a next state. -/
def Obligations.FramesIsRepeatedTick : Prop :=
  ∃ tickOf : State → State, (∀ s, exec .tick s = .next (tickOf s)) ∧
    ∀ (count : BitVec 32) (s : State),
      exec (.frames count) s = .next (tickOf^[count.toNat] s)

/-- 43_mixer.md R177, 42_oscillator.md R154: FRAMES with no active stream completes all its ticks: COUNT
frames, equal on both channels, and every oscillator's phase moved on by COUNT modulo its length, the
tables kept; nothing else of the block's state changes. The model's own counter of free values does
(log 3). -/
def Obligations.FramesWithoutStreamsEmitsCountFrames : Prop :=
  ∀ (s : State) (count : BitVec 32), s.halted = false → noActiveStream s →
    (∀ k, (s.oscillator k).phase < (s.oscillator k).n) →
    ∃ (ys : List F32) (t : State), exec (.frames count) s = .next t ∧
      t = { s with
        osc := t.osc, out := s.out ++ ys.map (fun y => .frame y y), freeIndex := t.freeIndex } ∧
      ys.length = count.toNat ∧
      ∀ k, t.oscillator k =
        { s.oscillator k with
          phase := ((s.oscillator k).phase + count.toNat) % (s.oscillator k).n }

/-- 42_oscillator.md R155: every oscillator advances once per completed tick, whatever streams are
active and whatever the levels hold: while no tick underruns, after FRAMES its phase is the old one plus
COUNT modulo N, and its tables are the same. -/
def Obligations.PhaseFollowsTheTickCount : Prop :=
  ∀ (s t : State) (count : BitVec 32), exec (.frames count) s = .next t → t.halted = false →
    ∀ k, (s.oscillator k).phase < (s.oscillator k).n →
      t.oscillator k =
        { s.oscillator k with
          phase := ((s.oscillator k).phase + count.toNat) % (s.oscillator k).n }

/-! ### What no command changes, and what does not flow -/

/-- 10_state.md R47, 30_encoding.md R95: a step only appends to what was emitted (a reset does not
withdraw it), and every frame has equal channels. -/
def Obligations.OutputOnlyGrowsAndFramesAreStereo : Prop :=
  ∀ s t : State, step s = .next t →
    ∃ new : List Output, t.out = s.out ++ new ∧
      ∀ l r, Output.frame l r ∈ new → l = r

/-- 10_state.md R42, 00_scope.md section 4: no step changes a parameter, SHAPE among them. -/
def Obligations.ParametersNeverChange : Prop :=
  ∀ s t : State, step s = .next t → t.params = s.params

/-- 41_modulator.md R139: while EN[k] = 0, TICK and FRAMES leave the context of stream k as it is and
make no request on its port. -/
def Obligations.DisabledStreamIsFrozen : Prop :=
  ∀ (s t : State) (k : Stream) (i : Instr), s.enabled k = false →
    (i = .tick ∨ ∃ count, i = .frames count) → exec i s = .next t →
      t.mod k = s.mod k ∧ t.groups k = s.groups k ∧ t.enabled k = false ∧
        ∃ new : List Output, t.out = s.out ++ new ∧ Output.groupRequest k ∉ new

/-- 10_state.md R27, 44_control.md R198: the level of a stream that is not implemented is never read by
the mixer: a TICK gives the same with any value in it. -/
def Obligations.SpareStreamLevelIsNeverMixed : Prop :=
  ∀ (s t : State) (k : Stream) (v : F32), s.params.nstreams ≤ k.val →
    exec .tick s = .next t →
      exec .tick (s.setStreamVol k v) = .next (t.setStreamVol k v)

/-- 43_mixer.md R178, for a stream that is not active: its level does not flow into the output either. -/
def Obligations.InactiveStreamLevelIsNotMixed : Prop :=
  ∀ (s t : State) (k : Stream) (v : F32), s.enabled k = false →
    exec .tick s = .next t →
      exec .tick (s.setStreamVol k v) = .next (t.setStreamVol k v)

/-! ### Invariants -/

/-- The power-on state of every admitted configuration has the invariant (10_state.md R48). -/
def Obligations.PowerOnStateHasTheInvariant : Prop :=
  ∀ p : Params, (State.resetWith p).Inv

/-- Every step keeps the invariant: STATUS is consistent, STREAM_EN has no bit that does not exist, the
levels are in their ranges (10_state.md R24 to R27), each oscillator's tables are those of its frequency
with every entry finite, in [-1, 1] (43_mixer.md R180; the bound on P_TRIG is log 24), and its phase is
below its length (R40, R41), the counters and cursors of every context are in range
(R38), its accumulator has the canonical form, and the contexts of streams that are not implemented hold
their reset values (R31). -/
def Obligations.EveryStepKeepsTheInvariant : Prop :=
  ∀ s t : State, s.Inv → step s = .next t → t.Inv

/-- 10_state.md R38: at every time the counters of every context are those of some number of calls since
its last context reset: every step keeps that. -/
def Obligations.EveryStepKeepsTheStreamClocks : Prop :=
  ∀ s t : State, (∀ k : Stream, ∃ n, (s.mod k).AtTime s.params n) → step s = .next t →
    ∀ k : Stream, ∃ n, (t.mod k).AtTime t.params n
end

