-- ==== Sys2Proof/Laws/Accum.lean ====
section
/-!
SUPPORT. The laws of the accumulator memory: a read after a write, and that every write keeps the
canonical form.
-/

namespace Sys2Proof.Machine

@[simp] theorem accRead_nil (a : Nat) : accRead [] a = F32.zero := rfl

/-- Below its first index a canonical list reads as +0.0. -/
theorem accRead_below {len lo : Nat} {m : AccMem} (h : accWfFrom len lo m = true) {a : Nat}
    (ha : a < lo) : accRead m a = F32.zero := by
  induction m generalizing lo with
  | nil => rfl
  | cons e rest ih =>
    obtain ⟨b, u⟩ := e
    simp only [accWfFrom, Bool.and_eq_true, decide_eq_true_eq] at h
    have hne : a ≠ b := by omega
    simp only [accRead, if_neg hne]
    exact ih h.2 (by omega)

/-- A lower starting index is no stronger demand. -/
theorem accWfFrom_mono {len lo lo' : Nat} {m : AccMem} (h : accWfFrom len lo m = true)
    (hl : lo' ≤ lo) : accWfFrom len lo' m = true := by
  cases m with
  | nil => rfl
  | cons e rest =>
    obtain ⟨b, u⟩ := e
    simp only [accWfFrom, Bool.and_eq_true, decide_eq_true_eq] at h ⊢
    exact ⟨⟨⟨by omega, h.1.1.2⟩, h.1.2⟩, h.2⟩

theorem accRead_accPut_self (a : Nat) (v : F32) {rest : AccMem}
    (h : accRead rest a = F32.zero) : accRead (accPut a v rest) a = v := by
  unfold accPut
  split
  · rename_i hv; rw [h, hv]
  · simp [accRead]

theorem accRead_accPut_other {a b : Nat} (v : F32) (rest : AccMem) (h : b ≠ a) :
    accRead (accPut a v rest) b = accRead rest b := by
  unfold accPut
  split
  · rfl
  · simp [accRead, h]

theorem accPut_wf {len a : Nat} (v : F32) {rest : AccMem} {lo : Nat} (hlo : lo ≤ a)
    (ha : a < len) (h : accWfFrom len (a + 1) rest = true) :
    accWfFrom len lo (accPut a v rest) = true := by
  unfold accPut
  split
  · exact accWfFrom_mono h (by omega)
  · rename_i hv
    simp [accWfFrom, hlo, ha, hv, h]

/-- Reading the index just written gives the value written. -/
theorem accRead_accWrite_self {len lo : Nat} {m : AccMem} (h : accWfFrom len lo m = true) (a : Nat)
    (v : F32) : accRead (accWrite m a v) a = v := by
  induction m generalizing lo with
  | nil => exact accRead_accPut_self a v rfl
  | cons e rest ih =>
    obtain ⟨b, u⟩ := e
    simp only [accWfFrom, Bool.and_eq_true, decide_eq_true_eq] at h
    unfold accWrite
    split
    · refine accRead_accPut_self a v ?_
      have hne : a ≠ b := by omega
      simp only [accRead, if_neg hne]
      exact accRead_below h.2 (by omega)
    · split
      · refine accRead_accPut_self a v (accRead_below h.2 (by omega))
      · rename_i hne
        simp only [accRead, if_neg hne]
        exact ih h.2

/-- A write leaves every other index alone. -/
theorem accRead_accWrite_other (m : AccMem) {a b : Nat} (v : F32) (hb : b ≠ a) :
    accRead (accWrite m a v) b = accRead m b := by
  induction m with
  | nil => exact accRead_accPut_other v [] hb
  | cons e rest ih =>
    obtain ⟨c, u⟩ := e
    unfold accWrite
    split
    · exact accRead_accPut_other v _ hb
    · split
      · rename_i hac
        rw [accRead_accPut_other v _ hb]
        have : b ≠ c := by omega
        simp [accRead, this]
      · simp only [accRead, ih]

theorem accWrite_wfFrom {len lo : Nat} {m : AccMem} (h : accWfFrom len lo m = true) {a : Nat}
    (hlo : lo ≤ a) (ha : a < len) (v : F32) : accWfFrom len lo (accWrite m a v) = true := by
  induction m generalizing lo with
  | nil => exact accPut_wf v hlo ha rfl
  | cons e rest ih =>
    obtain ⟨b, u⟩ := e
    have h' := h
    simp only [accWfFrom, Bool.and_eq_true, decide_eq_true_eq] at h
    unfold accWrite
    split
    · rename_i hab
      refine accPut_wf v hlo ha ?_
      simp only [accWfFrom, Bool.and_eq_true, decide_eq_true_eq]
      exact ⟨⟨⟨by omega, h.1.1.2⟩, h.1.2⟩, h.2⟩
    · split
      · rename_i hab
        subst hab
        exact accPut_wf v hlo ha h.2
      · have hb : b + 1 ≤ a := by omega
        simp only [accWfFrom, Bool.and_eq_true, decide_eq_true_eq]
        exact ⟨h.1, ih h.2 hb⟩

/-- A write keeps the canonical form. -/
theorem accWrite_wf {len : Nat} {m : AccMem} (h : accWf len m = true) {a : Nat} (ha : a < len)
    (v : F32) : accWf len (accWrite m a v) = true :=
  accWrite_wfFrom h (Nat.zero_le a) ha v

/-- The memory after reset has the canonical form. -/
theorem accWf_nil (len : Nat) : accWf len [] = true := rfl

/-- Two canonical memories that read alike at every index are equal: the form is canonical. -/
theorem accWfFrom_ext {len lo : Nat} {m m' : AccMem} (h : accWfFrom len lo m = true)
    (h' : accWfFrom len lo m' = true) (heq : ∀ a, accRead m a = accRead m' a) : m = m' := by
  induction m generalizing lo m' with
  | nil =>
    cases m' with
    | nil => rfl
    | cons e rest =>
      obtain ⟨b, u⟩ := e
      simp only [accWfFrom, Bool.and_eq_true, bne_iff_ne] at h'
      have := heq b
      simp only [accRead, if_true] at this
      exact absurd this.symm h'.1.2
  | cons e rest ih =>
    obtain ⟨b, u⟩ := e
    simp only [accWfFrom, Bool.and_eq_true, decide_eq_true_eq, bne_iff_ne] at h
    cases m' with
    | nil =>
      have := heq b
      simp only [accRead, if_true] at this
      exact absurd this h.1.2
    | cons e' rest' =>
      obtain ⟨b', u'⟩ := e'
      simp only [accWfFrom, Bool.and_eq_true, decide_eq_true_eq, bne_iff_ne] at h'
      have hb : b = b' := by
        rcases Nat.lt_trichotomy b b' with hlt | heqb | hgt
        · have := heq b
          simp only [accRead, if_true, if_neg (Nat.ne_of_lt hlt)] at this
          rw [accRead_below h'.2 (by omega)] at this
          exact absurd this h.1.2
        · exact heqb
        · have := heq b'
          simp only [accRead, if_true, if_neg (Nat.ne_of_lt hgt)] at this
          rw [accRead_below h.2 (by omega)] at this
          exact absurd this.symm h'.1.2
      subst hb
      have hu : u = u' := by
        have := heq b
        simpa only [accRead, if_true] using this
      subst hu
      have hrest : rest = rest' := by
        refine ih h.2 h'.2 fun a => ?_
        by_cases ha : a = b
        · subst ha
          rw [accRead_below h.2 (by omega), accRead_below h'.2 (by omega)]
        · have := heq a
          simpa only [accRead, if_neg ha] using this
      rw [hrest]

end Sys2Proof.Machine
end

