-- ==== Sys2Proof/Laws/Binary32.lean ====
section
/-!
SUPPORT. The fields of a pattern put together from its fields, negation, rounding to nearest even, and
what each operation of binary32 can give (00_scope.md R17).
-/

namespace Sys2Proof

/-! ### Fields -/

theorem F32.toNat_ofFields (sign : Bool) {expo frac : Nat} (he : expo < 256) (hf : frac < 2 ^ 23) :
    (F32.ofFields sign expo frac).toNat = sign.toNat * 2 ^ 31 + expo * 2 ^ 23 + frac := by
  have hs : sign.toNat ≤ 1 := by cases sign <;> decide
  rw [F32.ofFields, BitVec.toNat_ofNat]
  exact Nat.mod_eq_of_lt (by omega)

theorem F32.expo_ofFields (sign : Bool) {expo frac : Nat} (he : expo < 256) (hf : frac < 2 ^ 23) :
    F32.expo (F32.ofFields sign expo frac) = expo := by
  have hs : sign.toNat ≤ 1 := by cases sign <;> decide
  rw [F32.expo, F32.toNat_ofFields sign he hf]
  omega

theorem F32.frac_ofFields (sign : Bool) {expo frac : Nat} (he : expo < 256) (hf : frac < 2 ^ 23) :
    F32.frac (F32.ofFields sign expo frac) = frac := by
  have hs : sign.toNat ≤ 1 := by cases sign <;> decide
  rw [F32.frac, F32.toNat_ofFields sign he hf]
  omega

theorem F32.sign_eq (x : F32) : F32.sign x = decide (2 ^ 31 ≤ x.toNat) := by
  rw [F32.sign, BitVec.msb_eq_decide]

theorem F32.sign_ofFields (sign : Bool) {expo frac : Nat} (he : expo < 256) (hf : frac < 2 ^ 23) :
    F32.sign (F32.ofFields sign expo frac) = sign := by
  rw [F32.sign_eq, F32.toNat_ofFields sign he hf]
  cases sign <;> simp <;> omega

/-- A pattern from a sign and bits 30:0 has these fields. -/
theorem F32.ofSignMag_fields (neg : Bool) {bits : Nat} (h : bits < 2 ^ 31) :
    F32.sign (F32.ofSignMag neg bits) = neg ∧ F32.expo (F32.ofSignMag neg bits) = bits / 2 ^ 23 ∧
      F32.frac (F32.ofSignMag neg bits) = bits % 2 ^ 23 := by
  have e : F32.ofSignMag neg bits = F32.ofFields neg (bits / 2 ^ 23) (bits % 2 ^ 23) := by
    have hb : 0 * 2 ^ 23 + bits = bits / 2 ^ 23 * 2 ^ 23 + bits % 2 ^ 23 := by omega
    rw [F32.ofSignMag, F32.ofFields, F32.ofFields, Nat.add_assoc, hb, Nat.add_assoc]
  have he : bits / 2 ^ 23 < 256 := by omega
  have hf : bits % 2 ^ 23 < 2 ^ 23 := Nat.mod_lt _ (by decide)
  rw [e]
  exact ⟨F32.sign_ofFields neg he hf, F32.expo_ofFields neg he hf, F32.frac_ofFields neg he hf⟩

/-- A free NaN is a NaN (93_implementation_defined.md I19). -/
theorem NaNBits.toF32_isNaN (n : NaNBits) : F32.isNaN n.toF32 = true := by
  have hf := n.fracPred.isLt
  have hf' : n.fracPred.val + 1 < 2 ^ 23 := by omega
  simp only [F32.isNaN, NaNBits.toF32, F32.expo_ofFields n.sign (by decide : 255 < 256) hf',
    F32.frac_ofFields n.sign (by decide : 255 < 256) hf', decide_eq_true_eq]
  exact ⟨trivial, Nat.succ_ne_zero _⟩

/-! ### Negation -/

@[simp] theorem fneg_fneg (a : F32) : fneg (fneg a) = a := by
  simp [fneg]

theorem fneg_toNat (a : F32) :
    (fneg a).toNat = if 2 ^ 31 ≤ a.toNat then a.toNat - 2 ^ 31 else a.toNat + 2 ^ 31 := by
  have hlt := a.isLt
  have e : (fneg a).toNat = a.toNat ^^^ 2 ^ 31 := BitVec.toNat_xor a _
  have hdiv := Nat.xor_div_two_pow (a := a.toNat) (b := 2 ^ 31) (n := 31)
  have hmod := Nat.xor_mod_two_pow (a := a.toNat) (b := 2 ^ 31) (n := 31)
  rw [← e] at hdiv hmod
  rw [Nat.div_self (Nat.two_pow_pos 31)] at hdiv
  rw [Nat.mod_self, Nat.xor_zero] at hmod
  split
  · have h : a.toNat / 2 ^ 31 = 1 := by omega
    rw [h, Nat.xor_self] at hdiv
    omega
  · have h : a.toNat / 2 ^ 31 = 0 := by omega
    rw [h, Nat.zero_xor] at hdiv
    omega

theorem fneg_expo (a : F32) : F32.expo (fneg a) = F32.expo a := by
  rw [F32.expo, F32.expo, fneg_toNat]
  split <;> omega

theorem fneg_frac (a : F32) : F32.frac (fneg a) = F32.frac a := by
  rw [F32.frac, F32.frac, fneg_toNat]
  split <;> omega

theorem fneg_sign (a : F32) : F32.sign (fneg a) = !F32.sign a := by
  have hlt := a.isLt
  rw [F32.sign_eq, F32.sign_eq, fneg_toNat]
  split <;> simp_all; omega

/-! ### Rounding -/

/-- Rounding a quotient by a power of two: no integer is nearer, and of two as near the even one is
taken (00_scope.md R17). -/
theorem roundShift_near (m q : Nat) :
    2 * m ≤ 2 * (roundShift m q * 2 ^ q) + 2 ^ q ∧ 2 * (roundShift m q * 2 ^ q) ≤ 2 * m + 2 ^ q ∧
      (2 * m = 2 * (roundShift m q * 2 ^ q) + 2 ^ q ∨ 2 * (roundShift m q * 2 ^ q) = 2 * m + 2 ^ q →
        roundShift m q % 2 = 0) := by
  have hdm := Nat.div_add_mod m (2 ^ q)
  have hlt := Nat.mod_lt m (Nat.two_pow_pos q)
  rw [Nat.mul_comm] at hdm
  unfold roundShift
  simp only
  generalize m / 2 ^ q = d at *
  generalize m % 2 ^ q = r at *
  generalize 2 ^ q = p at *
  split
  · exact ⟨by omega, by omega, by rintro (h | h) <;> omega⟩
  · split
    · rw [Nat.add_mul, Nat.one_mul]
      exact ⟨by omega, by omega, by rintro (h | h) <;> omega⟩
    · rcases Nat.mod_two_eq_zero_or_one d with hd | hd <;> rw [hd]
      · rw [Nat.add_zero]
        exact ⟨by omega, by omega, fun _ => hd⟩
      · rw [Nat.add_mul, Nat.one_mul]
        exact ⟨by omega, by omega, fun _ => by omega⟩

theorem roundMag_le (m sh : Nat) : roundMag m sh ≤ 255 * 2 ^ 23 := Nat.min_le_right _ _

/-! ### What each operation can give -/

/-- The cases of a sum: a NaN, an infinite operand, a zero, a rounded sum (00_scope.md R17). -/
theorem fadd_cases (nan : NaNBits) (a b : F32) :
    fadd nan a b = nan.toF32 ∨ (F32.isInf a = true ∧ fadd nan a b = a) ∨
      (F32.isInf b = true ∧ fadd nan a b = b) ∨
      (F32.units a + F32.units b = 0 ∧ (fadd nan a b = F32.zero ∨ fadd nan a b = F32.negZero)) ∨
      (F32.units a + F32.units b ≠ 0 ∧
        fadd nan a b = F32.ofSignMag (decide (F32.units a + F32.units b < 0))
          (roundMag (F32.units a + F32.units b).natAbs 0)) := by
  unfold fadd
  split
  · exact .inl rfl
  · split
    · rename_i ha
      split
      · exact .inl rfl
      · exact .inr (.inl ⟨ha, rfl⟩)
    · split
      · rename_i hb
        exact .inr (.inr (.inl ⟨hb, rfl⟩))
      · simp only
        split
        · rename_i hs
          refine .inr (.inr (.inr (.inl ⟨hs, ?_⟩)))
          split
          · exact .inr rfl
          · exact .inl rfl
        · rename_i hs
          exact .inr (.inr (.inr (.inr ⟨hs, rfl⟩)))

/-- The cases of a product: a NaN, an infinity, a rounded product (00_scope.md R17). -/
theorem fmul_cases (nan : NaNBits) (a b : F32) :
    fmul nan a b = nan.toF32 ∨
      ((F32.isInf a = true ∨ F32.isInf b = true) ∧
        fmul nan a b = F32.ofSignMag (F32.sign a != F32.sign b) (255 * 2 ^ 23)) ∨
      fmul nan a b =
        F32.ofSignMag (F32.sign a != F32.sign b) (roundMag (F32.mag a * F32.mag b) 149) := by
  unfold fmul
  simp only
  split
  · exact .inl rfl
  · split
    · rename_i h
      split
      · exact .inl rfl
      · exact .inr (.inl ⟨by simpa using h, rfl⟩)
    · exact .inr (.inr rfl)

end Sys2Proof
end

