-- ==== Sys2Proof/Laws/Params.lean ====
section
/-!
SUPPORT. The bounds an admitted configuration has, each as a lemma of its own, and the table length of
42_oscillator.md R151.
-/

namespace Sys2Proof

/-- Every check of ParamSet.admitted, taken apart once. -/
theorem Params.bounds (p : Params) :
    1 ≤ p.sr ∧ (1 ≤ p.spb ∧ p.spb ≤ 65535) ∧ (1 ≤ p.fs ∧ p.spb + p.fs ≤ 65536) ∧
      p.shapeOk = true ∧ (1 ≤ p.nstreams ∧ p.nstreams ≤ 4) ∧ p.oscCapOk = true ∧
      p.trigOk = true := by
  have h := p.isAdmitted
  simp only [ParamSet.admitted, ParamSet.srOk, ParamSet.spbOk, ParamSet.fsOk, ParamSet.nstreamsOk,
    Bool.and_eq_true, decide_eq_true_eq] at h
  exact ⟨h.1.1.1.1.1.1, h.1.1.1.1.1.2, h.1.1.1.1.2, h.1.1.1.2, h.1.1.2, h.1.2, h.2⟩

theorem Params.sr_pos (p : Params) : 0 < p.sr := p.bounds.1
theorem Params.spb_pos (p : Params) : 0 < p.spb := p.bounds.2.1.1
theorem Params.fs_pos (p : Params) : 0 < p.fs := p.bounds.2.2.1.1
theorem Params.nstreams_pos (p : Params) : 0 < p.nstreams := p.bounds.2.2.2.2.1.1
theorem Params.nstreams_le (p : Params) : p.nstreams ≤ 4 := p.bounds.2.2.2.2.1.2
theorem Params.accLen_le (p : Params) : p.accLen ≤ 65536 := p.bounds.2.2.1.2
theorem Params.fs_lt_accLen (p : Params) : p.fs < p.accLen :=
  Nat.lt_add_of_pos_left p.spb_pos
theorem Params.spb_lt_accLen (p : Params) : p.spb < p.accLen :=
  Nat.lt_add_of_pos_right p.fs_pos
theorem Params.accLen_pos (p : Params) : 0 < p.accLen :=
  Nat.lt_of_le_of_lt (Nat.zero_le _) p.spb_lt_accLen

/-- The default oscillators fit (70_reset_and_hazards.md R253). -/
theorem Params.default_fits (p : Params) (k : OscId) :
    tableLen p.sr (oscDefault k).toNat ≤ p.oscCap := by
  have h := p.bounds.2.2.2.2.2.1
  simp only [ParamSet.oscCapOk, Bool.and_eq_true, List.all_eq_true, decide_eq_true_eq] at h
  exact h.2 k (by fin_cases k <;> simp)

theorem tableLen_pos {sr : Nat} (h : 0 < sr) (f : Nat) : 0 < tableLen sr f :=
  Nat.div_pos (Nat.le_of_dvd h (Nat.gcd_dvd_left sr f)) (Nat.gcd_pos_of_pos_left f h)

end Sys2Proof
end

