-- ==== Sys2Proof/Laws/State.lean ====
section
/-!
SUPPORT. What each field and each accessor is after each named update of State: true by rfl, tagged
@[simp], so that no proof unfolds a record update.
-/

namespace Sys2Proof.Machine

variable (s : State)

/-! ### setMod -/

@[simp] theorem setMod_params (k : Stream) (m : ModCtx) : (s.setMod k m).params = s.params := rfl
@[simp] theorem setMod_status (k : Stream) (m : ModCtx) : (s.setMod k m).status = s.status := rfl
@[simp] theorem setMod_streamEn (k : Stream) (m : ModCtx) :
    (s.setMod k m).streamEn = s.streamEn := rfl
@[simp] theorem setMod_outVol (k : Stream) (m : ModCtx) : (s.setMod k m).outVol = s.outVol := rfl
@[simp] theorem setMod_pilotVol (k : Stream) (m : ModCtx) :
    (s.setMod k m).pilotVol = s.pilotVol := rfl
@[simp] theorem setMod_streamVol (k : Stream) (m : ModCtx) :
    (s.setMod k m).streamVol = s.streamVol := rfl
@[simp] theorem setMod_level (k : Stream) (m : ModCtx) (j : Stream) :
    (s.setMod k m).level j = s.level j := rfl
@[simp] theorem setMod_osc (k : Stream) (m : ModCtx) : (s.setMod k m).osc = s.osc := rfl
@[simp] theorem setMod_oscillator (k : Stream) (m : ModCtx) (j : OscId) :
    (s.setMod k m).oscillator j = s.oscillator j := rfl
@[simp] theorem setMod_mods (k : Stream) (m : ModCtx) : (s.setMod k m).mods = s.mods.set k m := rfl
@[simp] theorem setMod_hostIn (k : Stream) (m : ModCtx) : (s.setMod k m).hostIn = s.hostIn := rfl
@[simp] theorem setMod_groupIn (k : Stream) (m : ModCtx) : (s.setMod k m).groupIn = s.groupIn := rfl
@[simp] theorem setMod_groups (k : Stream) (m : ModCtx) (j : Stream) :
    (s.setMod k m).groups j = s.groups j := rfl
@[simp] theorem setMod_out (k : Stream) (m : ModCtx) : (s.setMod k m).out = s.out := rfl
@[simp] theorem setMod_freeIndex (k : Stream) (m : ModCtx) :
    (s.setMod k m).freeIndex = s.freeIndex := rfl
@[simp] theorem setMod_halted (k : Stream) (m : ModCtx) : (s.setMod k m).halted = s.halted := rfl
@[simp] theorem setMod_enabled (k : Stream) (m : ModCtx) (j : Stream) :
    (s.setMod k m).enabled j = s.enabled j := rfl

/-! ### setOsc -/

@[simp] theorem setOsc_params (k : OscId) (o : Osc) : (s.setOsc k o).params = s.params := rfl
@[simp] theorem setOsc_status (k : OscId) (o : Osc) : (s.setOsc k o).status = s.status := rfl
@[simp] theorem setOsc_streamEn (k : OscId) (o : Osc) : (s.setOsc k o).streamEn = s.streamEn := rfl
@[simp] theorem setOsc_outVol (k : OscId) (o : Osc) : (s.setOsc k o).outVol = s.outVol := rfl
@[simp] theorem setOsc_pilotVol (k : OscId) (o : Osc) : (s.setOsc k o).pilotVol = s.pilotVol := rfl
@[simp] theorem setOsc_streamVol (k : OscId) (o : Osc) :
    (s.setOsc k o).streamVol = s.streamVol := rfl
@[simp] theorem setOsc_level (k : OscId) (o : Osc) (j : Stream) :
    (s.setOsc k o).level j = s.level j := rfl
@[simp] theorem setOsc_osc (k : OscId) (o : Osc) : (s.setOsc k o).osc = s.osc.set k o := rfl
@[simp] theorem setOsc_mods (k : OscId) (o : Osc) : (s.setOsc k o).mods = s.mods := rfl
@[simp] theorem setOsc_mod (k : OscId) (o : Osc) (j : Stream) :
    (s.setOsc k o).mod j = s.mod j := rfl
@[simp] theorem setOsc_hostIn (k : OscId) (o : Osc) : (s.setOsc k o).hostIn = s.hostIn := rfl
@[simp] theorem setOsc_groupIn (k : OscId) (o : Osc) : (s.setOsc k o).groupIn = s.groupIn := rfl
@[simp] theorem setOsc_groups (k : OscId) (o : Osc) (j : Stream) :
    (s.setOsc k o).groups j = s.groups j := rfl
@[simp] theorem setOsc_out (k : OscId) (o : Osc) : (s.setOsc k o).out = s.out := rfl
@[simp] theorem setOsc_freeIndex (k : OscId) (o : Osc) :
    (s.setOsc k o).freeIndex = s.freeIndex := rfl
@[simp] theorem setOsc_halted (k : OscId) (o : Osc) : (s.setOsc k o).halted = s.halted := rfl
@[simp] theorem setOsc_enabled (k : OscId) (o : Osc) (j : Stream) :
    (s.setOsc k o).enabled j = s.enabled j := rfl

/-! ### setStreamVol -/

@[simp] theorem setStreamVol_params (k : Stream) (v : F32) :
    (s.setStreamVol k v).params = s.params := rfl
@[simp] theorem setStreamVol_status (k : Stream) (v : F32) :
    (s.setStreamVol k v).status = s.status := rfl
@[simp] theorem setStreamVol_streamEn (k : Stream) (v : F32) :
    (s.setStreamVol k v).streamEn = s.streamEn := rfl
@[simp] theorem setStreamVol_outVol (k : Stream) (v : F32) :
    (s.setStreamVol k v).outVol = s.outVol := rfl
@[simp] theorem setStreamVol_pilotVol (k : Stream) (v : F32) :
    (s.setStreamVol k v).pilotVol = s.pilotVol := rfl
@[simp] theorem setStreamVol_streamVol (k : Stream) (v : F32) :
    (s.setStreamVol k v).streamVol = s.streamVol.set k v := rfl
@[simp] theorem setStreamVol_osc (k : Stream) (v : F32) : (s.setStreamVol k v).osc = s.osc := rfl
@[simp] theorem setStreamVol_oscillator (k : Stream) (v : F32) (j : OscId) :
    (s.setStreamVol k v).oscillator j = s.oscillator j := rfl
@[simp] theorem setStreamVol_mods (k : Stream) (v : F32) : (s.setStreamVol k v).mods = s.mods := rfl
@[simp] theorem setStreamVol_mod (k : Stream) (v : F32) (j : Stream) :
    (s.setStreamVol k v).mod j = s.mod j := rfl
@[simp] theorem setStreamVol_hostIn (k : Stream) (v : F32) :
    (s.setStreamVol k v).hostIn = s.hostIn := rfl
@[simp] theorem setStreamVol_groupIn (k : Stream) (v : F32) :
    (s.setStreamVol k v).groupIn = s.groupIn := rfl
@[simp] theorem setStreamVol_groups (k : Stream) (v : F32) (j : Stream) :
    (s.setStreamVol k v).groups j = s.groups j := rfl
@[simp] theorem setStreamVol_out (k : Stream) (v : F32) : (s.setStreamVol k v).out = s.out := rfl
@[simp] theorem setStreamVol_freeIndex (k : Stream) (v : F32) :
    (s.setStreamVol k v).freeIndex = s.freeIndex := rfl
@[simp] theorem setStreamVol_halted (k : Stream) (v : F32) :
    (s.setStreamVol k v).halted = s.halted := rfl
@[simp] theorem setStreamVol_enabled (k : Stream) (v : F32) (j : Stream) :
    (s.setStreamVol k v).enabled j = s.enabled j := rfl

/-! ### setGroups -/

@[simp] theorem setGroups_params (k : Stream) (as : List (Option Group)) :
    (s.setGroups k as).params = s.params := rfl
@[simp] theorem setGroups_status (k : Stream) (as : List (Option Group)) :
    (s.setGroups k as).status = s.status := rfl
@[simp] theorem setGroups_streamEn (k : Stream) (as : List (Option Group)) :
    (s.setGroups k as).streamEn = s.streamEn := rfl
@[simp] theorem setGroups_outVol (k : Stream) (as : List (Option Group)) :
    (s.setGroups k as).outVol = s.outVol := rfl
@[simp] theorem setGroups_pilotVol (k : Stream) (as : List (Option Group)) :
    (s.setGroups k as).pilotVol = s.pilotVol := rfl
@[simp] theorem setGroups_streamVol (k : Stream) (as : List (Option Group)) :
    (s.setGroups k as).streamVol = s.streamVol := rfl
@[simp] theorem setGroups_level (k : Stream) (as : List (Option Group)) (j : Stream) :
    (s.setGroups k as).level j = s.level j := rfl
@[simp] theorem setGroups_osc (k : Stream) (as : List (Option Group)) :
    (s.setGroups k as).osc = s.osc := rfl
@[simp] theorem setGroups_oscillator (k : Stream) (as : List (Option Group)) (j : OscId) :
    (s.setGroups k as).oscillator j = s.oscillator j := rfl
@[simp] theorem setGroups_mods (k : Stream) (as : List (Option Group)) :
    (s.setGroups k as).mods = s.mods := rfl
@[simp] theorem setGroups_mod (k : Stream) (as : List (Option Group)) (j : Stream) :
    (s.setGroups k as).mod j = s.mod j := rfl
@[simp] theorem setGroups_hostIn (k : Stream) (as : List (Option Group)) :
    (s.setGroups k as).hostIn = s.hostIn := rfl
@[simp] theorem setGroups_groupIn (k : Stream) (as : List (Option Group)) :
    (s.setGroups k as).groupIn = s.groupIn.set k as := rfl
@[simp] theorem setGroups_out (k : Stream) (as : List (Option Group)) :
    (s.setGroups k as).out = s.out := rfl
@[simp] theorem setGroups_freeIndex (k : Stream) (as : List (Option Group)) :
    (s.setGroups k as).freeIndex = s.freeIndex := rfl
@[simp] theorem setGroups_halted (k : Stream) (as : List (Option Group)) :
    (s.setGroups k as).halted = s.halted := rfl
@[simp] theorem setGroups_enabled (k : Stream) (as : List (Option Group)) (j : Stream) :
    (s.setGroups k as).enabled j = s.enabled j := rfl

/-! ### emit -/

@[simp] theorem emit_params (o : Output) : (s.emit o).params = s.params := rfl
@[simp] theorem emit_status (o : Output) : (s.emit o).status = s.status := rfl
@[simp] theorem emit_streamEn (o : Output) : (s.emit o).streamEn = s.streamEn := rfl
@[simp] theorem emit_outVol (o : Output) : (s.emit o).outVol = s.outVol := rfl
@[simp] theorem emit_pilotVol (o : Output) : (s.emit o).pilotVol = s.pilotVol := rfl
@[simp] theorem emit_streamVol (o : Output) : (s.emit o).streamVol = s.streamVol := rfl
@[simp] theorem emit_level (o : Output) (j : Stream) : (s.emit o).level j = s.level j := rfl
@[simp] theorem emit_osc (o : Output) : (s.emit o).osc = s.osc := rfl
@[simp] theorem emit_oscillator (o : Output) (j : OscId) :
    (s.emit o).oscillator j = s.oscillator j := rfl
@[simp] theorem emit_mods (o : Output) : (s.emit o).mods = s.mods := rfl
@[simp] theorem emit_mod (o : Output) (j : Stream) : (s.emit o).mod j = s.mod j := rfl
@[simp] theorem emit_hostIn (o : Output) : (s.emit o).hostIn = s.hostIn := rfl
@[simp] theorem emit_groupIn (o : Output) : (s.emit o).groupIn = s.groupIn := rfl
@[simp] theorem emit_groups (o : Output) (j : Stream) : (s.emit o).groups j = s.groups j := rfl
@[simp] theorem emit_out (o : Output) : (s.emit o).out = s.out ++ [o] := rfl
@[simp] theorem emit_freeIndex (o : Output) : (s.emit o).freeIndex = s.freeIndex := rfl
@[simp] theorem emit_halted (o : Output) : (s.emit o).halted = s.halted := rfl
@[simp] theorem emit_enabled (o : Output) (j : Stream) : (s.emit o).enabled j = s.enabled j := rfl

/-! ### raise -/

@[simp] theorem raise_params (c : Cause) (info : BitVec 8) :
    (s.raise c info).params = s.params := rfl
@[simp] theorem raise_status (c : Cause) (info : BitVec 8) :
    (s.raise c info).status = s.status.raise c info := rfl
@[simp] theorem raise_streamEn (c : Cause) (info : BitVec 8) :
    (s.raise c info).streamEn = s.streamEn := rfl
@[simp] theorem raise_outVol (c : Cause) (info : BitVec 8) :
    (s.raise c info).outVol = s.outVol := rfl
@[simp] theorem raise_pilotVol (c : Cause) (info : BitVec 8) :
    (s.raise c info).pilotVol = s.pilotVol := rfl
@[simp] theorem raise_streamVol (c : Cause) (info : BitVec 8) :
    (s.raise c info).streamVol = s.streamVol := rfl
@[simp] theorem raise_level (c : Cause) (info : BitVec 8) (j : Stream) :
    (s.raise c info).level j = s.level j := rfl
@[simp] theorem raise_osc (c : Cause) (info : BitVec 8) : (s.raise c info).osc = s.osc := rfl
@[simp] theorem raise_oscillator (c : Cause) (info : BitVec 8) (j : OscId) :
    (s.raise c info).oscillator j = s.oscillator j := rfl
@[simp] theorem raise_mods (c : Cause) (info : BitVec 8) : (s.raise c info).mods = s.mods := rfl
@[simp] theorem raise_mod (c : Cause) (info : BitVec 8) (j : Stream) :
    (s.raise c info).mod j = s.mod j := rfl
@[simp] theorem raise_hostIn (c : Cause) (info : BitVec 8) :
    (s.raise c info).hostIn = s.hostIn := rfl
@[simp] theorem raise_groupIn (c : Cause) (info : BitVec 8) :
    (s.raise c info).groupIn = s.groupIn := rfl
@[simp] theorem raise_groups (c : Cause) (info : BitVec 8) (j : Stream) :
    (s.raise c info).groups j = s.groups j := rfl
@[simp] theorem raise_out (c : Cause) (info : BitVec 8) : (s.raise c info).out = s.out := rfl
@[simp] theorem raise_freeIndex (c : Cause) (info : BitVec 8) :
    (s.raise c info).freeIndex = s.freeIndex := rfl
@[simp] theorem raise_enabled (c : Cause) (info : BitVec 8) (j : Stream) :
    (s.raise c info).enabled j = s.enabled j := rfl

/-! ### modReset -/

@[simp] theorem modReset_params (k : Stream) : (s.modReset k).params = s.params := rfl
@[simp] theorem modReset_status (k : Stream) : (s.modReset k).status = s.status := rfl
@[simp] theorem modReset_streamEn (k : Stream) : (s.modReset k).streamEn = s.streamEn := rfl
@[simp] theorem modReset_outVol (k : Stream) : (s.modReset k).outVol = s.outVol := rfl
@[simp] theorem modReset_pilotVol (k : Stream) : (s.modReset k).pilotVol = s.pilotVol := rfl
@[simp] theorem modReset_streamVol (k : Stream) : (s.modReset k).streamVol = s.streamVol := rfl
@[simp] theorem modReset_level (k : Stream) (j : Stream) : (s.modReset k).level j = s.level j := rfl
@[simp] theorem modReset_osc (k : Stream) : (s.modReset k).osc = s.osc := rfl
@[simp] theorem modReset_oscillator (k : Stream) (j : OscId) :
    (s.modReset k).oscillator j = s.oscillator j := rfl
@[simp] theorem modReset_mods (k : Stream) :
    (s.modReset k).mods = s.mods.set k (freshCtx s.params) := rfl
@[simp] theorem modReset_hostIn (k : Stream) : (s.modReset k).hostIn = s.hostIn := rfl
@[simp] theorem modReset_groupIn (k : Stream) : (s.modReset k).groupIn = s.groupIn := rfl
@[simp] theorem modReset_groups (k : Stream) (j : Stream) :
    (s.modReset k).groups j = s.groups j := rfl
@[simp] theorem modReset_out (k : Stream) : (s.modReset k).out = s.out := rfl
@[simp] theorem modReset_freeIndex (k : Stream) : (s.modReset k).freeIndex = s.freeIndex := rfl
@[simp] theorem modReset_halted (k : Stream) : (s.modReset k).halted = s.halted := rfl
@[simp] theorem modReset_enabled (k : Stream) (j : Stream) :
    (s.modReset k).enabled j = s.enabled j := rfl

/-! ### requestGroup -/

@[simp] theorem requestGroup_params (k : Stream) : (s.requestGroup k).2.params = s.params := rfl
@[simp] theorem requestGroup_status (k : Stream) : (s.requestGroup k).2.status = s.status := rfl
@[simp] theorem requestGroup_streamEn (k : Stream) :
    (s.requestGroup k).2.streamEn = s.streamEn := rfl
@[simp] theorem requestGroup_outVol (k : Stream) : (s.requestGroup k).2.outVol = s.outVol := rfl
@[simp] theorem requestGroup_pilotVol (k : Stream) :
    (s.requestGroup k).2.pilotVol = s.pilotVol := rfl
@[simp] theorem requestGroup_streamVol (k : Stream) :
    (s.requestGroup k).2.streamVol = s.streamVol := rfl
@[simp] theorem requestGroup_level (k : Stream) (j : Stream) :
    (s.requestGroup k).2.level j = s.level j := rfl
@[simp] theorem requestGroup_osc (k : Stream) : (s.requestGroup k).2.osc = s.osc := rfl
@[simp] theorem requestGroup_oscillator (k : Stream) (j : OscId) :
    (s.requestGroup k).2.oscillator j = s.oscillator j := rfl
@[simp] theorem requestGroup_mods (k : Stream) : (s.requestGroup k).2.mods = s.mods := rfl
@[simp] theorem requestGroup_mod (k : Stream) (j : Stream) :
    (s.requestGroup k).2.mod j = s.mod j := rfl
@[simp] theorem requestGroup_hostIn (k : Stream) : (s.requestGroup k).2.hostIn = s.hostIn := rfl
@[simp] theorem requestGroup_groupIn (k : Stream) :
    (s.requestGroup k).2.groupIn = s.groupIn.set k (s.groups k).tail := rfl
@[simp] theorem requestGroup_out (k : Stream) :
    (s.requestGroup k).2.out = s.out ++ [.groupRequest k] := rfl
@[simp] theorem requestGroup_freeIndex (k : Stream) :
    (s.requestGroup k).2.freeIndex = s.freeIndex := rfl
@[simp] theorem requestGroup_halted (k : Stream) : (s.requestGroup k).2.halted = s.halted := rfl
@[simp] theorem requestGroup_enabled (k : Stream) (j : Stream) :
    (s.requestGroup k).2.enabled j = s.enabled j := rfl

/-! ### advanceOscs -/

@[simp] theorem advanceOscs_params : s.advanceOscs.params = s.params := rfl
@[simp] theorem advanceOscs_status : s.advanceOscs.status = s.status := rfl
@[simp] theorem advanceOscs_streamEn : s.advanceOscs.streamEn = s.streamEn := rfl
@[simp] theorem advanceOscs_outVol : s.advanceOscs.outVol = s.outVol := rfl
@[simp] theorem advanceOscs_pilotVol : s.advanceOscs.pilotVol = s.pilotVol := rfl
@[simp] theorem advanceOscs_streamVol : s.advanceOscs.streamVol = s.streamVol := rfl
@[simp] theorem advanceOscs_level (j : Stream) : s.advanceOscs.level j = s.level j := rfl
@[simp] theorem advanceOscs_osc :
    s.advanceOscs.osc = perOsc fun k => oscAdvance (s.oscillator k) := rfl
@[simp] theorem advanceOscs_mods : s.advanceOscs.mods = s.mods := rfl
@[simp] theorem advanceOscs_mod (j : Stream) : s.advanceOscs.mod j = s.mod j := rfl
@[simp] theorem advanceOscs_hostIn : s.advanceOscs.hostIn = s.hostIn := rfl
@[simp] theorem advanceOscs_groupIn : s.advanceOscs.groupIn = s.groupIn := rfl
@[simp] theorem advanceOscs_groups (j : Stream) : s.advanceOscs.groups j = s.groups j := rfl
@[simp] theorem advanceOscs_out : s.advanceOscs.out = s.out := rfl
@[simp] theorem advanceOscs_freeIndex : s.advanceOscs.freeIndex = s.freeIndex := rfl
@[simp] theorem advanceOscs_halted : s.advanceOscs.halted = s.halted := rfl
@[simp] theorem advanceOscs_enabled (j : Stream) : s.advanceOscs.enabled j = s.enabled j := rfl

@[simp] theorem raise_halted (c : Cause) (info : BitVec 8) :
    (s.raise c info).halted = (s.halted || c.fatal) := rfl

/-! ### Reading the entry that an update wrote, or another one -/

theorem getElem_set_fin {α : Type} {n : Nat} (v : Vector α n) (j k : Fin n) (x : α) :
    (v.set k x)[j] = if j = k then x else v[j] := by
  have h : (k.val = j.val) ↔ (j = k) := ⟨fun e => Fin.ext e.symm, fun e => by rw [e]⟩
  simp only [Fin.getElem_fin, Vector.getElem_set, h]

@[simp] theorem getElem_perStream {α : Type} (f : Stream → α) (k : Stream) :
    (perStream f)[k] = f k := by
  fin_cases k <;> rfl

@[simp] theorem getElem_perOsc {α : Type} (f : OscId → α) (k : OscId) : (perOsc f)[k] = f k := by
  fin_cases k <;> rfl

theorem setMod_mod (j k : Stream) (m : ModCtx) :
    (s.setMod k m).mod j = if j = k then m else s.mod j := getElem_set_fin _ j k m

theorem setOsc_oscillator (j k : OscId) (o : Osc) :
    (s.setOsc k o).oscillator j = if j = k then o else s.oscillator j := getElem_set_fin _ j k o

theorem setStreamVol_level (j k : Stream) (v : F32) :
    (s.setStreamVol k v).level j = if j = k then v else s.level j := getElem_set_fin _ j k v

theorem setGroups_groups (j k : Stream) (as : List (Option Group)) :
    (s.setGroups k as).groups j = if j = k then as else s.groups j := getElem_set_fin _ j k as

theorem modReset_mod (j k : Stream) :
    (s.modReset k).mod j = if j = k then freshCtx s.params else s.mod j := setMod_mod s j k _

theorem requestGroup_groups (j k : Stream) :
    (s.requestGroup k).2.groups j = if j = k then (s.groups k).tail else s.groups j :=
  setGroups_groups s j k _

@[simp] theorem setMod_mod_self (k : Stream) (m : ModCtx) : (s.setMod k m).mod k = m := by
  simp [setMod_mod]

@[simp] theorem setOsc_oscillator_self (k : OscId) (o : Osc) :
    (s.setOsc k o).oscillator k = o := by
  simp [setOsc_oscillator]

@[simp] theorem setStreamVol_level_self (k : Stream) (v : F32) :
    (s.setStreamVol k v).level k = v := by
  simp [setStreamVol_level]

@[simp] theorem requestGroup_answer (k : Stream) :
    (s.requestGroup k).1 = (s.groups k).head?.join := rfl

@[simp] theorem advanceOscs_oscillator (k : OscId) :
    s.advanceOscs.oscillator k = oscAdvance (s.oscillator k) :=
  getElem_perOsc (fun k => oscAdvance (s.oscillator k)) k

/-! ### The power-on state -/

@[simp] theorem resetWith_mod (p : Params) (k : Stream) :
    (State.resetWith p).mod k = freshCtx p := getElem_perStream (fun _ => freshCtx p) k

@[simp] theorem resetWith_oscillator (p : Params) (k : OscId) :
    (State.resetWith p).oscillator k = builtOsc p (oscDefault k) :=
  getElem_perOsc (fun k => builtOsc p (oscDefault k)) k

@[simp] theorem resetWith_level (p : Params) (k : Stream) :
    (State.resetWith p).level k = F32.zero := getElem_perStream (fun _ => F32.zero) k

@[simp] theorem resetWith_groups (p : Params) (k : Stream) :
    (State.resetWith p).groups k = [] := getElem_perStream (fun _ => []) k

/-! ### Two vectors are equal when they agree at every stream or oscillator -/

theorem streams_ext {α : Type} {v v' : Vector α 4} (h : ∀ k : Stream, v[k] = v'[k]) : v = v' := by
  ext i hi
  exact h ⟨i, hi⟩

theorem oscs_ext {α : Type} {v v' : Vector α 5} (h : ∀ k : OscId, v[k] = v'[k]) : v = v' := by
  ext i hi
  exact h ⟨i, hi⟩

end Sys2Proof.Machine
end

