-- ==== Sys2Proof/Laws/Ops.lean ====
section
/-!
SUPPORT. What each shared operation over State can do, said once.
-/

namespace Sys2Proof.Machine

/-- OscBuild either fits and replaces the oscillator, or does not fit and records E_OSC_ALLOC
(42_oscillator.md R150). -/
theorem oscBuild_cases (s : State) (k : OscId) (f : Word) :
    (tableLen s.params.sr f.toNat ≤ s.params.oscCap ∧
        s.oscBuild k f = s.setOsc k (builtOsc s.params f)) ∨
      (s.params.oscCap < tableLen s.params.sr f.toNat ∧
        s.oscBuild k f = s.raise .oscAlloc (BitVec.ofNat 8 k.val)) := by
  unfold State.oscBuild
  split
  · exact .inr ⟨by assumption, rfl⟩
  · exact .inl ⟨by omega, rfl⟩

/-- A default oscillator always fits (70_reset_and_hazards.md R253). -/
theorem oscBuild_default (s : State) (j k : OscId) :
    s.oscBuild j (oscDefault k) = s.setOsc j (builtOsc s.params (oscDefault k)) := by
  rcases oscBuild_cases s j (oscDefault k) with h | h
  · exact h.2
  · exact absurd (s.params.default_fits k) (by omega)

/-- A vector of five whose every entry has been replaced. -/
theorem set_all_oscs {α : Type} (v : Vector α 5) (f : OscId → α) :
    ((((v.set (0 : OscId) (f 0)).set (1 : OscId) (f 1)).set (2 : OscId) (f 2)).set (3 : OscId)
      (f 3)).set (4 : OscId) (f 4) = perOsc f := by
  apply oscs_ext
  intro k
  simp only [getElem_set_fin, getElem_perOsc]
  fin_cases k <;> simp

/-- A vector of four whose every entry has been replaced. -/
theorem set_all_streams {α : Type} (v : Vector α 4) (f : Stream → α) :
    (((v.set (0 : Stream) (f 0)).set (1 : Stream) (f 1)).set (2 : Stream) (f 2)).set (3 : Stream)
      (f 3) = perStream f := by
  apply streams_ext
  intro k
  simp only [getElem_set_fin, getElem_perStream]
  fin_cases k <;> simp

/-- BlockReset gives the power-on state of the same configuration, on the ports as they are
(70_reset_and_hazards.md R250). -/
theorem blockReset_eq (s : State) :
    s.blockReset =
      { State.resetWith s.params with
        hostIn := s.hostIn, groupIn := s.groupIn, out := s.out, freeIndex := s.freeIndex } := by
  simp only [State.blockReset, oscBuild_default]
  simp only [State.modReset, State.setMod, State.setOsc, State.resetWith]
  congr 1
  · exact set_all_oscs _ fun k => builtOsc s.params (oscDefault k)
  · exact set_all_streams _ fun _ => freshCtx s.params

/-- Every number of the map names its register, and every other number none (10_state.md R20, R33). -/
theorem regOf_none_iff (n : BitVec 8) :
    regOf n = none ↔ (0x0D ≤ n.toNat ∧ n.toNat ≤ 0x0F) ∨ (0x15 ≤ n.toNat ∧ n.toNat ≤ 0x17) ∨
      (0x1D ≤ n.toNat ∧ n.toNat ≤ 0x1F) ∨ 0x28 ≤ n.toNat := by
  revert n; decide

end Sys2Proof.Machine
end

