-- ==== Sys2Proof/Laws/Modulator.lean ====
section
/-!
SUPPORT. What a call of ModStep and a pass over the streams can do, said once.
-/

namespace Sys2Proof.Machine

/-! ### Small lemmas of the phases -/

@[simp] theorem sampleOf_countSample (p : Params) (m : ModCtx) :
    sampleOf p (countSample m) = sampleOf p m := rfl

@[simp] theorem clearRead_countSample (p : Params) (m : ModCtx) :
    clearRead p (countSample m) =
      { m with
        sampleCount := m.sampleCount + 1
        acc := accWrite m.acc m.r F32.zero
        r := (m.r + 1) % p.accLen } := rfl

theorem finishStep_eq (s : State) (k : Stream) (m : ModCtx) :
    finishStep s k m =
      .sample (sampleOf s.params m) (s.setMod k (clearRead s.params (countSample m))) := rfl

/-! ### One call of ModStep -/

/-- What a call of ModStep does, by its three cases: no boundary (41_modulator.md R131), a boundary
inside a group, a boundary that asks for a group (R133). -/
theorem modStep_cases (s : State) (k : Stream) :
    ((s.mod k).sampleCount ≠ s.params.spb ∧ modStep s k = finishStep s k (s.mod k)) ∨
    ((s.mod k).sampleCount = s.params.spb ∧ (s.mod k).bitPos ≠ 104 ∧
      modStep s k = finishStep s k (boundary s.params s.freeIndex k (s.mod k))) ∨
    ((s.mod k).sampleCount = s.params.spb ∧ (s.mod k).bitPos = 104 ∧
      (((s.groups k).head?.join = none ∧ modStep s k = .underrun (s.requestGroup k).2) ∨
        ∃ g, (s.groups k).head?.join = some g ∧
          modStep s k = finishStep (s.requestGroup k).2 k
            (boundary s.params s.freeIndex k (loadGroup s.params k g (s.mod k))))) := by
  by_cases hs : (s.mod k).sampleCount = s.params.spb
  · by_cases hb : (s.mod k).bitPos = 104
    · refine .inr (.inr ⟨hs, hb, ?_⟩)
      cases hg : (s.groups k).head?.join with
      | none => exact .inl ⟨rfl, by simp only [modStep, hs, hb, if_true, State.requestGroup, hg]⟩
      | some g =>
        exact .inr ⟨g, rfl, by simp only [modStep, hs, hb, if_true, State.requestGroup, hg]⟩
    · exact .inr (.inl ⟨hs, hb, by simp only [modStep, hs, hb, if_true, if_false]⟩)
  · exact .inl ⟨hs, by simp only [modStep, hs, if_false]⟩

/-- Two states that differ at most in contexts and ports of streams satisfying `P`, and in requests of
such streams appended to the output. -/
structure SameBut (P : Stream → Prop) (s t : State) : Prop where
  params_eq : t.params = s.params
  status_eq : t.status = s.status
  streamEn_eq : t.streamEn = s.streamEn
  outVol_eq : t.outVol = s.outVol
  pilotVol_eq : t.pilotVol = s.pilotVol
  streamVol_eq : t.streamVol = s.streamVol
  osc_eq : t.osc = s.osc
  hostIn_eq : t.hostIn = s.hostIn
  freeIndex_eq : t.freeIndex = s.freeIndex
  mods_eq : ∀ j, ¬ P j → t.mod j = s.mod j
  groupIn_eq : ∀ j, ¬ P j → t.groups j = s.groups j
  out_eq : ∃ js : List Stream, (∀ j ∈ js, P j) ∧ t.out = s.out ++ js.map .groupRequest

theorem SameBut.refl (P : Stream → Prop) (s : State) : SameBut P s s :=
  ⟨rfl, rfl, rfl, rfl, rfl, rfl, rfl, rfl, rfl, fun _ _ => rfl, fun _ _ => rfl,
    ⟨[], by simp, by simp⟩⟩

theorem SameBut.trans {P : Stream → Prop} {s t u : State} (h : SameBut P s t)
    (h' : SameBut P t u) : SameBut P s u where
  params_eq := h'.params_eq.trans h.params_eq
  status_eq := h'.status_eq.trans h.status_eq
  streamEn_eq := h'.streamEn_eq.trans h.streamEn_eq
  outVol_eq := h'.outVol_eq.trans h.outVol_eq
  pilotVol_eq := h'.pilotVol_eq.trans h.pilotVol_eq
  streamVol_eq := h'.streamVol_eq.trans h.streamVol_eq
  osc_eq := h'.osc_eq.trans h.osc_eq
  hostIn_eq := h'.hostIn_eq.trans h.hostIn_eq
  freeIndex_eq := h'.freeIndex_eq.trans h.freeIndex_eq
  mods_eq := fun j hj => (h'.mods_eq j hj).trans (h.mods_eq j hj)
  groupIn_eq := fun j hj => (h'.groupIn_eq j hj).trans (h.groupIn_eq j hj)
  out_eq := by
    obtain ⟨js, hjs, ho⟩ := h.out_eq
    obtain ⟨js', hjs', ho'⟩ := h'.out_eq
    refine ⟨js ++ js', ?_, by simp [ho, ho']⟩
    intro j hj
    rcases List.mem_append.mp hj with hj | hj
    · exact hjs j hj
    · exact hjs' j hj

theorem SameBut.mono {P Q : Stream → Prop} {s t : State} (h : SameBut P s t)
    (hPQ : ∀ j, P j → Q j) : SameBut Q s t where
  params_eq := h.params_eq
  status_eq := h.status_eq
  streamEn_eq := h.streamEn_eq
  outVol_eq := h.outVol_eq
  pilotVol_eq := h.pilotVol_eq
  streamVol_eq := h.streamVol_eq
  osc_eq := h.osc_eq
  hostIn_eq := h.hostIn_eq
  freeIndex_eq := h.freeIndex_eq
  mods_eq := fun j hj => h.mods_eq j fun hp => hj (hPQ j hp)
  groupIn_eq := fun j hj => h.groupIn_eq j fun hp => hj (hPQ j hp)
  out_eq := by
    obtain ⟨js, hjs, ho⟩ := h.out_eq
    exact ⟨js, fun j hj => hPQ j (hjs j hj), ho⟩

theorem SameBut.enabled_eq {P : Stream → Prop} {s t : State} (h : SameBut P s t) (j : Stream) :
    t.enabled j = s.enabled j := by
  simp [State.enabled, h.params_eq, h.streamEn_eq]

theorem sameBut_setMod (s : State) (k : Stream) (m : ModCtx) :
    SameBut (fun j => j = k) s (s.setMod k m) :=
  ⟨rfl, rfl, rfl, rfl, rfl, rfl, rfl, rfl, rfl, fun _ hj => by rw [setMod_mod, if_neg hj],
    fun _ _ => rfl, ⟨[], by simp, by simp⟩⟩

theorem sameBut_requestGroup (s : State) (k : Stream) :
    SameBut (fun j => j = k) s (s.requestGroup k).2 :=
  ⟨rfl, rfl, rfl, rfl, rfl, rfl, rfl, rfl, rfl, fun _ _ => rfl,
    fun _ hj => by rw [requestGroup_groups, if_neg hj], ⟨[k], by simp, by simp⟩⟩

/-- The state that a result carries. -/
def ModResult.state : ModResult → State
  | .sample _ s => s
  | .underrun s => s

/-- ModStep touches nothing but the context and the port of its stream (41_modulator.md R130, "State
written"). -/
theorem modStep_sameBut (s : State) (k : Stream) :
    SameBut (fun j => j = k) s (modStep s k).state := by
  rcases modStep_cases s k with ⟨-, h⟩ | ⟨-, -, h⟩ | ⟨-, -, h | ⟨g, -, h⟩⟩
  · rw [h]; exact sameBut_setMod s k _
  · rw [h]; exact sameBut_setMod s k _
  · rw [h.2]; exact sameBut_requestGroup s k
  · rw [h]; exact (sameBut_requestGroup s k).trans (sameBut_setMod _ k _)

/-! ### A pass over the streams -/

/-- The state that a pass carries. -/
def Pass.state : Pass → State
  | .done _ s => s
  | .underrun _ s => s

@[simp] theorem withSample_state (k : Stream) (y : F32) (r : Pass) :
    (r.withSample k y).state = r.state := by
  cases r <;> rfl

/-- A pass touches nothing but the contexts and ports of the active streams in its list
(43_mixer.md R171). -/
theorem stepStreams_sameBut (ks : List Stream) (s : State) :
    SameBut (fun j => j ∈ ks ∧ s.enabled j = true) s (stepStreams ks s).state := by
  induction ks generalizing s with
  | nil => exact SameBut.refl _ s
  | cons k rest ih =>
    unfold stepStreams
    split
    · rename_i hk
      have hm : SameBut (fun j => j ∈ k :: rest ∧ s.enabled j = true) s (modStep s k).state :=
        (modStep_sameBut s k).mono fun j hj => by subst hj; simp [hk]
      split
      · rename_i s' heq
        rw [heq] at hm
        exact hm
      · rename_i y s' heq
        rw [heq] at hm
        rw [withSample_state]
        exact hm.trans ((ih s').mono fun j hj =>
          ⟨List.mem_cons_of_mem k hj.1, by rw [← hm.enabled_eq j]; exact hj.2⟩)
    · exact (ih s).mono fun j hj => ⟨List.mem_cons_of_mem k hj.1, hj.2⟩

/-- An underrun names an active stream of the list (43_mixer.md R171). -/
theorem stepStreams_underrun_mem {ks : List Stream} {s t : State} {k : Stream}
    (h : stepStreams ks s = .underrun k t) : k ∈ ks ∧ s.enabled k = true := by
  induction ks generalizing s with
  | nil => simp [stepStreams] at h
  | cons j rest ih =>
    unfold stepStreams at h
    split at h
    · rename_i hj
      split at h
      · simp only [Pass.underrun.injEq] at h
        exact ⟨by simp [h.1], by rw [← h.1]; exact hj⟩
      · rename_i y s' heq
        cases hr : stepStreams rest s' with
        | done samples u => simp [hr, Pass.withSample] at h
        | underrun j' u =>
          simp only [hr, Pass.withSample, Pass.underrun.injEq] at h
          obtain ⟨rfl, rfl⟩ := h
          have := ih hr
          have hsb := modStep_sameBut s j
          rw [heq] at hsb
          exact ⟨List.mem_cons_of_mem _ this.1, by rw [← hsb.enabled_eq]; exact this.2⟩
    · have := ih h
      exact ⟨List.mem_cons_of_mem _ this.1, this.2⟩

/-! ### The accumulator under the overlap-add -/

/-- The overlap-add keeps the canonical form (41_modulator.md R136). -/
theorem addShape_wf (tick : Nat) (k : Stream) {len : Nat} (hlen : 0 < len) (w : Nat) (neg : Bool)
    (shape : List F32) (i : Nat) {acc : AccMem} (h : accWf len acc = true) :
    accWf len (addShape tick k len w neg shape i acc) = true := by
  induction shape generalizing i acc with
  | nil => exact h
  | cons c rest ih => exact ih (i + 1) (accWrite_wf h (Nat.mod_lt _ hlen) _)

end Sys2Proof.Machine
end

