-- ==== Sys2Proof/Laws/Mixer.lean ====
section
/-!
SUPPORT. What a pass over the streams, a tick and a run of ticks can do, said once.
-/

namespace Sys2Proof.Machine

/-! ### One stream does not see another -/

/-- ModStep reads only the parameters, the free index, and the context and the port of its stream. -/
theorem modStep_local {s t : State} {k : Stream} (hp : t.params = s.params)
    (hf : t.freeIndex = s.freeIndex) (hm : t.mod k = s.mod k) (hg : t.groups k = s.groups k) :
    (∀ y s', modStep s k = .sample y s' →
      ∃ t', modStep t k = .sample y t' ∧ t'.mod k = s'.mod k ∧ t'.groups k = s'.groups k) ∧
    ∀ s', modStep s k = .underrun s' →
      ∃ t', modStep t k = .underrun t' ∧ t'.groups k = s'.groups k := by
  by_cases hs : (s.mod k).sampleCount = s.params.spb
  · by_cases hb : (s.mod k).bitPos = 104
    · cases ha : (s.groups k).head?.join with
      | none =>
        simp [modStep, hp, hm, hg, hs, hb, State.requestGroup, ha, setGroups_groups]
      | some g =>
        simp [modStep, hp, hf, hm, hg, hs, hb, State.requestGroup, ha, finishStep_eq,
          setGroups_groups]
    · simp [modStep, hp, hf, hm, hg, hs, hb, finishStep_eq]
  · simp [modStep, hp, hm, hg, hs, finishStep_eq]

/-- The answers left on the port and the requests made by one call (41_modulator.md R133): a request
exactly at a boundary with an exhausted buffer. -/
theorem modStep_ports (s : State) (k : Stream) :
    ((s.mod k).sampleCount = s.params.spb ∧ (s.mod k).bitPos = 104 →
      (modStep s k).state.groups k = (s.groups k).tail ∧
        (modStep s k).state.out = s.out ++ [.groupRequest k]) ∧
    (¬ ((s.mod k).sampleCount = s.params.spb ∧ (s.mod k).bitPos = 104) →
      (modStep s k).state.groups k = s.groups k ∧ (modStep s k).state.out = s.out) := by
  rcases modStep_cases s k with ⟨hs, h⟩ | ⟨hs, hb, h⟩ | ⟨hs, hb, h | ⟨g, -, h⟩⟩
  · rw [h, finishStep_eq]; simp [hs, ModResult.state]
  · rw [h, finishStep_eq]; simp [hs, hb, ModResult.state]
  · rw [h.2]; simp [hs, hb, ModResult.state, requestGroup_groups]
  · rw [h, finishStep_eq]; simp [hs, hb, ModResult.state, requestGroup_groups]

/-! ### A pass in which every active stream gives its sample -/

/-- Stream k's next call of ModStep asks for a group (41_modulator.md R131, R133). -/
def asksFor (s : State) (k : Stream) : Bool :=
  (s.mod k).sampleCount == s.params.spb && (s.mod k).bitPos == 104

theorem asksFor_iff (s : State) (k : Stream) :
    asksFor s k = true ↔ (s.mod k).sampleCount = s.params.spb ∧ (s.mod k).bitPos = 104 := by
  simp [asksFor]

/-- The ports after one call, by whether it asks (41_modulator.md R133). -/
theorem modStep_out (s : State) (k : Stream) :
    (modStep s k).state.out = s.out ++ (if asksFor s k then [.groupRequest k] else []) := by
  have h := modStep_ports s k
  by_cases ha : asksFor s k = true
  · simp [ha, (h.1 ((asksFor_iff s k).1 ha)).2]
  · simp [ha, (h.2 fun c => ha ((asksFor_iff s k).2 c)).2]

theorem modStep_groups (s : State) (k : Stream) :
    (modStep s k).state.groups k =
      if asksFor s k then (s.groups k).tail else s.groups k := by
  have h := modStep_ports s k
  by_cases ha : asksFor s k = true
  · simp [ha, (h.1 ((asksFor_iff s k).1 ha)).1]
  · simp [ha, (h.2 fun c => ha ((asksFor_iff s k).2 c)).1]

theorem SameBut.asksFor_eq {P : Stream → Prop} {s t : State} (h : SameBut P s t) {j : Stream}
    (hj : ¬ P j) : asksFor t j = asksFor s j := by
  simp [asksFor, h.params_eq, h.mods_eq j hj]

/-- A pass over streams each of which, if active, gives a sample: the samples are those of ModStep on
the state before the pass, one stream not disturbing another, and the requests are made in the order
of the list (43_mixer.md R171, R173). -/
theorem stepStreams_done {ks : List Stream} (hn : ks.Nodup) {s : State} {y : Stream → F32}
    {after : Stream → State}
    (h : ∀ k ∈ ks, s.enabled k = true → modStep s k = .sample (y k) (after k)) :
    ∃ s', stepStreams ks s = .done ((ks.filter fun k => s.enabled k).map fun k => (k, y k)) s' ∧
      (∀ k ∈ ks, s.enabled k = true →
        s'.mod k = (after k).mod k ∧ s'.groups k = (after k).groups k) ∧
      s'.out = s.out ++
        (ks.filter fun k => s.enabled k && asksFor s k).map Output.groupRequest := by
  induction ks generalizing s after with
  | nil => exact ⟨s, rfl, by simp, by simp⟩
  | cons k rest ih =>
    obtain ⟨hk, hrest⟩ := List.nodup_cons.mp hn
    by_cases he : s.enabled k = true
    · have hs := h k (by simp) he
      have hsb := modStep_sameBut s k
      have hout := modStep_out s k
      rw [hs] at hsb hout
      simp only [ModResult.state] at hsb hout
      have hne : ∀ j ∈ rest, ¬ j = k := fun j hj e => hk (e ▸ hj)
      have hstep : ∀ j ∈ rest, (after k).enabled j = true →
          ∃ t, modStep (after k) j = .sample (y j) t ∧ t.mod j = (after j).mod j ∧
            t.groups j = (after j).groups j := fun j hj hen =>
        (modStep_local hsb.params_eq hsb.freeIndex_eq (hsb.mods_eq j (hne j hj))
          (hsb.groupIn_eq j (hne j hj))).1 _ _
            (h j (List.mem_cons_of_mem k hj) (by rw [← hsb.enabled_eq]; exact hen))
      have hen : (fun j => (after k).enabled j) = fun j => s.enabled j := funext hsb.enabled_eq
      have hask : rest.filter (fun j => (after k).enabled j && asksFor (after k) j) =
          rest.filter fun j => s.enabled j && asksFor s j :=
        List.filter_congr fun j hj => by rw [hsb.enabled_eq, hsb.asksFor_eq (hne j hj)]
      obtain ⟨s', e, hmods, ho⟩ := ih hrest (s := after k)
        (after := fun j => (modStep (after k) j).state)
        (fun j hj hen => by
          obtain ⟨t, et, -, -⟩ := hstep j hj hen
          rw [et]; rfl)
      refine ⟨s', ?_, ?_, ?_⟩
      · simp [stepStreams, he, hs, e, Pass.withSample, hen]
      · intro j hj hje
        rcases List.mem_cons.mp hj with rfl | hj
        · have hrs := stepStreams_sameBut rest (after j)
          rw [e] at hrs
          exact ⟨hrs.mods_eq j fun c => hk c.1, hrs.groupIn_eq j fun c => hk c.1⟩
        · have hje' : (after k).enabled j = true := by rw [hsb.enabled_eq]; exact hje
          obtain ⟨t, et, em, eg⟩ := hstep j hj hje'
          have := hmods j hj hje'
          rw [et] at this
          exact ⟨this.1.trans em, this.2.trans eg⟩
      · rw [ho, hout, hask]
        by_cases ha : asksFor s k = true <;> simp [he, ha]
    · obtain ⟨s', e, hmods, ho⟩ := ih hrest fun j hj => h j (List.mem_cons_of_mem k hj)
      refine ⟨s', ?_, ?_, ?_⟩
      · simp [stepStreams, he, e]
      · intro j hj hje
        rcases List.mem_cons.mp hj with rfl | hj
        · exact absurd hje he
        · exact hmods j hj hje
      · rw [ho]
        simp [he]

/-- A pass that goes through a first part of its list and then stops (43_mixer.md R171). -/
theorem stepStreams_append {ks js : List Stream} {s s' : State} {samples : List (Stream × F32)}
    (h : stepStreams ks s = .done samples s') {k : Stream} {t : State}
    (ht : stepStreams js s' = .underrun k t) : stepStreams (ks ++ js) s = .underrun k t := by
  induction ks generalizing s samples with
  | nil =>
    simp only [stepStreams, Pass.done.injEq] at h
    rw [h.2]; exact ht
  | cons j rest ih =>
    simp only [stepStreams, List.cons_append] at h ⊢
    split at h
    · rename_i he
      rw [if_pos he]
      cases hm : modStep s j with
      | underrun u => simp [hm] at h
      | sample y u =>
        simp only [hm] at h ⊢
        cases hr : stepStreams rest u with
        | underrun j' u' => simp [hr, Pass.withSample] at h
        | done samples' u' =>
          simp only [hr, Pass.withSample, Pass.done.injEq] at h
          rw [ih (hr.trans (by rw [h.2]))]
          rfl
    · rename_i he
      rw [if_neg he]
      exact ih h

/-! ### The output value -/

/-- The output value reads the oscillators, the levels and the free index alone. -/
theorem outputValue_congr {s t : State} (ho : t.osc = s.osc) (hv : t.streamVol = s.streamVol)
    (hp : t.pilotVol = s.pilotVol) (hout : t.outVol = s.outVol) (hf : t.freeIndex = s.freeIndex)
    (samples : List (Stream × F32)) : outputValue t samples = outputValue s samples := by
  have hc : ∀ k, carrier t k = carrier s k := by
    intro k
    fin_cases k <;> simp [carrier, State.oscillator, ho]
  have hterm : addStreamTerm t = addStreamTerm s := by
    funext acc ky
    simp [addStreamTerm, hc, hf, State.level, hv]
  simp [outputValue, mixSum, pilotTerm, hterm, hf, hp, hout, State.oscillator, ho]

/-! ### Ticks -/

/-- What the body of a tick does: it emits one frame and advances every oscillator, or it records one
underrun (43_mixer.md R171, R176). In both cases nothing but the contexts and ports of active streams
changes besides. -/
theorem tickBody_cases (s : State) :
    (∃ samples s', stepStreams allStreams s = .done samples s' ∧
        SameBut (fun j => s.enabled j = true) s s' ∧ tickBody s = finishTick s' samples) ∨
      ∃ k s', stepStreams allStreams s = .underrun k s' ∧ s.enabled k = true ∧
        SameBut (fun j => s.enabled j = true) s s' ∧ tickBody s = underrunTick s k s' := by
  have h : SameBut (fun j => s.enabled j = true) s (stepStreams allStreams s).state :=
    (stepStreams_sameBut allStreams s).mono fun _ hj => hj.2
  unfold tickBody
  cases hr : stepStreams allStreams s with
  | done samples s' => exact .inl ⟨samples, s', rfl, by simpa [hr, Pass.state] using h, rfl⟩
  | underrun k s' =>
    exact .inr ⟨k, s', rfl, (stepStreams_underrun_mem hr).2, by simpa [hr, Pass.state] using h, rfl⟩

@[simp] theorem tickBody_params (s : State) : (tickBody s).params = s.params := by
  rcases tickBody_cases s with ⟨samples, s', -, h, e⟩ | ⟨k, s', -, -, h, e⟩
  · simp [e, finishTick, h.params_eq]
  · simp [e, underrunTick]

@[simp] theorem tickBody_streamEn (s : State) : (tickBody s).streamEn = s.streamEn := by
  rcases tickBody_cases s with ⟨samples, s', -, h, e⟩ | ⟨k, s', -, -, h, e⟩
  · simp [e, finishTick, h.streamEn_eq]
  · simp [e, underrunTick]

@[simp] theorem tickBody_enabled (s : State) (k : Stream) : (tickBody s).enabled k = s.enabled k := by
  simp [State.enabled]

/-- A run of ticks keeps what every tick keeps (43_mixer.md R177). -/
theorem tickTimes_induct {P : State → Prop} (h : ∀ s, P s → P (tickBody s)) (n : Nat) (s : State)
    (hs : P s) : P (tickTimes n s) := by
  induction n generalizing s with
  | zero => exact hs
  | succ n ih =>
    unfold tickTimes
    split
    · exact hs
    · exact ih _ (h s hs)

theorem tickTimes_halted {s : State} (h : s.halted = true) (n : Nat) : tickTimes n s = s := by
  cases n <;> simp [tickTimes, h]

@[simp] theorem tickTimes_params (n : Nat) (s : State) : (tickTimes n s).params = s.params :=
  tickTimes_induct (P := fun t => t.params = s.params) (fun t ht => by simp [ht]) n s rfl

@[simp] theorem tickTimes_streamEn (n : Nat) (s : State) : (tickTimes n s).streamEn = s.streamEn :=
  tickTimes_induct (P := fun t => t.streamEn = s.streamEn) (fun t ht => by simp [ht]) n s rfl

end Sys2Proof.Machine
end

