-- ==== Sys2Proof/Laws/Control.lean ====
section
/-!
SUPPORT. What a register write and a command can do, said once.
-/

namespace Sys2Proof.Machine

/-! ### Reading a natural -/

/-- A value that fits 32 bits reads as itself, whatever is read of one that does not (10_state.md R29,
R30). -/
theorem readNat_toNat (wide : Nat → Word) {n : Nat} (h : n < 2 ^ 32) : (readNat wide n).toNat = n := by
  rw [readNat, if_pos h, BitVec.toNat_ofNat]
  exact Nat.mod_eq_of_lt h

/-! ### Writing a level -/

theorem levelOk_refl {max : F32} (hs : F32.sign max = false) (hn : F32.isNaN max = false) :
    levelOk max max :=
  ⟨hs, by simp [F32.le, hn]⟩

/-- The clamp gives a value in [+0.0, max] (44_control.md R197). -/
theorem clampLevel_ok {v max : F32} (hs : F32.sign max = false) (hn : F32.isNaN max = false)
    (hz : F32.le F32.zero max = true) (hv : F32.isNaN v = false) : levelOk max (clampLevel v max) := by
  unfold clampLevel
  split
  · exact levelOk_refl hs hn
  · rename_i hmax
    split
    · exact ⟨rfl, hz⟩
    · rename_i hpos
      have hkey : F32.key F32.zero = 0 := rfl
      have hzn : F32.isNaN F32.zero = false := rfl
      simp only [F32.le, F32.lt, hv, hn, hzn, hkey, Bool.not_false, Bool.true_and,
        decide_eq_true_eq] at hmax hpos ⊢
      refine ⟨?_, by simp only [F32.le, hv, hn]; simp; omega⟩
      by_contra hc
      apply hpos
      simp only [F32.key, Bool.not_eq_false] at hc ⊢
      rw [if_pos hc]
      omega

/-- What a level operand can be: a NaN is refused, any other value is clamped (44_control.md R197). -/
theorem levelOperand_cases (data max : F32) :
    (F32.isNaN data = true ∧ levelOperand data max = none) ∨
      (F32.isNaN data = false ∧ levelOperand data max = some (clampLevel data max)) := by
  cases h : F32.isNaN data <;> simp [levelOperand, h]

theorem levelOperand_ok {data max v : F32} (hs : F32.sign max = false) (hn : F32.isNaN max = false)
    (hz : F32.le F32.zero max = true) (h : levelOperand data max = some v) : levelOk max v := by
  rcases levelOperand_cases data max with ⟨-, e⟩ | ⟨hv, e⟩ <;> rw [e] at h <;> cases h
  exact clampLevel_ok hs hn hz hv

/-! ### Writing a register -/

/-- Everything a WRREG that is not ignored can do (44_control.md R193, R196 to R200). -/
theorem writeReg_cases (s : State) (regno : BitVec 8) (data : Word) :
    writeReg s regno data = s.raise .operand regno ∨
      writeReg s regno data = writeStreamEn s data ∨
      (∃ v, levelOk F32.one v ∧ writeReg s regno data = { s with outVol := v }) ∨
      (∃ v, levelOk volMax v ∧ writeReg s regno data = { s with pilotVol := v }) ∨
      (∃ k v, levelOk volMax v ∧ writeReg s regno data = s.setStreamVol k v) ∨
      (∃ k, tableLen s.params.sr data.toNat ≤ s.params.oscCap ∧
        writeReg s regno data = s.setOsc k (builtOsc s.params data)) ∨
      ∃ k : OscId, s.params.oscCap < tableLen s.params.sr data.toNat ∧
        writeReg s regno data = s.raise .oscAlloc (BitVec.ofNat 8 k.val) := by
  have level : ∀ (max : F32) (store : F32 → State), F32.sign max = false →
      F32.isNaN max = false → F32.le F32.zero max = true →
      writeLevel s regno data max store = s.raise .operand regno ∨
        ∃ v, levelOk max v ∧ writeLevel s regno data max store = store v := by
    intro max store hs hn hz
    unfold writeLevel
    split
    · exact .inl rfl
    · rename_i v hv
      exact .inr ⟨v, levelOperand_ok hs hn hz hv, rfl⟩
  unfold writeReg
  split
  · exact .inr (.inl rfl)
  · rcases level F32.one (fun v => { s with outVol := v }) (by decide) (by decide) (by decide) with
      h | ⟨v, hv, h⟩
    · exact .inl h
    · exact .inr (.inr (.inl ⟨v, hv, h⟩))
  · rcases level volMax (fun v => { s with pilotVol := v }) (by decide) (by decide) (by decide) with
      h | ⟨v, hv, h⟩
    · exact .inl h
    · exact .inr (.inr (.inr (.inl ⟨v, hv, h⟩)))
  · rename_i k _
    rcases level volMax (fun v => s.setStreamVol k v) (by decide) (by decide) (by decide) with
      h | ⟨v, hv, h⟩
    · exact .inl h
    · exact .inr (.inr (.inr (.inr (.inl ⟨k, v, hv, h⟩))))
  · rename_i k _
    rcases oscBuild_cases s k data with ⟨hf, h⟩ | ⟨hf, h⟩
    · exact .inr (.inr (.inr (.inr (.inr (.inl ⟨k, hf, h⟩)))))
    · exact .inr (.inr (.inr (.inr (.inr (.inr ⟨k, hf, h⟩)))))
  all_goals exact .inl rfl

/-- A register write leaves the parameters, the ports and the free index (44_control.md R193, "State
written"). -/
theorem writeReg_frame (s : State) (regno : BitVec 8) (data : Word) :
    (writeReg s regno data).params = s.params ∧ (writeReg s regno data).hostIn = s.hostIn ∧
      (writeReg s regno data).groupIn = s.groupIn ∧ (writeReg s regno data).out = s.out ∧
      (writeReg s regno data).freeIndex = s.freeIndex := by
  rcases writeReg_cases s regno data with h | h | ⟨v, -, h⟩ | ⟨v, -, h⟩ | ⟨k, v, -, h⟩ | ⟨k, -, h⟩ |
    ⟨k, -, h⟩ <;> rw [h] <;> exact ⟨rfl, rfl, rfl, rfl, rfl⟩

/-! ### STATUS -/

/-- An error never clears a flag or HALTED (60_exceptions.md R222). -/
theorem raise_flag (st : Status) (c d : Cause) (info : BitVec 8) :
    (st.raise c info).flag d = (st.flag d || decide (d = c)) := by
  cases c <;> cases d <;> simp [Status.raise, Status.flag]

theorem Cause.code_ne_zero (c : Cause) : c.code ≠ 0#4 := by cases c <;> decide

@[simp] theorem clearStatus_flag (c : Cause) : clearStatus.flag c = false := by cases c <;> rfl

end Sys2Proof.Machine
end

