-- ==== Sys2Proof/Laws/Decode.lean ====
section
/-!
SUPPORT. The two halves of a command word, of a word put together from them, and the word from its
halves (30_encoding.md R80).
-/

namespace Sys2Proof

@[simp] theorem op_make (op : BitVec 8) (pl : BitVec 64) : (Cmd.make op pl).op = op := by
  apply BitVec.eq_of_getLsbD_eq
  intro i hi
  have h : ¬ 64 + i < 64 := by omega
  simp only [Cmd.op, Cmd.make, BitVec.getLsbD_extractLsb', BitVec.getLsbD_append, hi, h]
  simp

@[simp] theorem payload_make (op : BitVec 8) (pl : BitVec 64) :
    (Cmd.make op pl).payload = pl := by
  apply BitVec.eq_of_getLsbD_eq
  intro i hi
  simp only [Cmd.payload, Cmd.make, BitVec.getLsbD_extractLsb', BitVec.getLsbD_append]
  simp [hi]

@[simp] theorem make_halves (w : Cmd) : Cmd.make w.op w.payload = w := by
  apply BitVec.eq_of_getLsbD_eq
  intro i hi
  simp only [Cmd.op, Cmd.payload, Cmd.make, BitVec.getLsbD_append, BitVec.getLsbD_extractLsb']
  by_cases h : i < 64
  · simp [h]
  · have h1 : i - 64 < 8 := by omega
    have h2 : 64 + (i - 64) = i := by omega
    simp [h, h1, h2]

/-- What the decoder answers, by the halves of the word (30_encoding.md R84). -/
theorem decode_eq (w : Cmd) :
    decode w =
      match reservedMask w.op, selectInstr w.op w.payload with
      | some mask, some i =>
        if w.payload &&& mask = 0#64 then .legal i else .illegal (.reservedBits w.op)
      | _, _ => .illegal (.reservedOpcode w.op) := rfl

/-- An OP has a reserved mask exactly when it is one of the seven commands (30_encoding.md R83, R85). -/
theorem reservedMask_none_iff (op : BitVec 8) : reservedMask op = none ↔ 0x07 ≤ op.toNat := by
  revert op; decide

/-- An OP selects a command exactly when it has a reserved mask. -/
theorem selectInstr_none_iff (op : BitVec 8) (pl : BitVec 64) :
    selectInstr op pl = none ↔ reservedMask op = none := by
  unfold selectInstr reservedMask
  split <;> simp

end Sys2Proof
end

