-- ==== Sys2Proof/Laws/PerInstr.lean ====
section
/-!
SUPPORT. What holds of every command as syntax, one lemma per constructor of Instr.
-/

namespace Sys2Proof.Laws.ReservedBitsClear

/-- The word of a command has an OP of the opcode map and every reserved bit of that OP is 0
(30_encoding.md R83, R85). -/
def Statement (i : Instr) : Prop :=
  ∃ mask, reservedMask (encode i).op = some mask ∧ (encode i).payload &&& mask = 0#64

theorem nop : Statement .nop := ⟨_, rfl, by decide⟩

theorem enc (a b c d : BitVec 16) : Statement (.enc a b c d) :=
  ⟨0#64, by simp only [encode, op_make]; rfl, by simp⟩

theorem tick : Statement .tick := ⟨_, rfl, by decide⟩

theorem frames (count : BitVec 32) : Statement (.frames count) := by
  refine ⟨0xFFFFFFFF00000000#64, by simp only [encode, op_make]; rfl, ?_⟩
  rw [encode, payload_make]
  refine BitVec.eq_of_getLsbD_eq fun i hi => ?_
  simp only [BitVec.getLsbD_and, BitVec.getLsbD_append]
  interval_cases i <;> simp

theorem wrreg (regno : BitVec 8) (data : Word) : Statement (.wrreg regno data) := by
  refine ⟨0x00FFFFFF00000000#64, by simp only [encode, op_make]; rfl, ?_⟩
  rw [encode, payload_make]
  refine BitVec.eq_of_getLsbD_eq fun i hi => ?_
  simp only [BitVec.getLsbD_and, BitVec.getLsbD_append]
  interval_cases i <;> simp

theorem rdreg (regno : BitVec 8) : Statement (.rdreg regno) := by
  refine ⟨0x00FFFFFFFFFFFFFF#64, by simp only [encode, op_make]; rfl, ?_⟩
  rw [encode, payload_make]
  refine BitVec.eq_of_getLsbD_eq fun i hi => ?_
  simp only [BitVec.getLsbD_and, BitVec.getLsbD_append]
  interval_cases i <;> simp

theorem reset : Statement .reset := ⟨_, rfl, by decide⟩

end Sys2Proof.Laws.ReservedBitsClear
end

