-- ==== Sys2Proof/Laws/Step.lean ====
section
/-!
SUPPORT. What a command and a step can do, said once.
-/

namespace Sys2Proof.Machine

/-! ### The answer of each command -/

theorem exec_nop (s : State) : exec .nop s = .next s := rfl

theorem exec_enc (a b c d : BitVec 16) (s : State) :
    exec (.enc a b c d) s = .next (s.emit (.encResp (encodeBits s.params 0 ⟨a, b, c, d⟩))) := rfl

theorem exec_tick (s : State) : exec .tick s = .next (if s.halted then s else tickBody s) := rfl

theorem exec_frames (count : BitVec 32) (s : State) :
    exec (.frames count) s = .next (tickTimes count.toNat s) := rfl

theorem exec_wrreg (regno : BitVec 8) (data : Word) (s : State) :
    exec (.wrreg regno data) s = .next (if s.halted then s else writeReg s regno data) := rfl

theorem exec_rdreg (regno : BitVec 8) (s : State) :
    (∃ r, regOf regno = some r ∧
        exec (.rdreg regno) s = .next (s.emit (.regResp (readReg s r)))) ∨
      (regOf regno = none ∧
        exec (.rdreg regno) s = .next ((s.raise .operand regno).emit (.regResp 0#32))) := by
  cases h : regOf regno with
  | none => exact .inr ⟨rfl, by simp [exec, execRdreg, h]⟩
  | some r => exact .inl ⟨r, rfl, by simp [exec, execRdreg, h]⟩

theorem exec_reset (s : State) : exec .reset s = .next s.blockReset := rfl

/-! ### A reset while a command is pending -/

/-- A FRAMES has done some ticks, any other word nothing; then BlockReset (70_reset_and_hazards.md R251;
log 6). -/
theorem resetDuring_cases (w : Cmd) (ticks : Nat) (s : State) :
    (∃ count n, decode w = .legal (.frames count) ∧
        resetDuring w ticks s = (tickTimes n s).blockReset) ∨
      ((∀ count, decode w ≠ .legal (.frames count)) ∧ resetDuring w ticks s = s.blockReset) := by
  unfold resetDuring
  split
  · rename_i count h
    exact .inl ⟨count, _, h, rfl⟩
  · rename_i h
    exact .inr ⟨fun count hc => h count hc, rfl⟩

/-! ### A step -/

/-- Everything a step can be (10_state.md R45, 60_exceptions.md R238, 70_reset_and_hazards.md R251). -/
theorem step_cases (s : State) :
    (s.hostIn = [] ∧ step s = .next s) ∨
      (∃ w rest i, s.hostIn = .command w :: rest ∧ decode w = .legal i ∧
        step s = exec i { s with hostIn := rest }) ∨
      (∃ w rest why, s.hostIn = .command w :: rest ∧ decode w = .illegal why ∧
        step s = .next ({ s with hostIn := rest }.raise .illegal why.op)) ∨
      (∃ rest, s.hostIn = .assertReset :: rest ∧
        step s = .next { s with hostIn := rest }.blockReset) ∨
      ∃ w ticks rest, s.hostIn = .assertResetDuring w ticks :: rest ∧
        step s = .next (resetDuring w ticks { s with hostIn := rest }) := by
  unfold step
  split
  · rename_i h
    exact .inl ⟨h, rfl⟩
  · rename_i w rest h
    unfold runWord
    split
    · rename_i i hd
      exact .inr (.inl ⟨w, rest, i, h, hd, rfl⟩)
    · rename_i why hd
      exact .inr (.inr (.inl ⟨w, rest, why, h, hd, rfl⟩))
  · rename_i rest h
    exact .inr (.inr (.inr (.inl ⟨rest, h, rfl⟩)))
  · rename_i w ticks rest h
    exact .inr (.inr (.inr (.inr ⟨w, ticks, rest, h, rfl⟩)))

end Sys2Proof.Machine
end

