-- ==== Sys2Proof/Laws/Trig.lean ====
section
/-!
SUPPORT. The entries of P_TRIG and of every oscillator's tables lie in [-1, 1] in every admitted
configuration, which 43_mixer.md R180 and R181 rest on; and P_TRIG depends on f only through f mod P_SR
(42_oscillator.md R156).
-/

namespace Sys2Proof

/-! ### Values in [-1, 1] -/

/-- A pattern lies in [-1, 1] exactly when its bits 30:0 are at most those of 1.0. -/
theorem F32.inUnit_iff (x : F32) : F32.inUnit x = true ↔ x.toNat % 2 ^ 31 ≤ 0x3F800000 := by
  have one : F32.key F32.one = 0x3F800000 := rfl
  have negOne : F32.key F32.negOne = -0x3F800000 := rfl
  have oneNum : F32.isNaN F32.one = false := rfl
  have negOneNum : F32.isNaN F32.negOne = false := rfl
  have number : x.toNat % 2 ^ 31 ≤ 0x3F800000 → F32.isNaN x = false := by
    intro h
    rw [F32.isNaN, decide_eq_false_iff_not, F32.expo]
    omega
  simp only [F32.inUnit, F32.le, one, negOne, oneNum, negOneNum, Bool.not_false, Bool.true_and,
    Bool.and_true, Bool.and_eq_true, Bool.not_eq_true', decide_eq_true_eq]
  rw [show F32.key x = if F32.sign x then -((x.toNat % 2 ^ 31 : Nat) : Int)
    else ((x.toNat % 2 ^ 31 : Nat) : Int) from rfl]
  cases F32.sign x <;> simp only [if_true, Bool.false_eq_true, if_false] <;>
    exact ⟨by omega, fun h => ⟨⟨number h, by omega⟩, number h, by omega⟩⟩

theorem F32.inUnit_finite {x : F32} (h : F32.inUnit x = true) : F32.finite x = true := by
  rw [F32.inUnit_iff] at h
  rw [F32.finite, F32.expo, decide_eq_true_eq]
  omega

/-- A pattern made of a sign and bits 30:0 that are at most those of 1.0 lies in [-1, 1]. -/
theorem F32.ofSignMag_inUnit (neg : Bool) {bits : Nat} (h : bits ≤ 0x3F800000) :
    F32.inUnit (F32.ofSignMag neg bits) = true := by
  have hb : neg.toNat ≤ 1 := by cases neg <;> decide
  rw [F32.inUnit_iff]
  simp only [F32.ofSignMag, F32.ofFields, BitVec.toNat_ofNat]
  omega

/-! ### P_TRIG -/

theorem quarterSine_le (sr t : Nat) : quarterSine sr t ≤ 0x3F800000 := by
  unfold quarterSine
  split
  · exact Nat.zero_le _
  · split
    · exact Nat.le_refl _
    · exact Nat.min_le_right _ _

theorem signedTableValue_inUnit (neg : Bool) (sr t : Nat) :
    F32.inUnit (signedTableValue neg (quarterSine sr t)) = true :=
  F32.ofSignMag_inUnit _ (quarterSine_le sr t)

/-- The reference P_TRIG lies in [-1, 1]. -/
theorem referenceTrig_inUnit (sr f i : Nat) :
    F32.inUnit (referenceTrig sr f i).1 = true ∧ F32.inUnit (referenceTrig sr f i).2 = true := by
  constructor
  · simp only [referenceTrig, turnSine]
    split <;> exact signedTableValue_inUnit _ _ _
  · simp only [referenceTrig, turnCosine]
    split <;> exact signedTableValue_inUnit _ _ _

/-- A value that a list gives for a key stands in the list. -/
theorem mem_of_lookup {α β : Type} [BEq α] [LawfulBEq α] {l : List (α × β)} {a : α} {b : β}
    (h : l.lookup a = some b) : (a, b) ∈ l := by
  induction l with
  | nil => cases h
  | cons entry rest ih =>
    obtain ⟨k, v⟩ := entry
    rw [List.lookup_cons] at h
    cases hk : a == k with
    | true =>
      simp only [hk, Option.some.injEq] at h
      rw [eq_of_beq hk, h]
      exact List.mem_cons_self
    | false =>
      simp only [hk] at h
      exact List.mem_cons_of_mem _ (ih h)

/-- Every entry of P_TRIG of an admitted configuration lies in [-1, 1] (43_mixer.md R180). -/
theorem Params.pTrig_inUnit (p : Params) (f i : Nat) :
    F32.inUnit (p.pTrig f i).1 = true ∧ F32.inUnit (p.pTrig f i).2 = true := by
  unfold ParamSet.pTrig
  split
  · rename_i v h
    have ht := p.bounds.2.2.2.2.2.2
    rw [ParamSet.trigOk, List.all_eq_true] at ht
    simpa using ht _ (mem_of_lookup h)
  · exact referenceTrig_inUnit _ _ _

/-- P_TRIG depends on f only through f mod P_SR (42_oscillator.md R156). -/
theorem ParamSet.pTrig_mod (p : ParamSet) (f i : Nat) : p.pTrig (f % p.sr) i = p.pTrig f i := by
  simp only [ParamSet.pTrig, referenceTrig, Nat.mod_mod, Nat.mod_mul_mod]

/-- So does the table length (42_oscillator.md R156). -/
theorem tableLen_mod (sr f : Nat) : tableLen sr (f % sr) = tableLen sr f := by
  rw [tableLen, tableLen, Nat.gcd_comm sr (f % sr), ← Nat.gcd_rec sr f]

namespace Machine

/-- The tables that OscBuild leaves hold entries of P_TRIG alone (42_oscillator.md R152), so they lie in
[-1, 1]. -/
theorem builtOsc_inUnit (p : Params) (f : Word) :
    (∀ x ∈ (builtOsc p f).sin, F32.inUnit x = true) ∧
      ∀ x ∈ (builtOsc p f).cos, F32.inUnit x = true := by
  constructor <;> intro x hx <;> obtain ⟨i, -, rfl⟩ := List.mem_map.mp hx
  · exact (p.pTrig_inUnit f.toNat i).1
  · exact (p.pTrig_inUnit f.toNat i).2

end Machine

end Sys2Proof
end

