-- ==== Sys2Proof/Tests/Slice0.lean ====
section
/-!
SUPPORT. The author's own tests. Each expected value is one of 95_test_vectors.md, or worked out by hand
from the rule named beside it. After them, for every statement with hypotheses, a theorem that shows a
state and operands which meet them.
-/

open Sys2Proof Sys2Proof.Machine Sys2Proof.Claims

namespace Sys2Proof.Tests

/-! ### Small states -/

/-- The toy parameters of V-MOD-1 and P3, with the capacity of V-OSC-4. -/
def toySet : ParamSet where
  sr := 190000
  spb := 2
  shape := [0x3F800000#32, 0x3F000000#32, 0xBE800000#32]
  nstreams := 1
  offset :=
    let pair : OffsetPair := ⟨0x0AA#10, 0x155#10⟩
    let row : Vector OffsetPair 4 := #v[pair, pair, pair, pair]
    #v[row, row, row]
  oscCap := 20
  trig := []

def toy : Params := ⟨toySet, by decide⟩

/-- After power-on with the toy parameters. -/
def quiet : State := State.resetWith toy

/-- Stream 0 on with level 0.125, and one group on its port: P3 before its first tick. -/
def sending : State :=
  { quiet with
    streamEn := 1#32
    streamVol := perStream fun _ => 0x3E000000#32
    groupIn := perStream fun _ => [some ⟨0xA000#16, 0#16, 0#16, 0#16⟩] }

/-- The same with no group. -/
def starving : State := { sending with groupIn := perStream fun _ => [] }

/-- A halted state with a first cause recorded. -/
def stopped : State := quiet.raise .underrun 0#8

/-- What a step put out. -/
def outputs : Host.Outcome State Fault Refusal → List Output
  | .next t => t.out
  | _ => []

/-- STATUS after a step. -/
def statusAfter : Host.Outcome State Fault Refusal → Option Word
  | .next t => some t.status.word
  | _ => none

/-- A context after a step. -/
def modAfter (k : Stream) : Host.Outcome State Fault Refusal → Option ModCtx
  | .next t => some (t.mod k)
  | _ => none

/-! ### Configurations that are refused, one for each check of WellFormed -/

theorem test_toy_is_admitted : toySet.admitted = true := by decide
theorem test_sample_rate_zero_is_refused : ({ toySet with sr := 0 } : ParamSet).srOk = false := by
  decide
theorem test_no_samples_per_bit_is_refused :
    ({ toySet with spb := 0 } : ParamSet).spbOk = false := by decide
theorem test_too_many_samples_per_bit_is_refused :
    ({ toySet with spb := 65536 } : ParamSet).spbOk = false := by decide
theorem test_empty_shape_is_refused : ({ toySet with shape := [] } : ParamSet).fsOk = false := by
  decide
theorem test_accumulator_beyond_16_bits_is_refused :
    ({ toySet with spb := 65534 } : ParamSet).fsOk = false := by decide
theorem test_infinite_shape_entry_is_refused :
    ({ toySet with shape := [0x7F800000#32] } : ParamSet).shapeOk = false := by decide
theorem test_no_stream_is_refused : ({ toySet with nstreams := 0 } : ParamSet).nstreamsOk = false := by
  decide
theorem test_five_streams_are_refused :
    ({ toySet with nstreams := 5 } : ParamSet).nstreamsOk = false := by decide
theorem test_capacity_below_a_default_table_is_refused :
    ({ toySet with oscCap := 19 } : ParamSet).oscCapOk = false := by decide
/-- A cosine of 2.0, and a sine that is a NaN (43_mixer.md R180, R181). -/
theorem test_table_value_outside_one_is_refused :
    ({ toySet with trig := [((19000, 0), 0x00000000#32, 0x40000000#32)] } : ParamSet).trigOk = false ∧
      ({ toySet with trig := [((19000, 1), 0x7FC00000#32, 0x3F800000#32)] } : ParamSet).trigOk =
        false := by decide
theorem test_a_failed_check_refuses_the_configuration :
    ({ toySet with oscCap := 19 } : ParamSet).admitted = false := by decide

/-! ### Decoding: words written out from 30_encoding.md R80 to R83 -/

theorem test_decode_nop : decode 0x000000000000000000#72 = .legal .nop := by decide
theorem test_decode_enc :
    decode 0x011000040820204D50#72 = .legal (.enc 0x1000#16 0x0408#16 0x2020#16 0x4D50#16) := by
  decide
theorem test_decode_tick : decode 0x020000000000000000#72 = .legal .tick := by decide
theorem test_decode_frames : decode 0x030000000080000001#72 = .legal (.frames 0x80000001#32) := by
  decide
theorem test_decode_wrreg :
    decode 0x04030000003E000000#72 = .legal (.wrreg 0x03#8 0x3E000000#32) := by decide
theorem test_decode_rdreg : decode 0x05A500000000000000#72 = .legal (.rdreg 0xA5#8) := by decide
theorem test_decode_reset : decode 0x060000000000000000#72 = .legal .reset := by decide

/-- 30_encoding.md R85, one reserved bit at an end of each mask; 60_exceptions.md R220. -/
theorem test_decode_refuses_reserved_bits :
    decode 0x000000000000000001#72 = .illegal (.reservedBits 0x00#8) ∧
      decode 0x028000000000000000#72 = .illegal (.reservedBits 0x02#8) ∧
      decode 0x030000000100000000#72 = .illegal (.reservedBits 0x03#8) ∧
      decode 0x040080000000000000#72 = .illegal (.reservedBits 0x04#8) ∧
      decode 0x040000000100000000#72 = .illegal (.reservedBits 0x04#8) ∧
      decode 0x050000000000000001#72 = .illegal (.reservedBits 0x05#8) ∧
      decode 0x060000000000000001#72 = .illegal (.reservedBits 0x06#8) := by decide

theorem test_decode_refuses_reserved_opcodes :
    decode 0x070000000000000000#72 = .illegal (.reservedOpcode 0x07#8) ∧
      decode 0xFF0000000000000001#72 = .illegal (.reservedOpcode 0xFF#8) := by decide

theorem test_table_word : decodeTableWord 72 0x04030000003E000000 =
    some (.wrreg 0x03#8 0x3E000000#32) := by decide

/-! ### One step of each command -/

/-- V-ENC-2 (version A) and V-ENC-9 (version B). -/
theorem test_enc_version_a :
    outputs (exec (.enc 0x1000#16 0x0000#16 0xE0CD#16 0x4D50#16) quiet) =
      [.encResp 0x1000FDC000198E0CD7A535402E#104] := by decide +kernel
theorem test_enc_version_b :
    outputs (exec (.enc 0x1000#16 0x0800#16 0x1000#16 0x4D50#16) stopped) =
      [.encResp 0x1000FDC2002C1100016D35402E#104] := by decide +kernel

/-- V-MIX-1, the first frame. -/
theorem test_tick_pilot :
    outputs (exec .tick { quiet with pilotVol := 0x3E000000#32 }) =
      [.frame 0x3E000000#32 0x3E000000#32] := by decide +kernel
/-- P3 at tick 0: the request, then the frame. -/
theorem test_tick_stream :
    outputs (exec .tick sending) =
      [.groupRequest 0, .frame 0xBE000000#32 0xBE000000#32] := by decide +kernel

/-- P3, frames 0 to 2. -/
theorem test_frames_three :
    outputs (exec (.frames 3#32) sending) =
      [.groupRequest 0, .frame 0xBE000000#32 0xBE000000#32, .frame 0x3C9E377A#32 0x3C9E377A#32,
        .frame 0x3D9B54CE#32 0x3D9B54CE#32] := by decide +kernel
/-- V-ERR-7 with FRAMES: the first tick halts, no frame. -/
theorem test_frames_underrun :
    statusAfter (exec (.frames 5#32) starving) = some 0x00000411#32 ∧
      outputs (exec (.frames 5#32) starving) = [.groupRequest 0] := by decide +kernel

/-- V-REG-1: 0.5 to PILOT_VOL is clamped to P_VOLMAX; V-OSC-4. -/
theorem test_wrreg_clamps :
    writeReg quiet 0x03#8 0x3F000000#32 = { quiet with pilotVol := 0x3E19999A#32 } := by rfl
theorem test_wrreg_osc_too_large :
    statusAfter (exec (.wrreg 0x0A#8 1#32) quiet) = some 0x00020309#32 := by decide

/-- V-MOD-3 at P_SPB = 2; V-ERR-5. -/
theorem test_rdreg_mod_state :
    outputs (exec (.rdreg 0x20#8) quiet) = [.regResp 0x00020068#32] := by decide
/-- A table length reads as itself up to 2^32 - 1 (10_state.md R29). -/
theorem test_rdreg_osc_len : ∀ wide : Nat → Word, readNat wide 4294967295 = 0xFFFFFFFF#32 := by
  intro wide; rfl
theorem test_rdreg_unimplemented :
    statusAfter (exec (.rdreg 0x0D#8) quiet) = some 0x000D0204#32 ∧
      outputs (exec (.rdreg 0x0D#8) quiet) = [.regResp 0#32] := by decide

/-- V-ERR-9, and the context of a stream that was sending (41_modulator.md R139). -/
theorem test_reset_halted : statusAfter (exec .reset stopped) = some 0#32 := by decide
theorem test_reset_context :
    modAfter 0 (exec .reset (tickBody sending)) = some (freshCtx toy) := by decide +kernel

/-- V-ERR-1, V-ERR-2. -/
theorem test_illegal_words :
    statusAfter (step (quiet.withFetchWord 72 0x070000000000000000)) = some 0x00070102#32 ∧
      statusAfter (step (quiet.withFetchWord 72 0x000000000000000001)) = some 0x00000102#32 := by
  decide

/-- V-MOD-1, the context after call 0. -/
theorem test_modulator_context :
    modAfter 0 (exec .tick sending) =
      some { sampleCount := 1, bitPos := 1, curOut := true, prevOut := false, w := 2, r := 1,
             acc := [(1, 0xBF000000#32), (2, 0x3E800000#32)],
             bits := encodeBits toy 0 ⟨0xA000#16, 0#16, 0#16, 0#16⟩ } := by decide +kernel

/-- V-OSC-1: entries of SIN[0], COS[1], SIN[2], COS[3]. -/
theorem test_table_entries :
    referenceTrig 190000 19000 1 = (0x3F167918#32, 0x3F4F1BBD#32) ∧
      referenceTrig 190000 57000 2 = (0xBF167918#32, 0xBF4F1BBD#32) ∧
      referenceTrig 190000 71250 1 = (0x3F3504F3#32, 0xBF3504F3#32) ∧
      referenceTrig 190000 66500 10 = (0x00000000#32, 0xBF800000#32) := by decide +kernel

/-- V-MIX-6. -/
theorem test_clip :
    clip 0x3FC00000#32 = 0x3F800000#32 ∧ clip 0xBF800001#32 = 0xBF800000#32 ∧
      clip 0x7F800000#32 = 0x3F800000#32 ∧ clip 0x80000000#32 = 0x80000000#32 := by decide +kernel

/-- IEEE 754 corners worked out by hand: a tie to even, a subnormal sum, an overflow, a subnormal
product that rounds to zero (00_scope.md R17). -/
theorem test_arithmetic_corners :
    fadd default 0x4B800000#32 0x3F800000#32 = 0x4B800000#32 ∧
      fadd default 0x00000001#32 0x007FFFFF#32 = 0x00800000#32 ∧
      fadd default 0x7F7FFFFF#32 0x7F7FFFFF#32 = 0x7F800000#32 ∧
      fmul default 0x00000001#32 0xBF000000#32 = 0x80000000#32 ∧
      fadd default 0x3F800000#32 0xBF800000#32 = 0x00000000#32 := by decide +kernel

/-- The first step after reset with each command as its word: it goes on. -/
def goesOn : Host.Outcome State Fault Refusal → Bool
  | .next _ => true
  | _ => false

theorem test_first_step_of_each_command :
    ([0x000000000000000000, 0x011000040820204D50, 0x020000000000000000, 0x030000000000000001,
      0x04030000003E000000, 0x051100000000000000, 0x060000000000000000].all fun w =>
        goesOn (step (State.reset.withFetchWord 72 w))) = true := by decide +kernel

/-- 70_reset_and_hazards.md R252: the first TICK after reset, fetched, is silent. -/
theorem test_first_tick_after_reset :
    outputs (step (State.reset.withFetchWord 72 0x020000000000000000)) =
      [.frame 0x00000000#32 0x00000000#32] := by decide +kernel

/-! ### The hypotheses of the statements are met

Each theorem is named after its statement; several of one statement are at the ends of its ranges. -/

/-- A state with one thing for the host to do next. -/
def offered (h : HostInput) : State := { quiet with hostIn := [h] }

theorem witness_StepRunsTheDecodedCommand :
    (offered (.command 0x020000000000000000#72)).hostIn =
        .command 0x020000000000000000#72 :: [] ∧
      decode 0x020000000000000000#72 = .legal .tick := by decide

theorem witness_IdleBlockKeepsItsState : quiet.hostIn = [] := rfl

theorem witness_IllegalWordOnlyRecordsTheError_opcode :
    (offered (.command 0x070000000000000000#72)).hostIn =
        .command 0x070000000000000000#72 :: [] ∧
      0x07 ≤ (Cmd.op 0x070000000000000000#72).toNat := by decide
theorem witness_IllegalWordOnlyRecordsTheError_bits :
    (offered (.command 0x030000000100000000#72)).hostIn =
        .command 0x030000000100000000#72 :: [] ∧
      reservedMask (Cmd.op 0x030000000100000000#72) = some 0xFFFFFFFF00000000#64 ∧
      Cmd.payload 0x030000000100000000#72 &&& 0xFFFFFFFF00000000#64 ≠ 0#64 := by decide

theorem witness_EncodingADecodedWordGivesItBack :
    decode 0x05A500000000000000#72 = .legal (.rdreg 0xA5#8) := by decide

theorem witness_CodedBitstreamIndexing : (0 < 26) ∧ (25 < 26) := by decide

/-- Groups that differ in block 1 alone, with the same and with the other version bit. -/
def groupWith (b : BitVec 16) : Group := ⟨0x1000#16, b, 0x1000#16, 0x4D50#16⟩
theorem witness_VersionBitAffectsOnlyPositionTwo :
    (groupWith 0x0001#16).a = (groupWith 0#16).a ∧ (groupWith 0x0001#16).c = (groupWith 0#16).c ∧
      (groupWith 0x0001#16).d = (groupWith 0#16).d ∧
      (groupWith 0#16).b.getLsbD 11 = (groupWith 0x0001#16).b.getLsbD 11 ∧
      (groupWith 0x0800#16).a = (groupWith 0#16).a ∧ (groupWith 0x0800#16).c = (groupWith 0#16).c ∧
      (groupWith 0x0800#16).d = (groupWith 0#16).d ∧
      (groupWith 0#16).b.getLsbD 11 ≠ (groupWith 0x0800#16).b.getLsbD 11 := by decide

theorem witness_RaisingAnErrorUpdatesStatus :
    clearStatus.firstCause = 0#4 ∧ stopped.status.firstCause ≠ 0#4 := by decide

theorem witness_HaltedBlockIgnoresTickFramesAndWrreg : stopped.halted = true := rfl

theorem witness_OnlyResetClearsStatus :
    (Instr.nop ≠ .reset) ∧ exec .nop stopped = .next stopped ∧
      stopped.status.flag .underrun = true ∧ stopped.halted = true ∧
      stopped.status.firstCause ≠ 0#4 := ⟨by decide, rfl, rfl, rfl, by decide⟩

theorem witness_ResetInputActsInEveryState :
    (offered .assertReset).hostIn = .assertReset :: [] ∧
      (offered (.assertResetDuring 0x030000000000000003#72 2)).hostIn =
        .assertResetDuring 0x030000000000000003#72 2 :: [] := by decide
theorem witness_ResetInputActsInEveryState_no_frames (count : BitVec 32) :
    decode 0x020000000000000000#72 ≠ .legal (.frames count) := by
  rw [test_decode_tick]; simp

theorem witness_ModulatorCountersReadTheirLayout : (quiet.mod 3).InRange quiet.params :=
  ⟨by decide, by decide, by decide, by decide, by decide, by decide⟩

theorem witness_RdregOfAnUnimplementedNumber :
    ∀ n ∈ [0x0D#8, 0x0F#8, 0x15#8, 0x17#8, 0x1D#8, 0x1F#8, 0x28#8, 0xFF#8],
      (0x0D ≤ n.toNat ∧ n.toNat ≤ 0x0F) ∨ (0x15 ≤ n.toNat ∧ n.toNat ≤ 0x17) ∨
        (0x1D ≤ n.toNat ∧ n.toNat ≤ 0x1F) ∨ 0x28 ≤ n.toNat := by decide

theorem witness_WrregOfAReadOnlyOrUnimplementedNumber :
    quiet.halted = false ∧
      ∀ n ∈ [0x00#8, 0x0D#8, 0x10#8, 0x14#8, 0x18#8, 0x27#8, 0xFF#8],
        n = 0x00#8 ∨ 0x0D ≤ n.toNat := by decide

theorem witness_WrregOfALevelClamps :
    quiet.halted = false ∧ F32.isNaN 0x7FC00000#32 = true ∧ F32.isNaN 0x3F800001#32 = false ∧
      F32.lt 0x3F800000#32 0x3F800001#32 = true ∧ F32.le 0x80000000#32 0x00000000#32 = true := by
  decide

theorem witness_WrregOfStreamEnable :
    quiet.halted = false ∧ (0 : Stream).val < quiet.params.nstreams ∧
      (1#32).getLsbD (0 : Stream).val = true ∧ quiet.enabled 0 = false ∧
      sending.enabled 0 = true ∧ sending.halted = false := by decide

theorem witness_WrregOfAnOscillatorFrequency :
    quiet.halted = false ∧
      quiet.params.sr / Nat.gcd quiet.params.sr (9500#32).toNat ≤ quiet.params.oscCap ∧
      quiet.params.oscCap < quiet.params.sr / Nat.gcd quiet.params.sr (1#32).toNat := by decide

theorem witness_TableLengthIsTheLeastPeriod : 0 < 190000 ∧ 1 ≤ 10 ∧ 19000 * 10 % 190000 = 0 := by
  decide

/-- Both ends of the range of m that 32 bits admit at P_SR = 190000. -/
theorem witness_AliasedFrequenciesBuildAlike :
    (19000#32).toNat = (19000#32).toNat + 0 * toy.sr ∧
      (4294779000#32).toNat = (19000#32).toNat + 22604 * toy.sr := by decide

theorem witness_TableWrapIsPhaseContinuous : 0 < 190000 := by decide

theorem witness_ReferenceTableIsExactAtQuarterTurns :
    ∀ i ∈ [0, 5, 10, 15], 0 < 190000 ∧ 4 * (66500 * i % 190000) % 190000 = 0 := by decide

/-- A finite result, and one beyond the largest finite value. -/
theorem witness_SumIsRoundedToNearestEven :
    F32.finite 0x3F800000#32 = true ∧
      F32.finite (fadd default 0x3F800000#32 0x3F800000#32) = true ∧
      F32.finite 0x7F7FFFFF#32 = true ∧
      F32.finite (fadd default 0x7F7FFFFF#32 0x7F7FFFFF#32) = false := by decide +kernel

/-- An exact sum half way between two finite values, the even one the result. -/
theorem witness_SumIsRoundedToNearestEven_tie :
    F32.finite 0x4B800000#32 = true ∧ F32.finite 0x4B800001#32 = true ∧
      (let exact := F32.units 0x4B800000#32 + F32.units 0x3F800000#32
       let r := fadd default 0x4B800000#32 0x3F800000#32
       (F32.units r - exact).natAbs = (F32.units 0x4B800001#32 - exact).natAbs ∧
         F32.units 0x4B800001#32 ≠ F32.units r) := by decide +kernel

theorem witness_ProductIsRoundedToNearestEven :
    F32.finite 0x3F800000#32 = true ∧
      F32.finite (fmul default 0x3F800000#32 0x3F800000#32) = true ∧
      F32.finite 0x7F7FFFFF#32 = true ∧
      F32.finite (fmul default 0x7F7FFFFF#32 0x7F7FFFFF#32) = false := by decide +kernel

/-- An exact product half way between two finite values: 1.5 times the pattern of 1 + 2^-23. -/
theorem witness_ProductIsRoundedToNearestEven_tie :
    F32.finite 0x3FC00000#32 = true ∧ F32.finite 0x3F800001#32 = true ∧
      F32.finite 0x3FC00001#32 = true ∧
      (let exact := F32.units 0x3FC00000#32 * F32.units 0x3F800001#32
       let r := fmul default 0x3FC00000#32 0x3F800001#32
       (F32.units r * 2 ^ 149 - exact).natAbs = (F32.units 0x3FC00001#32 * 2 ^ 149 - exact).natAbs ∧
         F32.units 0x3FC00001#32 ≠ F32.units r) := by decide +kernel

theorem witness_ClipLimitsToOne :
    F32.lt 0x3F800000#32 0x3F800001#32 = true ∧ F32.lt 0xBF800001#32 0xBF800000#32 = true ∧
      F32.lt 0x3F800000#32 0x3F800000#32 = false ∧ F32.lt 0x3F800000#32 0xBF800000#32 = false ∧
      F32.isNaN 0x7FC00000#32 = true := by decide

/-- A sum that is no NaN, one above 1.0 and one below -1.0. -/
theorem witness_OutputNeverExceedsTheOutputLevel :
    levelOk F32.one quiet.outVol ∧ F32.isNaN (mixSum quiet []) = false ∧
      F32.lt 0x3F800000#32 (mixSum { quiet with pilotVol := 0x40000000#32 } []) = true ∧
      F32.lt (mixSum { quiet with pilotVol := 0xC0000000#32 } []) 0xBF800000#32 = true := by
  unfold levelOk; decide +kernel

/-- The contexts of stream 0 before its first tick, after one and after two ticks of P3. -/
theorem sending_mod_inRange : (sending.mod 0).InRange sending.params :=
  ⟨by decide, by decide, by decide, by decide, by decide, by decide⟩
theorem after_one_inRange :
    ((tickBody sending).mod 0).InRange (tickBody sending).params :=
  ⟨by decide +kernel, by decide +kernel, by decide +kernel, by decide +kernel, by decide +kernel,
    by decide +kernel⟩
theorem after_two_inRange :
    ((tickTimes 2 sending).mod 0).InRange (tickTimes 2 sending).params :=
  ⟨by decide +kernel, by decide +kernel, by decide +kernel, by decide +kernel, by decide +kernel,
    by decide +kernel⟩

theorem witness_ModStepBetweenBoundaries :
    ((tickBody sending).mod 0).InRange (tickBody sending).params ∧
      ((tickBody sending).mod 0).sampleCount ≠ (tickBody sending).params.spb :=
  ⟨after_one_inRange, by decide +kernel⟩

theorem witness_ModStepAtABoundary :
    (sending.mod 0).InRange sending.params ∧ (sending.mod 0).sampleCount = sending.params.spb ∧
      (sending.mod 0).bitPos = 104 ∧
      sending.groups 0 = some ⟨0xA000#16, 0#16, 0#16, 0#16⟩ :: [] ∧ starving.groups 0 = [] :=
  ⟨sending_mod_inRange, by decide, by decide, by decide, by decide⟩
theorem witness_ModStepAtABoundary_inside_a_group :
    ((tickTimes 2 sending).mod 0).InRange (tickTimes 2 sending).params ∧
      ((tickTimes 2 sending).mod 0).sampleCount = (tickTimes 2 sending).params.spb ∧
      ((tickTimes 2 sending).mod 0).bitPos < 104 :=
  ⟨after_two_inRange, by decide +kernel, by decide +kernel⟩

/-- A port whose next answer is none. -/
def unanswered : State := { sending with groupIn := perStream fun _ => [none] }
theorem witness_ModStepAtABoundary_no_group :
    (unanswered.mod 0).InRange unanswered.params ∧
      (unanswered.mod 0).sampleCount = unanswered.params.spb ∧ (unanswered.mod 0).bitPos = 104 ∧
      unanswered.groups 0 = none :: [] :=
  ⟨sending_mod_inRange, by decide, by decide, by decide⟩

/-- A context at the last bit of its group. -/
def lastBit : State := sending.setMod 0 { sending.mod 0 with bitPos := 103 }
theorem witness_ModStepAtABoundary_last_bit :
    (lastBit.mod 0).InRange lastBit.params ∧ (lastBit.mod 0).sampleCount = lastBit.params.spb ∧
      (lastBit.mod 0).bitPos = 103 :=
  ⟨⟨by decide, by decide, by decide, by decide, by decide, by decide⟩, by decide, by decide⟩

theorem witness_OverlapAddReachesEachEntryOnce :
    accWf toy.accLen (sending.mod 0).acc = true ∧ 0 < toy.shape.length ∧ 2 < toy.shape.length ∧
      ∀ i, i < toy.shape.length → 3 ≠ ((sending.mod 0).w + i) % toy.accLen := by decide

theorem sending_mod_atTime : (sending.mod 0).AtTime sending.params 0 :=
  ⟨by decide, by decide, by decide, by decide⟩

/-- Whether a call gives a sample. -/
def samples : ModResult → Bool
  | .sample _ _ => true
  | .underrun _ => false

theorem sample_of_samples {r : ModResult} (h : samples r = true) : ∃ y s', r = .sample y s' := by
  cases r with
  | sample y s' => exact ⟨y, s', rfl⟩
  | underrun s' => cases h

theorem witness_ModStepAdvancesTheStreamClock :
    (sending.mod 0).AtTime sending.params 0 ∧ ∃ y s', modStep sending 0 = .sample y s' :=
  ⟨sending_mod_atTime, sample_of_samples (by decide +kernel)⟩

/-- At call 0, which asks, and at call 1, which does not. -/
theorem witness_GroupRequestsComeEvery104Bits :
    let calls := fun j => tickTimes j sending
    (calls 0).mod 0 = freshCtx (calls 0).params ∧ 0 % (104 * (calls 0).params.spb) = 0 ∧
      1 % (104 * (calls 0).params.spb) ≠ 0 ∧
      ∀ j, j < 1 → ∃ y s', modStep (calls j) 0 = .sample y s' ∧
        (calls (j + 1)).mod 0 = s'.mod 0 ∧ (calls (j + 1)).params = s'.params := by
  refine ⟨by decide, by decide, by decide, fun j hj => ?_⟩
  obtain rfl : j = 0 := by omega
  obtain ⟨y, s', h⟩ := sample_of_samples (r := modStep sending 0) (by decide +kernel)
  refine ⟨y, s', h, ?_, ?_⟩
  · have e : (tickTimes 1 sending).mod 0 = (modStep sending 0).state.mod 0 := by decide +kernel
    rw [h] at e
    exact e
  · have e : (modStep sending 0).state.params = sending.params := (modStep_sameBut sending 0).params_eq
    rw [h] at e
    exact (tickTimes_params 1 sending).trans e.symm

/-- The run of P3 and its group, at tick 1. -/
theorem witness_ModulatorOutputHasTheClosedForm :
    let run := fun j => tickTimes j sending
    (run 0).mod 0 = freshCtx (run 0).params ∧ (run 0).enabled 0 = true ∧
      (∀ j, j < 1 → exec .tick (run j) = .next (run (j + 1))) ∧
      (∀ j, j ≤ 1 → (run j).halted = false) ∧
      ∀ g, 104 * g * (run 0).params.spb ≤ 1 →
        ((run 0).groups 0)[g]? = some (some ⟨0xA000#16, 0#16, 0#16, 0#16⟩) := by
  refine ⟨by decide, by decide, ?_, ?_, ?_⟩
  · intro j hj
    obtain rfl : j = 0 := by omega
    rfl
  · intro j hj
    obtain rfl | rfl : j = 0 ∨ j = 1 := by omega
    · rfl
    · decide +kernel
  · intro g hg
    have h : (tickTimes 0 sending).params.spb = 2 := rfl
    rw [h] at hg
    obtain rfl : g = 0 := by omega
    rfl

/-- The first and the last frame of FRAMES 8, the second case of the sign among them. -/
theorem witness_FirstTickAfterResetIsSilent :
    toy.trig = [] ∧ 0 < (8#32).toNat ∧ 7 < (8#32).toNat ∧
      F32.sign (toy.pTrig 19000 (0 % tableLen toy.sr 19000)).2 = false ∧
      F32.sign (toy.pTrig 19000 (7 % tableLen toy.sr 19000)).2 = true := by decide +kernel

theorem witness_TickWithoutStreamsEmitsThePilot :
    quiet.halted = false ∧ noActiveStream quiet :=
  ⟨rfl, by unfold noActiveStream; decide⟩

theorem witness_TickMixesTheActiveStreams :
    sending.halted = false ∧ sending.enabled 0 = true ∧ wantsGroup sending 0 = true ∧
      ∀ k, sending.enabled k = true → wantsGroup sending k = true →
        ∃ g rest, sending.groups k = some g :: rest :=
  ⟨rfl, by decide, by decide, fun k _ _ =>
    ⟨⟨0xA000#16, 0#16, 0#16, 0#16⟩, [], by revert k; decide⟩⟩

/-- Two streams of which the second starves, in a configuration with four. -/
def fourStreams : Params := ⟨{ toySet with nstreams := 4 }, by decide⟩
def secondStarves : State :=
  { State.resetWith fourStreams with
    streamEn := 3#32
    groupIn := #v[[some ⟨0xA000#16, 0#16, 0#16, 0#16⟩], [none], [], []] }

theorem witness_UnderrunOnlyRecordsTheLowestStream :
    secondStarves.halted = false ∧ secondStarves.enabled 1 = true ∧
      wantsGroup secondStarves 1 = true ∧
      (secondStarves.groups 1 = [] ∨ ∃ rest, secondStarves.groups 1 = none :: rest) ∧
      ∀ j, j < (1 : Stream) → secondStarves.enabled j = true → wantsGroup secondStarves j = true →
        ∃ g rest, secondStarves.groups j = some g :: rest := by
  refine ⟨rfl, by decide, by decide, .inr ⟨[], rfl⟩, fun j hj _ _ => ?_⟩
  obtain rfl : j = 0 := by revert hj; revert j; decide
  exact ⟨⟨0xA000#16, 0#16, 0#16, 0#16⟩, [], rfl⟩

/-- The first stream starves, its port at its end. -/
theorem witness_UnderrunOnlyRecordsTheLowestStream_first :
    starving.halted = false ∧ starving.enabled 0 = true ∧ wantsGroup starving 0 = true ∧
      starving.groups 0 = [] := by decide

theorem witness_FramesWithoutStreamsEmitsCountFrames :
    quiet.halted = false ∧ noActiveStream quiet ∧
      ∀ k, (quiet.oscillator k).phase < (quiet.oscillator k).n :=
  ⟨rfl, by unfold noActiveStream; decide, by decide⟩

theorem witness_PhaseFollowsTheTickCount :
    exec (.frames 1#32) quiet = .next (tickTimes 1 quiet) ∧ (tickTimes 1 quiet).halted = false ∧
      ∀ k, (quiet.oscillator k).phase < (quiet.oscillator k).n :=
  ⟨rfl, by decide +kernel, by decide⟩

theorem witness_OutputOnlyGrowsAndFramesAreStereo : step quiet = .next quiet := rfl
theorem witness_ParametersNeverChange :
    step (offered (.command 0x060000000000000000#72)) = .next quiet.blockReset := rfl

theorem witness_DisabledStreamIsFrozen :
    sending.enabled 1 = false ∧ exec .tick sending = .next (tickBody sending) := ⟨by decide, rfl⟩

theorem witness_SpareStreamLevelIsNeverMixed :
    sending.params.nstreams ≤ (1 : Stream).val ∧ exec .tick sending = .next (tickBody sending) :=
  ⟨by decide, rfl⟩

theorem witness_InactiveStreamLevelIsNotMixed :
    secondStarves.enabled 2 = false ∧ exec .tick secondStarves = .next (tickBody secondStarves) :=
  ⟨by decide, rfl⟩

/-- The toy block after power-on has the invariant. -/
theorem quiet_inv : quiet.Inv where
  status_ok := ⟨rfl, ⟨fun _ c => clearStatus_flag c, fun _ => rfl⟩, fun h => absurd rfl h, fun _ => rfl⟩
  streamEn_ok := by decide
  outVol_ok := by unfold levelOk; decide
  pilotVol_ok := by unfold levelOk; decide
  streamVol_ok := by unfold levelOk; decide
  osc_ok := fun k => by
    have h : quiet.oscillator k = builtOsc toy (oscDefault k) := resetWith_oscillator toy k
    rw [h]
    exact ⟨rfl, toy.default_fits k, tableLen_pos toy.sr_pos _, (builtOsc_inUnit toy _).1,
      (builtOsc_inUnit toy _).2⟩
  mods_ok := fun k => by
    have h : quiet.mod k = freshCtx toy := resetWith_mod toy k
    rw [h]
    exact ⟨by decide, by decide, by decide, by decide, by decide, by decide⟩
  spare_ok := fun k _ => resetWith_mod toy k

theorem witness_EveryStepKeepsTheInvariant : quiet.Inv ∧ step quiet = .next quiet := ⟨quiet_inv, rfl⟩

theorem witness_EveryStepKeepsTheStreamClocks :
    (∀ k : Stream, ∃ n, (quiet.mod k).AtTime quiet.params n) ∧ step quiet = .next quiet :=
  ⟨fun k => ⟨0, by
    have h : quiet.mod k = freshCtx toy := resetWith_mod toy k
    rw [h]
    exact ⟨by decide, by decide, by decide, by decide⟩⟩, rfl⟩

end Sys2Proof.Tests
end

/-!
PROOFS. fadd and fmul are rounded to nearest, ties to even (00_scope.md R17). Both narrow an exact
magnitude with `roundMag`, so the argument is made once for it: the result is a whole number of quanta,
`roundShift` of them; a finite value that is none lies below the binade of the magnitude, which starts
with a whole number of quanta.
-/

namespace Sys2Proof

/-! ### Rounding to a whole number of quanta -/

theorem div_le_roundShift (m q : Nat) : m / 2 ^ q ≤ roundShift m q := by
  unfold roundShift
  simp only
  split
  · exact Nat.le_refl _
  · split <;> omega

theorem roundShift_le_div_succ (m q : Nat) : roundShift m q ≤ m / 2 ^ q + 1 := by
  unfold roundShift
  simp only
  split
  · exact Nat.le_succ _
  · split <;> omega

/-- Above an odd number of quanta the result goes on from the midpoint: the tie goes away from it. -/
theorem lt_roundShift_iff_of_odd (m q : Nat) {t : Nat} (odd : t % 2 = 1) :
    t < roundShift m q ↔ (2 * t + 1) * 2 ^ q ≤ 2 * m := by
  obtain ⟨low, high, tie⟩ := roundShift_near m q
  generalize roundShift m q = n at *
  have hp : 0 < 2 ^ q := Nat.two_pow_pos q
  generalize 2 ^ q = p at *
  have expand : (2 * t + 1) * p = 2 * (t * p) + p := by ring
  rw [expand]
  constructor
  · intro h
    have : (t + 1) * p ≤ n * p := Nat.mul_le_mul_right p h
    rw [Nat.succ_mul] at this
    omega
  · intro h
    by_contra hn
    rcases Nat.lt_or_eq_of_le (Nat.le_of_not_lt hn) with below | rfl
    · have : (n + 1) * p ≤ t * p := Nat.mul_le_mul_right p below
      rw [Nat.succ_mul] at this
      omega
    · have : n % 2 = 0 := tie (.inl (by omega))
      omega

/-- No whole number of quanta is nearer than the rounded one, and as near only if that is even. -/
theorem roundShift_nearest_multiple (m q t : Nat) :
    ((roundShift m q * 2 ^ q : Nat) - (m : Int)).natAbs ≤ ((t * 2 ^ q : Nat) - (m : Int)).natAbs ∧
      (((roundShift m q * 2 ^ q : Nat) - (m : Int)).natAbs = ((t * 2 ^ q : Nat) - (m : Int)).natAbs →
        t ≠ roundShift m q → roundShift m q % 2 = 0) := by
  obtain ⟨low, high, tie⟩ := roundShift_near m q
  generalize roundShift m q = n at *
  generalize 2 ^ q = p at *
  rcases Nat.lt_trichotomy t n with h | rfl | h
  · have apart : (t + 1) * p ≤ n * p := Nat.mul_le_mul_right p h
    rw [Nat.succ_mul] at apart
    exact ⟨by omega, fun _ _ => tie (by omega)⟩
  · exact ⟨Nat.le_refl _, fun _ h => absurd rfl h⟩
  · have apart : (n + 1) * p ≤ t * p := Nat.mul_le_mul_right p h
    rw [Nat.succ_mul] at apart
    exact ⟨by omega, fun _ _ => tie (by omega)⟩

/-! ### The quantum -/

/-- The exponent of the quantum to which `roundMag m sh` rounds. -/
def quantum (m sh : Nat) : Nat := max (Nat.log2 m - 23) sh

theorem roundMag_eq (m sh : Nat) :
    roundMag m sh =
      min ((quantum m sh - sh) * 2 ^ 23 + roundShift m (quantum m sh)) (255 * 2 ^ 23) := rfl

theorem le_quantum (m sh : Nat) : sh ≤ quantum m sh := Nat.le_max_right _ _

/-- At most 24 significant bits stand above the quantum. -/
theorem lt_of_quantum (m sh : Nat) : m < 2 ^ 24 * 2 ^ quantum m sh := by
  have hq : Nat.log2 m - 23 ≤ quantum m sh := Nat.le_max_left _ _
  calc m < 2 ^ (Nat.log2 m + 1) := Nat.lt_log2_self
    _ ≤ 2 ^ (24 + quantum m sh) := Nat.pow_le_pow_right (by decide) (by omega)
    _ = 2 ^ 24 * 2 ^ quantum m sh := Nat.pow_add ..

/-- Above the smallest quantum there are exactly 24. -/
theorem le_of_lt_quantum {m sh : Nat} (h : sh < quantum m sh) : 2 ^ 23 * 2 ^ quantum m sh ≤ m := by
  have hq : 23 + quantum m sh = Nat.log2 m := by
    unfold quantum at *
    omega
  have hm : m ≠ 0 := by
    rintro rfl
    rw [Nat.log2_zero] at hq
    omega
  calc 2 ^ 23 * 2 ^ quantum m sh = 2 ^ Nat.log2 m := by rw [← Nat.pow_add, hq]
    _ ≤ m := Nat.log2_self_le hm

theorem roundShift_quantum_le (m sh : Nat) : roundShift m (quantum m sh) ≤ 2 ^ 24 :=
  (roundShift_le_div_succ _ _).trans
    ((Nat.div_lt_iff_lt_mul (Nat.two_pow_pos _)).mpr (lt_of_quantum m sh))

theorem le_roundShift_quantum {m sh : Nat} (h : sh < quantum m sh) :
    2 ^ 23 ≤ roundShift m (quantum m sh) :=
  ((Nat.le_div_iff_mul_le (Nat.two_pow_pos _)).mpr (le_of_lt_quantum h)).trans
    (div_le_roundShift _ _)

/-- Rounding stays finite exactly below the midpoint of the largest finite value and 2^128. -/
theorem roundMag_lt_iff (m sh : Nat) :
    roundMag m sh < 255 * 2 ^ 23 ↔ m < (2 ^ 25 - 1) * 2 ^ (252 + sh) := by
  have hle := roundShift_quantum_le m sh
  have hsh := le_quantum m sh
  rw [roundMag_eq]
  rcases Nat.lt_trichotomy (quantum m sh) (253 + sh) with below | last | above
  · have hpow : 2 ^ quantum m sh ≤ 2 ^ (252 + sh) := Nat.pow_le_pow_right (by decide) (by omega)
    have hm := lt_of_quantum m sh
    exact iff_of_true (by omega) (by omega)
  · have hodd := lt_roundShift_iff_of_odd m (quantum m sh) (show (2 ^ 24 - 1) % 2 = 1 by decide)
    have hpow : 2 ^ quantum m sh = 2 * 2 ^ (252 + sh) := by
      rw [last, ← Nat.pow_succ']
      congr 1
      omega
    rw [hpow] at hodd
    omega
  · have hq : sh < quantum m sh := by omega
    have hpow : 2 ^ (254 + sh) ≤ 2 ^ quantum m sh := Nat.pow_le_pow_right (by decide) (by omega)
    have hfour : 2 ^ (254 + sh) = 4 * 2 ^ (252 + sh) := by
      rw [show 254 + sh = 2 + (252 + sh) by omega, Nat.pow_add]
    have hm := le_of_lt_quantum hq
    have hn := le_roundShift_quantum hq
    exact iff_of_false (by omega) (by omega)

/-! ### Magnitudes of patterns -/

/-- A magnitude is a significand of at most 24 bits times a power of two. -/
theorem F32.mag_eq_significand (c : F32) : ∃ n e, n < 2 ^ 24 ∧ F32.mag c = n * 2 ^ e := by
  have hf : F32.frac c < 2 ^ 23 := Nat.mod_lt _ (by decide)
  unfold F32.mag
  split
  · exact ⟨F32.frac c, 0, by omega, by rw [Nat.pow_zero, Nat.mul_one]⟩
  · exact ⟨2 ^ 23 + F32.frac c, F32.expo c - 1, by omega, rfl⟩

/-- The pattern with `n` quanta 2^k of 2^-149: a carry into bit 24 gives the next exponent. -/
theorem F32.mag_ofSignMag (neg : Bool) {k n : Nat} (hn : n ≤ 2 ^ 24) (hk : k = 0 ∨ 2 ^ 23 ≤ n)
    (hfin : k * 2 ^ 23 + n < 255 * 2 ^ 23) :
    F32.mag (F32.ofSignMag neg (k * 2 ^ 23 + n)) = n * 2 ^ k := by
  obtain ⟨-, expo, frac⟩ := F32.ofSignMag_fields neg (show k * 2 ^ 23 + n < 2 ^ 31 by omega)
  rw [F32.mag, expo, frac]
  rcases Nat.lt_or_ge n (2 ^ 23) with subnormal | normal
  · obtain rfl : k = 0 := by omega
    rw [if_pos (by omega), Nat.pow_zero]
    omega
  · rw [if_neg (by omega)]
    rcases Nat.lt_or_eq_of_le hn with inBinade | rfl
    · rw [show (k * 2 ^ 23 + n) / 2 ^ 23 - 1 = k by omega,
        show 2 ^ 23 + (k * 2 ^ 23 + n) % 2 ^ 23 = n by omega]
    · rw [show (k * 2 ^ 23 + 2 ^ 24) / 2 ^ 23 - 1 = k + 1 by omega,
        show 2 ^ 23 + (k * 2 ^ 23 + 2 ^ 24) % 2 ^ 23 = 2 ^ 23 by omega, Nat.pow_succ]
      ring

/-- A rounded magnitude that is finite, in units of 2^-(149 + sh), is the rounded number of quanta. -/
theorem mag_roundMag (neg : Bool) {m sh : Nat} (hfin : roundMag m sh < 255 * 2 ^ 23) :
    F32.mag (F32.ofSignMag neg (roundMag m sh)) * 2 ^ sh =
      roundShift m (quantum m sh) * 2 ^ quantum m sh := by
  have hsh := le_quantum m sh
  have hk : quantum m sh - sh = 0 ∨ 2 ^ 23 ≤ roundShift m (quantum m sh) := by
    rcases Nat.lt_or_eq_of_le hsh with h | h
    · exact .inr (le_roundShift_quantum h)
    · exact .inl (by omega)
  rw [roundMag_eq] at hfin ⊢
  rw [Nat.min_eq_left (by omega), F32.mag_ofSignMag neg (roundShift_quantum_le m sh) hk (by omega),
    Nat.mul_assoc, ← Nat.pow_add, Nat.sub_add_cancel hsh]

/-- A magnitude is a whole number of quanta or lies below the binade of `m`. -/
theorem F32.mag_multiple_or_lt (c : F32) (m sh : Nat) :
    (∃ t, F32.mag c * 2 ^ sh = t * 2 ^ quantum m sh) ∨
      (sh < quantum m sh ∧ F32.mag c * 2 ^ sh < 2 ^ 23 * 2 ^ quantum m sh) := by
  obtain ⟨n, e, hn, hc⟩ := F32.mag_eq_significand c
  rw [hc, Nat.mul_assoc, ← Nat.pow_add]
  rcases Nat.lt_or_ge (e + sh) (quantum m sh) with fine | coarse
  · refine .inr ⟨by omega, ?_⟩
    calc n * 2 ^ (e + sh) < 2 ^ 24 * 2 ^ (e + sh) := Nat.mul_lt_mul_of_pos_right hn (Nat.two_pow_pos _)
      _ = 2 ^ 23 * 2 ^ (e + sh + 1) := by ring
      _ ≤ 2 ^ 23 * 2 ^ quantum m sh :=
        Nat.mul_le_mul_left _ (Nat.pow_le_pow_right (by decide) fine)
  · exact .inl ⟨n * 2 ^ (e + sh - quantum m sh), by
      rw [Nat.mul_assoc, ← Nat.pow_add, Nat.sub_add_cancel coarse]⟩

/-- No magnitude is nearer to `m` than the rounded one, and another as near only if that is even. -/
theorem roundMag_nearest (neg : Bool) {m sh : Nat} (hfin : roundMag m sh < 255 * 2 ^ 23) (c : F32) :
    let rounded := F32.mag (F32.ofSignMag neg (roundMag m sh)) * 2 ^ sh
    let other := F32.mag c * 2 ^ sh
    ((rounded : Int) - m).natAbs ≤ ((other : Int) - m).natAbs ∧
      (((rounded : Int) - m).natAbs = ((other : Int) - m).natAbs →
        other ≠ rounded → roundMag m sh % 2 = 0) := by
  have parity : roundMag m sh % 2 = roundShift m (quantum m sh) % 2 := by
    rw [roundMag_eq] at hfin ⊢
    omega
  simp only
  rw [mag_roundMag neg hfin, parity]
  rcases F32.mag_multiple_or_lt c m sh with ⟨t, ht⟩ | ⟨hq, hlt⟩
  · obtain ⟨near, tie⟩ := roundShift_nearest_multiple m (quantum m sh) t
    rw [ht]
    exact ⟨near, fun heq hne => tie heq fun h => hne (by rw [h])⟩
  · obtain ⟨near, -⟩ := roundShift_nearest_multiple m (quantum m sh) (2 ^ 23)
    have hm := le_of_lt_quantum hq
    exact ⟨by omega, fun heq => by omega⟩

/-! ### Signed values -/

/-- `r` is `exact`, in units of 2^-(149 + sh), rounded to nearest, ties to even (00_scope.md R17). -/
def F32.IsRounded (sh : Nat) (exact : Int) (r : F32) : Prop :=
  (F32.finite r = true ↔ exact.natAbs < (2 ^ 25 - 1) * 2 ^ (252 + sh)) ∧
  (F32.finite r = false → F32.isInf r = true ∧ (F32.sign r = true ↔ exact < 0)) ∧
  (F32.finite r = true → ∀ c : F32, F32.finite c = true →
    (F32.units r * 2 ^ sh - exact).natAbs ≤ (F32.units c * 2 ^ sh - exact).natAbs ∧
      ((F32.units r * 2 ^ sh - exact).natAbs = (F32.units c * 2 ^ sh - exact).natAbs →
        F32.units c ≠ F32.units r → r.getLsbD 0 = false))

theorem F32.getLsbD_zero_ofSignMag (neg : Bool) (bits : Nat) :
    (F32.ofSignMag neg bits).getLsbD 0 = decide (bits % 2 = 1) := by
  rw [F32.ofSignMag, F32.ofFields, BitVec.getLsbD_ofNat, Nat.testBit_zero]
  simp only [Nat.zero_lt_succ, decide_true, Bool.true_and, decide_eq_decide]
  omega

theorem F32.finite_ofSignMag_iff (neg : Bool) {bits : Nat} (h : bits ≤ 255 * 2 ^ 23) :
    F32.finite (F32.ofSignMag neg bits) = true ↔ bits < 255 * 2 ^ 23 := by
  obtain ⟨-, expo, -⟩ := F32.ofSignMag_fields neg (show bits < 2 ^ 31 by omega)
  rw [F32.finite, decide_eq_true_eq, expo]
  omega

theorem F32.isInf_ofSignMag (neg : Bool) : F32.isInf (F32.ofSignMag neg (255 * 2 ^ 23)) = true := by
  cases neg <;> decide

theorem F32.natAbs_units (x : F32) : (F32.units x).natAbs = F32.mag x := by
  rw [F32.units]
  split
  · rw [Int.natAbs_neg, Int.natAbs_natCast]
  · rw [Int.natAbs_natCast]

/-- The value of a pattern in a finer unit, by its sign. -/
theorem F32.units_mul (x : F32) (sh : Nat) : F32.units x * 2 ^ sh =
    if F32.sign x then -((F32.mag x * 2 ^ sh : Nat) : Int) else (F32.mag x * 2 ^ sh : Nat) := by
  rw [F32.units]
  split <;> push_cast <;> ring

theorem F32.natAbs_units_mul (x : F32) (sh : Nat) :
    (F32.units x * 2 ^ sh).natAbs = F32.mag x * 2 ^ sh := by
  rw [Int.natAbs_mul, F32.natAbs_units, Int.natAbs_pow]
  rfl

/-- If no magnitude is nearer, then no value of either sign is nearer than the one with the sign of
`exact`, and a tie of values is a tie of magnitudes. -/
theorem natAbs_sub_le_of_sign {v j exact : Int} {w k : Nat} (hne : exact ≠ 0)
    (hv : v = if exact < 0 then -(w : Int) else w) (hj : j.natAbs = k)
    (near : ((w : Int) - exact.natAbs).natAbs ≤ ((k : Int) - exact.natAbs).natAbs) :
    (v - exact).natAbs ≤ (j - exact).natAbs ∧
      ((v - exact).natAbs = (j - exact).natAbs → j ≠ v →
        ((w : Int) - exact.natAbs).natAbs = ((k : Int) - exact.natAbs).natAbs ∧ k ≠ w) := by
  split at hv <;> omega

theorem roundMag_zero (sh : Nat) : roundMag 0 sh = 0 := by
  have hq : quantum 0 sh = sh := by rw [quantum, Nat.log2_zero, Nat.zero_sub, Nat.zero_max]
  have hn : roundShift 0 sh = 0 := by simp [roundShift]
  rw [roundMag_eq, hq, hn, Nat.sub_self]
  rfl

theorem F32.units_ofSignMag_zero (neg : Bool) : F32.units (F32.ofSignMag neg 0) = 0 := by
  cases neg <;> decide

/-- A finite rounded result is nearest to the exact one, ties to even. -/
theorem ofSignMag_nearest {neg : Bool} {sh : Nat} {exact : Int}
    (hneg : exact ≠ 0 → neg = decide (exact < 0))
    (hfin : roundMag exact.natAbs sh < 255 * 2 ^ 23) (c : F32) :
    let r := F32.ofSignMag neg (roundMag exact.natAbs sh)
    (F32.units r * 2 ^ sh - exact).natAbs ≤ (F32.units c * 2 ^ sh - exact).natAbs ∧
      ((F32.units r * 2 ^ sh - exact).natAbs = (F32.units c * 2 ^ sh - exact).natAbs →
        F32.units c ≠ F32.units r → roundMag exact.natAbs sh % 2 = 0) := by
  simp only
  rcases eq_or_ne exact 0 with rfl | hne
  · rw [Int.natAbs_zero, roundMag_zero, F32.units_ofSignMag_zero]
    exact ⟨by simp, fun _ _ => rfl⟩
  · obtain ⟨near, tie⟩ := roundMag_nearest neg hfin c
    have hsign : F32.sign (F32.ofSignMag neg (roundMag exact.natAbs sh)) = decide (exact < 0) := by
      have hle := roundMag_le exact.natAbs sh
      rw [(F32.ofSignMag_fields neg (by omega)).1, hneg hne]
    have hv := F32.units_mul (F32.ofSignMag neg (roundMag exact.natAbs sh)) sh
    simp only [hsign, decide_eq_true_eq] at hv
    obtain ⟨le, eq⟩ := natAbs_sub_le_of_sign hne hv (F32.natAbs_units_mul c sh) near
    refine ⟨le, fun heq hother => ?_⟩
    obtain ⟨heq', hother'⟩ := eq heq fun h => hother (Int.eq_of_mul_eq_mul_right (by positivity) h)
    exact tie heq' hother'

/-- Narrowing the magnitude of an exact result and giving it the sign of the result rounds it. The sign
of a zero is free. -/
theorem isRounded_ofSignMag {neg : Bool} (sh : Nat) {exact : Int}
    (hneg : exact ≠ 0 → neg = decide (exact < 0)) :
    F32.IsRounded sh exact (F32.ofSignMag neg (roundMag exact.natAbs sh)) := by
  have hle := roundMag_le exact.natAbs sh
  have hfinite := F32.finite_ofSignMag_iff neg hle
  refine ⟨hfinite.trans (roundMag_lt_iff _ _), fun hinf => ?_, fun hfin c _ => ?_⟩
  · have hover : ¬ roundMag exact.natAbs sh < 255 * 2 ^ 23 := by
      rw [← hfinite, hinf]
      exact Bool.false_ne_true
    have hbits : roundMag exact.natAbs sh = 255 * 2 ^ 23 := by omega
    have hne : exact ≠ 0 := by
      rintro rfl
      exact hover ((roundMag_lt_iff _ _).mpr (Nat.mul_pos (by decide) (Nat.two_pow_pos _)))
    rw [hbits, (F32.ofSignMag_fields neg (by decide)).1, hneg hne]
    exact ⟨F32.isInf_ofSignMag _, decide_eq_true_iff⟩
  · obtain ⟨near, tie⟩ := ofSignMag_nearest hneg (hfinite.mp hfin) c
    refine ⟨near, fun heq hother => ?_⟩
    rw [F32.getLsbD_zero_ofSignMag, tie heq hother]
    rfl

/-! ### Sums and products -/

theorem F32.isNaN_of_finite {x : F32} (h : F32.finite x = true) : F32.isNaN x = false := by
  rw [F32.finite, decide_eq_true_eq] at h
  exact decide_eq_false fun hnan => h hnan.1

theorem F32.isInf_of_finite {x : F32} (h : F32.finite x = true) : F32.isInf x = false := by
  rw [F32.finite, decide_eq_true_eq] at h
  exact decide_eq_false fun hinf => h hinf.1

/-- The sum of finite operands narrows the exact one; only the sign of a zero depends on more. -/
theorem fadd_finite (nan : NaNBits) {a b : F32} (ha : F32.finite a = true) (hb : F32.finite b = true) :
    ∃ neg, (F32.units a + F32.units b ≠ 0 → neg = decide (F32.units a + F32.units b < 0)) ∧
      fadd nan a b = F32.ofSignMag neg (roundMag (F32.units a + F32.units b).natAbs 0) := by
  simp only [fadd, F32.isNaN_of_finite ha, F32.isNaN_of_finite hb, F32.isInf_of_finite ha,
    F32.isInf_of_finite hb, Bool.or_self, Bool.false_eq_true, if_false]
  split
  · rename_i hsum
    refine ⟨F32.sign a && F32.sign b, fun h => absurd hsum h, ?_⟩
    rw [hsum, Int.natAbs_zero, roundMag_zero]
    split
    · rename_i hneg
      rw [hneg]
      rfl
    · rename_i hpos
      rw [Bool.eq_false_of_not_eq_true hpos]
      rfl
  · exact ⟨_, fun _ => rfl, rfl⟩

theorem F32.sign_eq_of_units_ne_zero {x : F32} (h : F32.units x ≠ 0) :
    F32.sign x = decide (F32.units x < 0) := by
  have hunits : F32.units x = if F32.sign x then -(F32.mag x : Int) else (F32.mag x : Int) := rfl
  cases hs : F32.sign x with
  | false =>
    rw [hs, if_neg Bool.false_ne_true] at hunits
    exact (decide_eq_false (by omega)).symm
  | true =>
    rw [hs, if_pos rfl] at hunits
    exact (decide_eq_true (by omega)).symm

/-- A product that is not zero has the product of the signs. -/
theorem F32.sign_bne_eq {a b : F32} (h : F32.units a * F32.units b ≠ 0) :
    (F32.sign a != F32.sign b) = decide (F32.units a * F32.units b < 0) := by
  have ha := left_ne_zero_of_mul h
  have hb := right_ne_zero_of_mul h
  rw [F32.sign_eq_of_units_ne_zero ha, F32.sign_eq_of_units_ne_zero hb, Bool.eq_iff_iff]
  simp only [bne_iff_ne, ne_eq, decide_eq_decide, decide_eq_true_eq, mul_neg_iff]
  omega

theorem fmul_finite (nan : NaNBits) {a b : F32} (ha : F32.finite a = true) (hb : F32.finite b = true) :
    fmul nan a b = F32.ofSignMag (F32.sign a != F32.sign b)
      (roundMag (F32.units a * F32.units b).natAbs 149) := by
  simp only [fmul, F32.isNaN_of_finite ha, F32.isNaN_of_finite hb, F32.isInf_of_finite ha,
    F32.isInf_of_finite hb, Bool.or_self, Bool.false_eq_true, if_false, Int.natAbs_mul,
    F32.natAbs_units]

/-- Settles O36: the exact sum, a whole number of 2^-149, is narrowed once. -/
theorem sumIsRoundedToNearestEven : Obligations.SumIsRoundedToNearestEven := by
  unfold Obligations.SumIsRoundedToNearestEven
  intro nan a b ha hb
  obtain ⟨neg, hneg, hsum⟩ := fadd_finite nan ha hb
  simp only [hsum]
  simpa only [F32.IsRounded, pow_zero, mul_one, Nat.add_zero] using isRounded_ofSignMag 0 hneg

/-- Settles O37: the exact product, a whole number of 2^-298, is narrowed once. -/
theorem productIsRoundedToNearestEven : Obligations.ProductIsRoundedToNearestEven := by
  unfold Obligations.ProductIsRoundedToNearestEven
  intro nan a b ha hb
  simp only [fmul_finite nan ha hb]
  exact isRounded_ofSignMag 149 F32.sign_bne_eq

end Sys2Proof

/-!
PROOFS. What every step keeps of the state (10_state.md), and what its registers read. A command is made
of four kinds of part (a response, a recorded error, the body of a tick, a register write), and a step of
commands and BlockReset; a predicate that each part keeps is kept by every step (`KeptBySteps.step`). The
stream clocks, the invariant, the parameters, the output and STATUS are then a lemma per part each.
-/

namespace Sys2Proof.Machine

/-! ### What every command keeps -/

/-- `P` is kept by every part that a command other than RESET is made of: a response, a recorded error,
the body of a tick, a register write. -/
structure KeptByCommands (P : State → Prop) : Prop where
  respond : ∀ (s : State) (o : Output), (∀ l r, o ≠ .frame l r) → P s → P (s.emit o)
  raise : ∀ (s : State) (c : Cause) (info : BitVec 8), P s → P (s.raise c info)
  tick : ∀ s : State, P s → P (tickBody s)
  write : ∀ (s : State) (regno : BitVec 8) (data : Word), P s → P (writeReg s regno data)

/-- `P` is kept by BlockReset and by the host's next item leaving the command port, too. -/
structure KeptBySteps (P : State → Prop) : Prop extends KeptByCommands P where
  reset : ∀ s : State, P s → P s.blockReset
  take : ∀ (s : State) (rest : List HostInput), P s → P { s with hostIn := rest }

theorem KeptByCommands.and {P Q : State → Prop} (hP : KeptByCommands P) (hQ : KeptByCommands Q) :
    KeptByCommands fun s => P s ∧ Q s where
  respond s o ho h := ⟨hP.respond s o ho h.1, hQ.respond s o ho h.2⟩
  raise s c info h := ⟨hP.raise s c info h.1, hQ.raise s c info h.2⟩
  tick s h := ⟨hP.tick s h.1, hQ.tick s h.2⟩
  write s regno data h := ⟨hP.write s regno data h.1, hQ.write s regno data h.2⟩

/-- A command keeps what its parts keep, and RESET what BlockReset keeps. -/
theorem KeptByCommands.exec {P : State → Prop} (hP : KeptByCommands P) {i : Instr} {s t : State}
    (hreset : i = .reset → P s → P s.blockReset) (h : exec i s = .next t) (hs : P s) : P t := by
  cases i with
  | nop =>
    cases h
    exact hs
  | enc a b c d =>
    cases h
    exact hP.respond s _ (fun _ _ => Output.noConfusion) hs
  | tick =>
    cases h
    split
    · exact hs
    · exact hP.tick s hs
  | frames count =>
    cases h
    exact tickTimes_induct hP.tick count.toNat s hs
  | wrreg regno data =>
    cases h
    split
    · exact hs
    · exact hP.write s regno data hs
  | rdreg regno =>
    rcases exec_rdreg regno s with ⟨r, -, e⟩ | ⟨-, e⟩ <;> cases e.symm.trans h
    · exact hP.respond s _ (fun _ _ => Output.noConfusion) hs
    · exact hP.respond _ _ (fun _ _ => Output.noConfusion) (hP.raise s .operand regno hs)
  | reset =>
    cases h
    exact hreset rfl hs

/-- A step keeps what its parts keep (10_state.md R45, 70_reset_and_hazards.md R251). -/
theorem KeptBySteps.step {P : State → Prop} (hP : KeptBySteps P) {s t : State}
    (h : step s = .next t) (hs : P s) : P t := by
  rcases step_cases s with ⟨-, e⟩ | ⟨w, rest, i, -, -, e⟩ | ⟨w, rest, why, -, -, e⟩ | ⟨rest, -, e⟩ |
    ⟨w, ticks, rest, -, e⟩ <;> rw [e] at h
  · cases h
    exact hs
  · exact hP.exec (fun _ => hP.reset _) h (hP.take s rest hs)
  · cases h
    exact hP.raise _ _ _ (hP.take s rest hs)
  · cases h
    exact hP.reset _ (hP.take s rest hs)
  · cases h
    rcases resetDuring_cases w ticks { s with hostIn := rest } with ⟨count, n, -, e⟩ | ⟨-, e⟩ <;> rw [e]
    · exact hP.reset _ (tickTimes_induct hP.tick n _ (hP.take s rest hs))
    · exact hP.reset _ (hP.take s rest hs)

/-! ### The parts, field by field -/

@[simp] theorem writeReg_params (s : State) (regno : BitVec 8) (data : Word) :
    (writeReg s regno data).params = s.params := (writeReg_frame s regno data).1

@[simp] theorem writeReg_out (s : State) (regno : BitVec 8) (data : Word) :
    (writeReg s regno data).out = s.out := (writeReg_frame s regno data).2.2.2.1

@[simp] theorem blockReset_params (s : State) : s.blockReset.params = s.params := by
  rw [blockReset_eq]
  rfl

@[simp] theorem blockReset_out (s : State) : s.blockReset.out = s.out := by
  rw [blockReset_eq]

@[simp] theorem blockReset_mod (s : State) (k : Stream) :
    s.blockReset.mod k = freshCtx s.params := by
  rw [blockReset_eq]
  exact resetWith_mod s.params k

theorem writeStreamEn_mod (s : State) (data : Word) (k : Stream) :
    (writeStreamEn s data).mod k =
      if (data &&& streamMask s.params).getLsbD k.val && !s.enabled k then freshCtx s.params
      else s.mod k :=
  getElem_perStream _ k

/-- A register write resets a context or leaves it (44_control.md R193, R196). -/
theorem writeReg_mod (s : State) (regno : BitVec 8) (data : Word) (k : Stream) :
    (writeReg s regno data).mod k = freshCtx s.params ∨ (writeReg s regno data).mod k = s.mod k := by
  rcases writeReg_cases s regno data with h | h | ⟨v, -, h⟩ | ⟨v, -, h⟩ | ⟨j, v, -, h⟩ | ⟨j, -, h⟩ |
    ⟨j, -, h⟩ <;> rw [h]
  case inr.inl =>
    rw [writeStreamEn_mod]
    split
    · exact .inl rfl
    · exact .inr rfl
  all_goals exact .inr rfl

/-! ### The contexts under a tick -/

/-- The context after a call that gives a sample (41_modulator.md R137, R138). -/
@[simp] theorem finishStep_mod (s : State) (k : Stream) (m : ModCtx) :
    (finishStep s k m).state.mod k = clearRead s.params (countSample m) :=
  setMod_mod_self s k _

/-- What every call of ModStep keeps of the context of its stream, a pass keeps of every context
(43_mixer.md R171). -/
theorem stepStreams_mod {R : Params → Stream → ModCtx → Prop}
    (call : ∀ s k, s.enabled k = true → R s.params k (s.mod k) →
      R s.params k ((modStep s k).state.mod k))
    (ks : List Stream) (s : State) (h : ∀ k, R s.params k (s.mod k)) (k : Stream) :
    R s.params k ((stepStreams ks s).state.mod k) := by
  induction ks generalizing s with
  | nil => exact h k
  | cons j rest ih =>
    have hsb := modStep_sameBut s j
    have hnext : s.enabled j = true → ∀ k, R (modStep s j).state.params k ((modStep s j).state.mod k) := by
      intro hj k
      rw [hsb.params_eq]
      by_cases hk : k = j
      · subst hk
        exact call s k hj (h k)
      · rw [hsb.mods_eq k hk]
        exact h k
    unfold stepStreams
    split
    · rename_i hj
      specialize hnext hj
      cases hm : modStep s j with
      | underrun u =>
        rw [hm] at hsb hnext
        exact hsb.params_eq ▸ hnext k
      | sample y u =>
        rw [hm] at hsb hnext
        rw [withSample_state, ← show u.params = s.params from hsb.params_eq]
        exact ih u hnext
    · exact ih s h

/-- The same of a tick: one that underruns leaves every context (60_exceptions.md R226). -/
theorem tickBody_mod {R : Params → Stream → ModCtx → Prop}
    (call : ∀ s k, s.enabled k = true → R s.params k (s.mod k) →
      R s.params k ((modStep s k).state.mod k))
    (s : State) (h : ∀ k, R s.params k (s.mod k)) (k : Stream) :
    R s.params k ((tickBody s).mod k) := by
  rcases tickBody_cases s with ⟨samples, s', hpass, -, e⟩ | ⟨j, s', -, -, -, e⟩ <;> rw [e]
  · have := stepStreams_mod call allStreams s h k
    rw [hpass] at this
    exact this
  · exact h k

/-- What a fresh context has and every call of ModStep keeps, every command keeps of every context. -/
theorem keptByCommands_mods {R : Params → Stream → ModCtx → Prop}
    (fresh : ∀ p k, R p k (freshCtx p))
    (call : ∀ s k, s.enabled k = true → R s.params k (s.mod k) →
      R s.params k ((modStep s k).state.mod k)) :
    KeptByCommands fun s => ∀ k, R s.params k (s.mod k) where
  respond _ _ _ h := h
  raise _ _ _ h := h
  tick s h k := by
    rw [tickBody_params]
    exact tickBody_mod call s h k
  write s regno data h k := by
    rw [writeReg_params]
    rcases writeReg_mod s regno data k with e | e <;> rw [e]
    · exact fresh s.params k
    · exact h k

/-! ### The clock of a stream -/

/-- Division by the period as a counter counts up: either it is complete and starts again, or it goes
on. -/
theorem succ_div_mod_cases {b : Nat} (hb : 0 < b) (n : Nat) :
    (n % b + 1 = b ∧ (n + 1) / b = n / b + 1 ∧ (n + 1) % b = 0) ∨
      (n % b + 1 ≠ b ∧ (n + 1) / b = n / b ∧ (n + 1) % b = n % b + 1) := by
  have hlt := Nat.mod_lt n hb
  have hn := Nat.div_add_mod n b
  by_cases h : n % b + 1 = b
  · refine .inl ⟨h, (Nat.div_mod_unique hb).2 ⟨?_, hb⟩⟩
    rw [Nat.mul_succ]
    omega
  · exact .inr ⟨h, (Nat.div_mod_unique hb).2 ⟨by omega, by omega⟩⟩

/-- The counters of a context that is about to make its first call (10_state.md R38). -/
theorem atTime_zero_iff (p : Params) (m : ModCtx) :
    m.AtTime p 0 ↔ m.r = 0 ∧ m.w = 0 ∧ m.sampleCount = p.spb ∧ m.bitPos = 104 :=
  ⟨fun h => ⟨by simpa using h.r_eq, by simpa using h.w_eq, by simpa using h.sampleCount_eq,
    by simpa using h.bitPos_eq⟩,
   fun ⟨hr, hw, hs, hb⟩ => ⟨by simpa using hr, by simpa using hw, by simpa using hs, by simpa using hb⟩⟩

/-- The counters of a context whose last call had the number `n`, from 0 on (10_state.md R38). -/
theorem atTime_succ_iff (p : Params) (m : ModCtx) (n : Nat) :
    m.AtTime p (n + 1) ↔ m.r = (n + 1) % p.accLen ∧ m.w = (n / p.spb + 1) * p.spb % p.accLen ∧
      m.sampleCount = n % p.spb + 1 ∧ m.bitPos = n / p.spb % 104 + 1 :=
  ⟨fun h => ⟨h.r_eq, by simpa using h.w_eq, by simpa using h.sampleCount_eq,
    by simpa using h.bitPos_eq⟩,
   fun ⟨hr, hw, hs, hb⟩ => ⟨hr, by simpa using hw, by simpa using hs, by simpa using hb⟩⟩

theorem freshCtx_atTime (p : Params) : (freshCtx p).AtTime p 0 :=
  (atTime_zero_iff p _).2 ⟨rfl, rfl, rfl, rfl⟩

/-- A call that is no boundary (41_modulator.md R137, R138). -/
theorem ModCtx.AtTime.next_between {p : Params} {m : ModCtx} {t : Nat} (h : m.AtTime p t)
    (hs : m.sampleCount ≠ p.spb) : (clearRead p (countSample m)).AtTime p (t + 1) := by
  have hr : (m.r + 1) % p.accLen = (t + 1) % p.accLen := by rw [h.r_eq, Nat.mod_add_mod]
  cases t with
  | zero => exact absurd ((atTime_zero_iff p m).1 h).2.2.1 hs
  | succ n =>
    obtain ⟨-, hw, hc, hb⟩ := (atTime_succ_iff p m n).1 h
    rw [hc] at hs
    rcases succ_div_mod_cases p.spb_pos n with ⟨hfull, -, -⟩ | ⟨-, hdiv, hmod⟩
    · exact absurd hfull hs
    · rw [atTime_succ_iff, hdiv, hmod, ← hw, ← hb, ← hc]
      exact ⟨hr, rfl, rfl, rfl⟩

/-- A call that is a boundary, on the context as the group load leaves it: the bit cursor of an exhausted
buffer is back at 0 (41_modulator.md R133, R134, R137). -/
theorem ModCtx.AtTime.next_boundary {p : Params} {m m' : ModCtx} {t : Nat} (h : m.AtTime p t)
    (hs : m.sampleCount = p.spb) (hr' : m'.r = m.r) (hw' : m'.w = m.w)
    (hb' : m'.bitPos = m.bitPos % 104) (tick : Nat) (k : Stream) :
    (clearRead p (countSample (boundary p tick k m'))).AtTime p (t + 1) := by
  have hr : (m'.r + 1) % p.accLen = (t + 1) % p.accLen := by rw [hr', h.r_eq, Nat.mod_add_mod]
  have hw : (m'.w + p.spb) % p.accLen = (t / p.spb + 1) * p.spb % p.accLen ∧ t % p.spb = 0 ∧
      m'.bitPos = t / p.spb % 104 := by
    rw [hw', hb']
    cases t with
    | zero =>
      obtain ⟨-, hw, -, hb⟩ := (atTime_zero_iff p m).1 h
      simp [hw, hb]
    | succ n =>
      obtain ⟨-, hw, hc, hb⟩ := (atTime_succ_iff p m n).1 h
      rw [hc] at hs
      rcases succ_div_mod_cases p.spb_pos n with ⟨-, hdiv, hmod⟩ | ⟨hpart, -, -⟩
      · rw [hdiv, hw, hb, Nat.mod_add_mod, Nat.succ_mul (n / p.spb + 1)]
        exact ⟨rfl, hmod, by omega⟩
      · exact absurd hs hpart
  obtain ⟨hw, hc, hb⟩ := hw
  rw [atTime_succ_iff, ← hw, hc, ← hb]
  exact ⟨hr, rfl, rfl, rfl⟩

theorem ModCtx.AtTime.bitPos_le {p : Params} {m : ModCtx} {t : Nat} (h : m.AtTime p t) :
    m.bitPos ≤ 104 := by
  rw [h.bitPos_eq]
  split <;> omega

/-- A call that gives a sample takes the context to the next time. -/
theorem modStep_atTime {s s' : State} {k : Stream} {y : F32} {t : Nat}
    (h : (s.mod k).AtTime s.params t) (hstep : modStep s k = .sample y s') :
    (s'.mod k).AtTime s.params (t + 1) := by
  rcases modStep_cases s k with ⟨hs, e⟩ | ⟨hs, hb, e⟩ | ⟨hs, hb, ⟨-, e⟩ | ⟨g, -, e⟩⟩ <;>
    rw [e] at hstep
  · cases hstep
    rw [setMod_mod_self]
    exact h.next_between hs
  · cases hstep
    rw [setMod_mod_self]
    have := h.bitPos_le
    exact h.next_boundary hs rfl rfl (by omega) _ k
  · cases hstep
  · cases hstep
    rw [setMod_mod_self]
    exact h.next_boundary (m' := loadGroup s.params k g (s.mod k)) hs rfl rfl
      (show 0 = _ by rw [hb]) _ k

/-- A call that underruns leaves every context (60_exceptions.md R226). -/
theorem modStep_underrun_mod {s s' : State} {k : Stream} (h : modStep s k = .underrun s')
    (j : Stream) : s'.mod j = s.mod j := by
  rcases modStep_cases s k with ⟨-, e⟩ | ⟨-, -, e⟩ | ⟨-, -, ⟨-, e⟩ | ⟨g, -, e⟩⟩ <;> cases e.symm.trans h
  rfl

/-- Settles O43: each of the three kinds of call counts on. -/
theorem modStepAdvancesTheStreamClock : Obligations.ModStepAdvancesTheStreamClock := by
  unfold Obligations.ModStepAdvancesTheStreamClock
  exact ⟨freshCtx_atTime, fun s s' k y t h hstep => modStep_atTime h hstep⟩

/-- Every step keeps every context at some time of its clock. -/
theorem streamClocks_keptBySteps :
    KeptBySteps fun s => ∀ k, ∃ n, (s.mod k).AtTime s.params n where
  toKeptByCommands := keptByCommands_mods (R := fun p _ m => ∃ n, m.AtTime p n)
    (fun p _ => ⟨0, freshCtx_atTime p⟩)
    (fun s k _ ⟨n, h⟩ => by
      cases hm : modStep s k with
      | sample y s' => exact ⟨n + 1, modStep_atTime h hm⟩
      | underrun s' => exact ⟨n, (modStep_underrun_mod hm k).symm ▸ h⟩)
  reset s _ k := ⟨0, by
    rw [blockReset_mod, blockReset_params]
    exact freshCtx_atTime s.params⟩
  take _ _ h := h

/-- Settles O60: a context is reset, or counts its call, or is left. -/
theorem everyStepKeepsTheStreamClocks : Obligations.EveryStepKeepsTheStreamClocks := by
  unfold Obligations.EveryStepKeepsTheStreamClocks
  exact fun s t h hstep => streamClocks_keptBySteps.step hstep h

/-! ### STATUS -/

/-- A tick records at most one error (60_exceptions.md R226). -/
theorem tickBody_status (s : State) :
    (tickBody s).status = s.status ∨ ∃ c info, (tickBody s).status = s.status.raise c info := by
  rcases tickBody_cases s with ⟨samples, s', -, h, e⟩ | ⟨k, s', -, -, -, e⟩ <;> rw [e]
  · exact .inl h.status_eq
  · exact .inr ⟨_, _, rfl⟩

/-- A register write records at most one error (44_control.md R193). -/
theorem writeReg_status (s : State) (regno : BitVec 8) (data : Word) :
    (writeReg s regno data).status = s.status ∨
      ∃ c info, (writeReg s regno data).status = s.status.raise c info := by
  rcases writeReg_cases s regno data with h | h | ⟨v, -, h⟩ | ⟨v, -, h⟩ | ⟨k, v, -, h⟩ | ⟨k, -, h⟩ |
    ⟨k, -, h⟩ <;> rw [h]
  case inl => exact .inr ⟨_, _, rfl⟩
  case inr.inr.inr.inr.inr.inr => exact .inr ⟨_, _, rfl⟩
  all_goals exact .inl rfl

/-- What an error keeps of STATUS every command but RESET keeps of it. -/
theorem keptByCommands_status {Q : Status → Prop}
    (raise : ∀ st c info, Q st → Q (st.raise c info)) : KeptByCommands fun s => Q s.status where
  respond _ _ _ h := h
  raise s c info h := raise s.status c info h
  tick s h := by
    rcases tickBody_status s with e | ⟨c, info, e⟩ <;> rw [e]
    · exact h
    · exact raise s.status c info h
  write s regno data h := by
    rcases writeReg_status s regno data with e | ⟨c, info, e⟩ <;> rw [e]
    · exact h
    · exact raise s.status c info h

/-- An error is recorded as the first one exactly where none was (60_exceptions.md R222). -/
theorem raise_first (st : Status) (c : Cause) (info : BitVec 8) :
    (st.firstCause = 0#4 → (st.raise c info).firstCause = c.code) ∧
      (st.firstCause ≠ 0#4 → (st.raise c info).firstCause = st.firstCause ∧
        (st.raise c info).firstInfo = st.firstInfo) :=
  ⟨fun h => if_pos h, fun h => ⟨if_neg h, if_neg h⟩⟩

theorem raise_firstCause_ne_zero (st : Status) (c : Cause) (info : BitVec 8) :
    (st.raise c info).firstCause ≠ 0#4 := by
  obtain ⟨first, later⟩ := raise_first st c info
  by_cases h : st.firstCause = 0#4
  · rw [first h]
    exact c.code_ne_zero
  · rw [(later h).1]
    exact h

theorem raise_flag_self (st : Status) (c : Cause) (info : BitVec 8) :
    (st.raise c info).flag c = true := by
  simp [raise_flag]

theorem raise_flag_of_flag {st : Status} {d : Cause} (h : st.flag d = true) (c : Cause)
    (info : BitVec 8) : (st.raise c info).flag d = true := by
  simp [raise_flag, h]

/-- HALTED goes with the two fatal flags, in an error as in the state before it. -/
theorem raise_halted_iff {st : Status} (h : st.halted = (st.eOscAlloc || st.eUnderrun)) (c : Cause)
    (info : BitVec 8) : (st.raise c info).halted =
      ((st.raise c info).eOscAlloc || (st.raise c info).eUnderrun) := by
  have hosc : (st.raise c info).eOscAlloc = _ := raise_flag st c .oscAlloc info
  have hunder : (st.raise c info).eUnderrun = _ := raise_flag st c .underrun info
  rw [hosc, hunder, show (st.raise c info).halted = (st.halted || c.fatal) from rfl, h]
  cases c <;> simp [Status.flag, Cause.fatal]

theorem clearStatus_consistent : clearStatus.Consistent where
  halted_iff := rfl
  none_iff := ⟨fun _ c => clearStatus_flag c, fun _ => rfl⟩
  first_flag h := absurd rfl h
  info_zero _ := rfl

/-- An error keeps STATUS consistent (60_exceptions.md R222). -/
theorem Status.Consistent.raise {st : Status} (h : st.Consistent) (c : Cause) (info : BitVec 8) :
    (st.raise c info).Consistent where
  halted_iff := raise_halted_iff h.halted_iff c info
  none_iff := by
    refine iff_of_false (raise_firstCause_ne_zero st c info) fun hnone => ?_
    have := raise_flag_self st c info
    rw [hnone c] at this
    cases this
  first_flag _ := by
    obtain ⟨first, later⟩ := raise_first st c info
    by_cases h0 : st.firstCause = 0#4
    · exact ⟨c, first h0, raise_flag_self st c info⟩
    · obtain ⟨d, hcode, hflag⟩ := h.first_flag h0
      exact ⟨d, (later h0).1.trans hcode, raise_flag_of_flag hflag c info⟩
  info_zero h0 := absurd h0 (raise_firstCause_ne_zero st c info)

/-- `st'` still holds every flag, HALTED and the first cause that `st` records (10_state.md R23). -/
def Status.Keeps (st st' : Status) : Prop :=
  (∀ c, st.flag c = true → st'.flag c = true) ∧ (st.halted = true → st'.halted = true) ∧
    (st.firstCause ≠ 0#4 → st'.firstCause = st.firstCause ∧ st'.firstInfo = st.firstInfo)

theorem Status.Keeps.refl (st : Status) : st.Keeps st :=
  ⟨fun _ h => h, fun h => h, fun _ => ⟨rfl, rfl⟩⟩

/-- One more error clears nothing (60_exceptions.md R222). -/
theorem Status.Keeps.raise {st st' : Status} (h : st.Keeps st') (c : Cause) (info : BitVec 8) :
    st.Keeps (st'.raise c info) := by
  obtain ⟨hflag, hhalted, hfirst⟩ := h
  refine ⟨fun d hd => raise_flag_of_flag (hflag d hd) c info, fun hh => ?_, fun h0 => ?_⟩
  · simp [Status.raise, hhalted hh]
  · obtain ⟨hcause, hinfo⟩ := hfirst h0
    rw [← hcause, ← hinfo]
    exact (raise_first st' c info).2 (hcause ▸ h0)

/-- Settles O19: commands but RESET reach STATUS through errors alone. -/
theorem onlyResetClearsStatus : Obligations.OnlyResetClearsStatus := by
  unfold Obligations.OnlyResetClearsStatus
  intro i s t hi h
  exact (keptByCommands_status (Q := s.status.Keeps) fun _ c info hst => hst.raise c info).exec
    (fun e => absurd e hi) h (Status.Keeps.refl s.status)

/-! ### The control registers -/

/-- STREAM_EN and the levels are in their ranges (10_state.md R24 to R27). -/
def State.RegistersOk (s : State) : Prop :=
  s.streamEn &&& streamMask s.params = s.streamEn ∧ levelOk F32.one s.outVol ∧
    levelOk volMax s.pilotVol ∧ ∀ k : Stream, levelOk volMax (s.level k)

/-- A tick writes no control register (43_mixer.md R176). -/
theorem tickBody_levels (s : State) :
    (tickBody s).outVol = s.outVol ∧ (tickBody s).pilotVol = s.pilotVol ∧
      (tickBody s).streamVol = s.streamVol := by
  rcases tickBody_cases s with ⟨samples, s', -, h, e⟩ | ⟨k, s', -, -, -, e⟩ <;> rw [e]
  · exact ⟨h.outVol_eq, h.pilotVol_eq, h.streamVol_eq⟩
  · exact ⟨rfl, rfl, rfl⟩

theorem registersOk_keptByCommands : KeptByCommands State.RegistersOk where
  respond _ _ _ h := h
  raise _ _ _ h := h
  tick s h := by
    obtain ⟨hout, hpilot, hstream⟩ := tickBody_levels s
    simpa only [State.RegistersOk, State.level, tickBody_streamEn, tickBody_params, hout, hpilot,
      hstream] using h
  write s regno data h := by
    obtain ⟨hen, hout, hpilot, hstream⟩ := h
    rcases writeReg_cases s regno data with e | e | ⟨v, hv, e⟩ | ⟨v, hv, e⟩ | ⟨k, v, hv, e⟩ |
      ⟨k, -, e⟩ | ⟨k, -, e⟩ <;> rw [e]
    · exact ⟨hen, hout, hpilot, hstream⟩
    · refine ⟨?_, hout, hpilot, hstream⟩
      show data &&& streamMask s.params &&& streamMask s.params = data &&& streamMask s.params
      rw [BitVec.and_assoc, BitVec.and_self]
    · exact ⟨hen, hv, hpilot, hstream⟩
    · exact ⟨hen, hout, hv, hstream⟩
    · refine ⟨hen, hout, hpilot, fun j => ?_⟩
      rw [setStreamVol_level]
      split
      · exact hv
      · exact hstream j
    · exact ⟨hen, hout, hpilot, hstream⟩
    · exact ⟨hen, hout, hpilot, hstream⟩

/-! ### The oscillators -/

/-- What OscBuild leaves where the tables fit (42_oscillator.md R150 to R152). -/
theorem builtOsc_built {p : Params} {f : Word} (hfit : tableLen p.sr f.toNat ≤ p.oscCap) :
    (builtOsc p f).Built p where
  tables := rfl
  fits := hfit
  phase_lt := tableLen_pos p.sr_pos _
  sin_unit := (builtOsc_inUnit p f).1
  cos_unit := (builtOsc_inUnit p f).2

/-- Advancing moves the phase alone, within the table (42_oscillator.md R154). -/
theorem Osc.Built.advance {p : Params} {o : Osc} (h : o.Built p) : (oscAdvance o).Built p where
  tables := congrArg (fun q : Osc => { q with phase := (o.phase + 1) % o.n }) h.tables
  fits := h.fits
  phase_lt := Nat.mod_lt _ (Nat.zero_lt_of_lt h.phase_lt)
  sin_unit := h.sin_unit
  cos_unit := h.cos_unit

/-- A tick advances every oscillator or leaves every one (43_mixer.md R176, 60_exceptions.md R226). -/
theorem tickBody_oscillator (s : State) :
    (∀ k, (tickBody s).oscillator k = oscAdvance (s.oscillator k)) ∨
      ∀ k, (tickBody s).oscillator k = s.oscillator k := by
  rcases tickBody_cases s with ⟨samples, s', -, h, e⟩ | ⟨j, s', -, -, -, e⟩ <;> rw [e]
  · refine .inl fun k => (advanceOscs_oscillator s' k).trans ?_
    rw [State.oscillator, h.osc_eq]
    rfl
  · exact .inr fun k => rfl

theorem oscillatorsBuilt_keptByCommands :
    KeptByCommands fun s => ∀ k, (s.oscillator k).Built s.params where
  respond _ _ _ h := h
  raise _ _ _ h := h
  tick s h k := by
    rw [tickBody_params]
    rcases tickBody_oscillator s with e | e <;> rw [e k]
    · exact (h k).advance
    · exact h k
  write s regno data h k := by
    rcases writeReg_cases s regno data with e | e | ⟨v, -, e⟩ | ⟨v, -, e⟩ | ⟨j, v, -, e⟩ |
      ⟨j, hfit, e⟩ | ⟨j, -, e⟩ <;> rw [e]
    case inr.inr.inr.inr.inr.inl =>
      rw [setOsc_oscillator]
      split
      · exact builtOsc_built hfit
      · exact h k
    all_goals exact h k

/-! ### The modulator contexts -/

theorem freshCtx_inRange (p : Params) : (freshCtx p).InRange p where
  r_lt := p.accLen_pos
  w_lt := p.accLen_pos
  bitPos_le := Nat.le_refl _
  sampleCount_pos := p.spb_pos
  sampleCount_le := Nat.le_refl _
  acc_wf := accWf_nil _

/-- The counters that a boundary leaves, before its call counts (41_modulator.md R134 to R137). -/
theorem boundary_ranges (p : Params) (tick : Nat) (k : Stream) {m : ModCtx}
    (hacc : accWf p.accLen m.acc = true) :
    (boundary p tick k m).w < p.accLen ∧ (boundary p tick k m).sampleCount = 0 ∧
      (boundary p tick k m).bitPos = m.bitPos + 1 ∧ (boundary p tick k m).r = m.r ∧
      accWf p.accLen (boundary p tick k m).acc = true :=
  ⟨Nat.mod_lt _ p.accLen_pos, rfl, rfl, rfl, addShape_wf tick k p.accLen_pos _ _ _ _ hacc⟩

/-- The end of a call (41_modulator.md R137, R138), from counters in range with room for one sample
more. -/
theorem clearRead_countSample_inRange {p : Params} {m : ModCtx} (hr : m.r < p.accLen)
    (hw : m.w < p.accLen) (hb : m.bitPos ≤ 104) (hs : m.sampleCount < p.spb)
    (hacc : accWf p.accLen m.acc = true) : (clearRead p (countSample m)).InRange p where
  r_lt := Nat.mod_lt _ p.accLen_pos
  w_lt := hw
  bitPos_le := hb
  sampleCount_pos := Nat.succ_pos _
  sampleCount_le := hs
  acc_wf := accWrite_wf hacc hr F32.zero

/-- A boundary and the end of its call. -/
theorem boundary_call_inRange {p : Params} {m : ModCtx} (hr : m.r < p.accLen) (hb : m.bitPos < 104)
    (hacc : accWf p.accLen m.acc = true) (tick : Nat) (k : Stream) :
    (clearRead p (countSample (boundary p tick k m))).InRange p := by
  obtain ⟨hw, hs, hb', hr', hacc'⟩ := boundary_ranges p tick k hacc
  exact clearRead_countSample_inRange (hr'.symm ▸ hr) hw (hb'.symm ▸ hb) (hs.symm ▸ p.spb_pos) hacc'

/-- A call keeps the context of its stream in range (10_state.md R38). -/
theorem modStep_inRange {s : State} {k : Stream} (h : (s.mod k).InRange s.params) :
    ((modStep s k).state.mod k).InRange s.params := by
  have hb := h.bitPos_le
  have hs := h.sampleCount_le
  rcases modStep_cases s k with ⟨hns, e⟩ | ⟨-, hnb, e⟩ | ⟨-, -, ⟨-, e⟩ | ⟨g, -, e⟩⟩ <;> rw [e]
  · rw [finishStep_mod]
    exact clearRead_countSample_inRange h.r_lt h.w_lt hb (by omega) h.acc_wf
  · rw [finishStep_mod]
    exact boundary_call_inRange h.r_lt (by omega) h.acc_wf _ k
  · exact h
  · rw [finishStep_mod]
    exact boundary_call_inRange (m := loadGroup s.params k g (s.mod k)) h.r_lt (by decide : 0 < 104)
      h.acc_wf _ k

theorem modsInRange_keptByCommands : KeptByCommands fun s => ∀ k, (s.mod k).InRange s.params :=
  keptByCommands_mods (R := fun p _ m => m.InRange p) (fun p _ => freshCtx_inRange p)
    fun _ _ _ h => modStep_inRange h

/-- A stream that is not implemented is never active (10_state.md R24). -/
theorem enabled_of_spare {s : State} {k : Stream} (h : s.params.nstreams ≤ k.val) :
    s.enabled k = false := by
  simp [State.enabled, Nat.not_lt.mpr h]

/-- No call is made for a stream that is not implemented (10_state.md R24). -/
theorem sparesFresh_keptByCommands :
    KeptByCommands fun s => ∀ k : Stream, s.params.nstreams ≤ k.val → s.mod k = freshCtx s.params :=
  keptByCommands_mods (R := fun p k m => p.nstreams ≤ k.val → m = freshCtx p) (fun _ _ _ => rfl)
    fun s k hen _ hspare => by
      rw [enabled_of_spare hspare] at hen
      cases hen

/-! ### The invariant -/

theorem inv_iff (s : State) : s.Inv ↔ s.status.Consistent ∧ s.RegistersOk ∧
    (∀ k, (s.oscillator k).Built s.params) ∧ (∀ k, (s.mod k).InRange s.params) ∧
    ∀ k : Stream, s.params.nstreams ≤ k.val → s.mod k = freshCtx s.params :=
  ⟨fun h => ⟨h.status_ok, ⟨h.streamEn_ok, h.outVol_ok, h.pilotVol_ok, h.streamVol_ok⟩, h.osc_ok,
    h.mods_ok, h.spare_ok⟩,
   fun ⟨hst, ⟨hen, hout, hpilot, hstream⟩, hosc, hmods, hspare⟩ =>
    ⟨hst, hen, hout, hpilot, hstream, hosc, hmods, hspare⟩⟩

theorem inv_keptByCommands : KeptByCommands State.Inv := by
  rw [funext fun s => propext (inv_iff s)]
  exact (keptByCommands_status (Q := Status.Consistent) fun _ c info h => h.raise c info).and <|
    registersOk_keptByCommands.and <| oscillatorsBuilt_keptByCommands.and <|
      modsInRange_keptByCommands.and sparesFresh_keptByCommands

/-- The level +0.0 is in every range (10_state.md R25 to R27). -/
theorem levelOk_zero {max : F32} (h : F32.le F32.zero max = true) : levelOk max F32.zero :=
  ⟨rfl, h⟩

/-- Settles O58, row by row of 10_state.md R48. -/
theorem powerOnStateHasTheInvariant : Obligations.PowerOnStateHasTheInvariant := by
  unfold Obligations.PowerOnStateHasTheInvariant
  exact fun p =>
    { status_ok := clearStatus_consistent
      streamEn_ok := BitVec.zero_and
      outVol_ok := levelOk_refl rfl rfl
      pilotVol_ok := levelOk_zero (by decide)
      streamVol_ok := fun k => by
        rw [resetWith_level]
        exact levelOk_zero (by decide)
      osc_ok := fun k => by
        rw [resetWith_oscillator]
        exact builtOsc_built (p.default_fits k)
      mods_ok := fun k => by
        rw [resetWith_mod]
        exact freshCtx_inRange p
      spare_ok := fun k _ => resetWith_mod p k }

/-- The invariant says nothing of the ports or of the counter of free values. -/
theorem State.Inv.of_ports {s : State} (h : s.Inv) (hostIn : List HostInput)
    (groupIn : Vector (List (Option Group)) 4) (out : List Output) (freeIndex : Nat) :
    State.Inv { s with hostIn, groupIn, out, freeIndex } :=
  { h with }

theorem inv_keptBySteps : KeptBySteps State.Inv where
  toKeptByCommands := inv_keptByCommands
  reset s _ := by
    rw [blockReset_eq]
    exact (powerOnStateHasTheInvariant s.params).of_ports ..
  take s rest h := h.of_ports rest s.groupIn s.out s.freeIndex

/-- Settles O59: each part of the invariant is kept by each part of a command. -/
theorem everyStepKeepsTheInvariant : Obligations.EveryStepKeepsTheInvariant := by
  unfold Obligations.EveryStepKeepsTheInvariant
  exact fun s t h hstep => inv_keptBySteps.step hstep h

/-! ### The parameters and the output -/

/-- Settles O54: no part of a step writes the parameters. -/
theorem parametersNeverChange : Obligations.ParametersNeverChange := by
  unfold Obligations.ParametersNeverChange
  intro s t hstep
  have kept : KeptBySteps fun u => u.params = s.params :=
    { respond := fun _ _ _ h => h
      raise := fun _ _ _ h => h
      tick := fun u h => (tickBody_params u).trans h
      write := fun u regno data h => (writeReg_params u regno data).trans h
      reset := fun u h => (blockReset_params u).trans h
      take := fun _ _ h => h }
  exact kept.step hstep rfl

/-- Every frame of a list of outputs has equal channels (30_encoding.md R95). -/
def Stereo (os : List Output) : Prop := ∀ l r, Output.frame l r ∈ os → l = r

theorem Stereo.append {os os' : List Output} (h : Stereo os) (h' : Stereo os') :
    Stereo (os ++ os') :=
  fun l r hm => (List.mem_append.mp hm).elim (h l r) (h' l r)

theorem stereo_requests (js : List Stream) : Stereo (js.map .groupRequest) := by
  simp [Stereo]

theorem stereo_frame (y : F32) : Stereo [.frame y y] := by
  simp [Stereo]

/-- A tick appends its requests and, unless it underruns, one frame with equal channels
(43_mixer.md R171, R176). -/
theorem tickBody_out (s : State) : ∃ new, (tickBody s).out = s.out ++ new ∧ Stereo new := by
  rcases tickBody_cases s with ⟨samples, s', -, h, e⟩ | ⟨k, s', -, -, h, e⟩ <;>
    obtain ⟨js, -, hout⟩ := h.out_eq <;> rw [e]
  · refine ⟨js.map .groupRequest ++ [.frame (outputValue s' samples) (outputValue s' samples)], ?_,
      (stereo_requests js).append (stereo_frame _)⟩
    simp [finishTick, hout]
  · exact ⟨js.map .groupRequest, hout, stereo_requests js⟩

/-- The output of `t` is `old` with a stereo list appended. -/
def ExtendsOutput (old : List Output) (t : State) : Prop :=
  ∃ new, t.out = old ++ new ∧ Stereo new

theorem ExtendsOutput.append {old new : List Output} {t u : State} (h : ExtendsOutput old t)
    (hout : u.out = t.out ++ new) (hnew : Stereo new) : ExtendsOutput old u := by
  obtain ⟨os, ho, hs⟩ := h
  exact ⟨os ++ new, by rw [hout, ho, List.append_assoc], hs.append hnew⟩

theorem extendsOutput_keptBySteps (old : List Output) : KeptBySteps (ExtendsOutput old) where
  respond s o ho h := h.append rfl fun l r hm => absurd (List.mem_singleton.mp hm).symm (ho l r)
  raise _ _ _ h := h
  tick s h := by
    obtain ⟨new, hout, hnew⟩ := tickBody_out s
    exact h.append hout hnew
  write s regno data h := by
    rw [ExtendsOutput, writeReg_out]
    exact h
  reset s h := by
    rw [ExtendsOutput, blockReset_out]
    exact h
  take _ _ h := h

/-- Settles O53: responses and ticks append, nothing else touches the output. -/
theorem outputOnlyGrowsAndFramesAreStereo : Obligations.OutputOnlyGrowsAndFramesAreStereo := by
  unfold Obligations.OutputOnlyGrowsAndFramesAreStereo
  intro s t hstep
  exact (extendsOutput_keptBySteps s.out).step hstep
    ⟨[], (List.append_nil _).symm, fun _ _ hm => absurd hm List.not_mem_nil⟩

/-! ### A level that is not mixed -/

/-- The same result with another state. -/
def ModResult.mapState (f : State → State) : ModResult → ModResult
  | .sample y s => .sample y (f s)
  | .underrun s => .underrun (f s)

/-- The same pass with another state. -/
def Pass.mapState (f : State → State) : Pass → Pass
  | .done samples s => .done samples (f s)
  | .underrun k s => .underrun k (f s)

theorem withSample_mapState (f : State → State) (k : Stream) (y : F32) (r : Pass) :
    (r.mapState f).withSample k y = (r.withSample k y).mapState f := by
  cases r <;> rfl

/-- The end of a call does not read a level (41_modulator.md R137, R138). -/
theorem finishStep_setStreamVol (s : State) (j k : Stream) (v : F32) (m : ModCtx) :
    finishStep (s.setStreamVol k v) j m = (finishStep s j m).mapState (·.setStreamVol k v) := rfl

/-- ModStep does not read a level (41_modulator.md R130). -/
theorem modStep_setStreamVol (s : State) (j k : Stream) (v : F32) :
    modStep (s.setStreamVol k v) j = (modStep s j).mapState (·.setStreamVol k v) := by
  by_cases hs : (s.mod j).sampleCount = s.params.spb
  · by_cases hb : (s.mod j).bitPos = 104
    · simp only [modStep, setStreamVol_mod, setStreamVol_params, setStreamVol_groups, hs, hb, if_true,
        State.requestGroup]
      cases (s.groups j).head?.join <;> rfl
    · simp only [modStep, setStreamVol_mod, setStreamVol_params, setStreamVol_freeIndex, hs, hb,
        if_true, if_false, finishStep_setStreamVol]
  · simp only [modStep, setStreamVol_mod, setStreamVol_params, hs, if_false, finishStep_setStreamVol]

/-- A pass over the streams does not read a level (43_mixer.md R171). -/
theorem stepStreams_setStreamVol (ks : List Stream) (s : State) (k : Stream) (v : F32) :
    stepStreams ks (s.setStreamVol k v) = (stepStreams ks s).mapState (·.setStreamVol k v) := by
  induction ks generalizing s with
  | nil => rfl
  | cons j rest ih =>
    unfold stepStreams
    rw [setStreamVol_enabled, modStep_setStreamVol]
    split
    · cases modStep s j with
      | underrun u => rfl
      | sample y u =>
        show (stepStreams rest (u.setStreamVol k v)).withSample j y = _
        rw [ih, withSample_mapState]
    · exact ih s

/-- Only active streams give samples (43_mixer.md R171). -/
theorem stepStreams_done_enabled {ks : List Stream} {s t : State} {samples : List (Stream × F32)}
    (h : stepStreams ks s = .done samples t) : ∀ ky ∈ samples, s.enabled ky.1 = true := by
  induction ks generalizing s samples with
  | nil =>
    cases h
    exact fun _ hm => absurd hm List.not_mem_nil
  | cons j rest ih =>
    unfold stepStreams at h
    split at h
    · rename_i hj
      have hsb := modStep_sameBut s j
      cases hm : modStep s j with
      | underrun u => simp [hm] at h
      | sample y u =>
        rw [hm] at hsb
        cases hr : stepStreams rest u with
        | underrun i u' => simp [hm, hr, Pass.withSample] at h
        | done tail u' =>
          simp only [hm, hr, Pass.withSample, Pass.done.injEq] at h
          obtain ⟨rfl, rfl⟩ := h
          refine List.forall_mem_cons.mpr ⟨hj, fun ky hky => ?_⟩
          rw [← hsb.enabled_eq]
          exact ih hr ky hky
    · exact ih h

/-- The mix reads only the levels of the streams that gave samples (43_mixer.md R173). -/
theorem outputValue_setStreamVol {s : State} {k : Stream} {samples : List (Stream × F32)}
    (h : ∀ ky ∈ samples, ky.1 ≠ k) (v : F32) :
    outputValue (s.setStreamVol k v) samples = outputValue s samples := by
  have hterm : ∀ acc, ∀ ky ∈ samples,
      addStreamTerm (s.setStreamVol k v) acc ky = addStreamTerm s acc ky := by
    intro acc ky hky
    have hlevel : (s.setStreamVol k v).level ky.1 = s.level ky.1 := by
      rw [setStreamVol_level, if_neg (h ky hky)]
    have hcarrier : carrier (s.setStreamVol k v) ky.1 = carrier s ky.1 := by
      unfold carrier
      split <;> rfl
    simp only [addStreamTerm, hlevel, hcarrier, setStreamVol_freeIndex]
  have hsum : mixSum (s.setStreamVol k v) samples = mixSum s samples :=
    List.foldl_ext _ _ _ hterm
  rw [outputValue, hsum]
  rfl

/-- The level of a stream that is not active does not flow into a tick (43_mixer.md R173). -/
theorem tickBody_setStreamVol {s : State} {k : Stream} (hk : s.enabled k = false) (v : F32) :
    tickBody (s.setStreamVol k v) = (tickBody s).setStreamVol k v := by
  unfold tickBody
  rw [stepStreams_setStreamVol]
  cases h : stepStreams allStreams s with
  | underrun j u => rfl
  | done samples u =>
    have hne : ∀ ky ∈ samples, ky.1 ≠ k := by
      rintro ky hky rfl
      rw [stepStreams_done_enabled h ky hky] at hk
      cases hk
    show finishTick (u.setStreamVol k v) samples = (finishTick u samples).setStreamVol k v
    unfold finishTick
    rw [outputValue_setStreamVol hne]
    rfl

/-- Settles O56: a stream that is not implemented is never active. -/
theorem spareStreamLevelIsNeverMixed : Obligations.SpareStreamLevelIsNeverMixed := by
  unfold Obligations.SpareStreamLevelIsNeverMixed
  intro s t k v hspare h
  rw [exec_tick] at h
  cases h
  rw [exec_tick, setStreamVol_halted, tickBody_setStreamVol (enabled_of_spare hspare)]
  split <;> rfl

/-! ### The decoded command -/

/-- Settles O1: the step takes the word, and the decoder has answered. -/
theorem stepRunsTheDecodedCommand : Obligations.StepRunsTheDecodedCommand := by
  unfold Obligations.StepRunsTheDecodedCommand
  intro s w rest i hin hdecode
  simp only [step, hin, runWord, hdecode]

/-! ### Register layouts -/

/-- A field above another one weighs a power of two. -/
theorem toNat_append_eq {m n : Nat} (x : BitVec m) (y : BitVec n) :
    (x ++ y).toNat = x.toNat * 2 ^ n + y.toNat := by
  rw [BitVec.toNat_append, ← Nat.shiftLeft_add_eq_or_of_lt y.isLt, Nat.shiftLeft_eq]

/-- What RDREG of a register that exists answers (44_control.md R195). -/
theorem exec_rdreg_of_regOf {regno : BitVec 8} {r : Reg} (h : regOf regno = some r) (s : State) :
    exec (.rdreg regno) s = .next { s with out := s.out ++ [.regResp (readReg s r)] } := by
  rcases exec_rdreg regno s with ⟨r', h', e⟩ | ⟨h', -⟩
  · cases h.symm.trans h'
    exact e
  · cases h.symm.trans h'

/-- The fields of STATUS by weight (10_state.md R23). -/
theorem status_word_toNat (st : Status) :
    st.word.toNat = st.halted.toNat + 2 * st.eIllegal.toNat + 4 * st.eOperand.toNat +
      8 * st.eOscAlloc.toNat + 16 * st.eUnderrun.toNat + 256 * st.firstCause.toNat +
      65536 * st.firstInfo.toNat := by
  simp only [Status.word, toNat_append_eq, BitVec.toNat_ofBool, BitVec.toNat_ofNat]
  omega

/-- Settles O17: number 0x00 names STATUS. -/
theorem statusReadsItsLayout : Obligations.StatusReadsItsLayout := by
  unfold Obligations.StatusReadsItsLayout
  exact fun s => ⟨s.status.word, exec_rdreg_of_regOf (r := .status) rfl s, status_word_toNat s.status⟩

theorem regOf_modState (k : Stream) :
    regOf (BitVec.ofNat 8 (0x20 + k.val)) = some (.modState k) := by
  revert k
  decide

theorem regOf_modPtr (k : Stream) : regOf (BitVec.ofNat 8 (0x24 + k.val)) = some (.modPtr k) := by
  revert k
  decide

/-- Counters and cursors in range fit the fields of MOD_STATE and MOD_PTR (10_state.md R31, R32). -/
theorem ModCtx.InRange.fits {p : Params} {m : ModCtx} (h : m.InRange p) :
    m.bitPos < 2 ^ 7 ∧ m.sampleCount < 2 ^ 16 ∧ m.r < 2 ^ 16 ∧ m.w < 2 ^ 16 := by
  obtain ⟨hr, hw, hb, -, hs, -⟩ := h
  have hlen := p.accLen_le
  have hspb := p.spb_lt_accLen
  omega

theorem modStateWord_toNat {p : Params} {m : ModCtx} (h : m.InRange p) :
    (modStateWord m).toNat =
      m.bitPos + 128 * m.curOut.toNat + 256 * m.prevOut.toNat + 65536 * m.sampleCount := by
  obtain ⟨hb, hs, -, -⟩ := h.fits
  simp only [modStateWord, toNat_append_eq, BitVec.toNat_ofBool, BitVec.toNat_ofNat,
    Nat.mod_eq_of_lt hb, Nat.mod_eq_of_lt hs]
  omega

theorem modPtrWord_toNat {p : Params} {m : ModCtx} (h : m.InRange p) :
    (modPtrWord m).toNat = m.r + 65536 * m.w := by
  obtain ⟨-, -, hr, hw⟩ := h.fits
  simp only [modPtrWord, toNat_append_eq, BitVec.toNat_ofNat, Nat.mod_eq_of_lt hr, Nat.mod_eq_of_lt hw]
  omega

/-- Settles O25: in range, every counter fits its field. -/
theorem modulatorCountersReadTheirLayout : Obligations.ModulatorCountersReadTheirLayout := by
  unfold Obligations.ModulatorCountersReadTheirLayout
  exact fun s k h => ⟨modStateWord (s.mod k), modPtrWord (s.mod k),
    exec_rdreg_of_regOf (regOf_modState k) s, modStateWord_toNat h,
    exec_rdreg_of_regOf (regOf_modPtr k) s, modPtrWord_toNat h⟩

end Sys2Proof.Machine

/-!
PROOFS. The command word both ways (30_encoding.md R80 to R85). A word is a command when the bits of its
reserved mask are 0, and each mask covers one field of the payload. So a legal payload is the operand
fields that `selectInstr` reads together with a field of zeros, which is what `encode` writes.
-/

namespace Sys2Proof

/-! ### Fields of the payload -/

/-- Masking the field of `len` bits from `start` leaves nothing exactly when that field is 0. -/
theorem and_fieldMask_eq_zero_iff {n start len : Nat} (h : start + len ≤ n) (x : BitVec n) :
    x &&& ((BitVec.allOnes len).setWidth n <<< start) = 0#n ↔ x.extractLsb' start len = 0#len := by
  constructor
  · intro hx
    refine BitVec.eq_of_getLsbD_eq fun i hi => ?_
    have hbit := congrArg (BitVec.getLsbD · (start + i)) hx
    simpa [hi, show start + i < n by omega, show i < n by omega] using hbit
  · intro hx
    refine BitVec.eq_of_getLsbD_eq fun i hi => ?_
    have hbit := congrArg (BitVec.getLsbD · (i - start)) hx
    by_cases hlow : i < start
    · simp [hlow]
    · rw [BitVec.getLsbD_extractLsb', Nat.add_sub_cancel' (Nat.not_lt.1 hlow)] at hbit
      by_cases hin : i - start < len <;> simp_all

/-- A field of the payload is the same field of the word. -/
theorem extractLsb'_payload (w : Cmd) (start len : Nat) (h : start + len ≤ 64) :
    w.payload.extractLsb' start len = w.extractLsb' start len := by
  refine BitVec.eq_of_getLsbD_eq fun i hi => ?_
  simp [Cmd.payload, show start + i < 64 by omega]

/-! A format's payload, as `encode` puts it together (30_encoding.md R81), and the operands read from it
(R82): `_read` reads the fields of a payload, `_append` gives the payload back from its fields. -/

theorem formatQ_read (a b c d : BitVec 16) :
    let pl : BitVec 64 := a ++ b ++ c ++ d
    pl.extractLsb' 48 16 = a ∧ pl.extractLsb' 32 16 = b ∧ pl.extractLsb' 16 16 = c ∧
      pl.extractLsb' 0 16 = d := by
  refine ⟨?_, ?_, ?_, BitVec.extractLsb'_append_eq_right⟩
  · exact (BitVec.extractLsb'_append_eq_of_le (by decide)).trans
      ((BitVec.extractLsb'_append_eq_of_le (by decide)).trans BitVec.extractLsb'_append_eq_left)
  · exact (BitVec.extractLsb'_append_eq_of_le (by decide)).trans
      ((BitVec.extractLsb'_append_eq_of_le (by decide)).trans BitVec.extractLsb'_append_eq_right)
  · exact (BitVec.extractLsb'_append_eq_of_le (by decide)).trans BitVec.extractLsb'_append_eq_right

theorem formatQ_append (pl : BitVec 64) :
    pl.extractLsb' 48 16 ++ pl.extractLsb' 32 16 ++ pl.extractLsb' 16 16 ++ pl.extractLsb' 0 16 =
      pl := by
  rw [BitVec.extractLsb'_append_extractLsb'_eq_extractLsb' (show 48 = 32 + 16 from rfl),
    BitVec.extractLsb'_append_extractLsb'_eq_extractLsb' (show 32 = 16 + 16 from rfl),
    BitVec.extractLsb'_append_extractLsb'_eq_extractLsb' (show 16 = 0 + 16 from rfl)]
  exact BitVec.extractLsb'_eq_self

theorem formatN_read (count : BitVec 32) :
    let pl : BitVec 64 := 0#32 ++ count
    pl.extractLsb' 0 32 = count :=
  BitVec.extractLsb'_append_eq_right

theorem formatN_append {pl : BitVec 64} (h : pl.extractLsb' 32 32 = 0#32) :
    0#32 ++ pl.extractLsb' 0 32 = pl := by
  rw [← h, BitVec.extractLsb'_append_extractLsb'_eq_extractLsb' (show 32 = 0 + 32 from rfl)]
  exact BitVec.extractLsb'_eq_self

theorem formatW_read (regno : BitVec 8) (data : Word) :
    let pl : BitVec 64 := regno ++ 0#24 ++ data
    pl.extractLsb' 56 8 = regno ∧ pl.extractLsb' 0 32 = data :=
  ⟨(BitVec.extractLsb'_append_eq_of_le (start := 56) (xhi := regno ++ 0#24) (xlo := data)
      (by decide)).trans BitVec.extractLsb'_append_eq_left,
    BitVec.extractLsb'_append_eq_right⟩

theorem formatW_append {pl : BitVec 64} (h : pl.extractLsb' 32 24 = 0#24) :
    pl.extractLsb' 56 8 ++ 0#24 ++ pl.extractLsb' 0 32 = pl := by
  rw [← h, BitVec.extractLsb'_append_extractLsb'_eq_extractLsb' (show 56 = 32 + 24 from rfl),
    BitVec.extractLsb'_append_extractLsb'_eq_extractLsb' (show 32 = 0 + 32 from rfl)]
  exact BitVec.extractLsb'_eq_self

theorem formatR_read (regno : BitVec 8) :
    let pl : BitVec 64 := regno ++ 0#56
    pl.extractLsb' 56 8 = regno :=
  BitVec.extractLsb'_append_eq_left

theorem formatR_append {pl : BitVec 64} (h : pl.extractLsb' 0 56 = 0#56) :
    pl.extractLsb' 56 8 ++ 0#56 = pl := by
  rw [← h, BitVec.extractLsb'_append_extractLsb'_eq_extractLsb' (show 56 = 0 + 56 from rfl)]
  exact BitVec.extractLsb'_eq_self

/-! ### The words that the decoder accepts -/

/-- The decoder answers a command exactly when the reserved bits of its OP are 0, and then it is the one
that OP selects (30_encoding.md R84). -/
theorem decode_eq_legal_iff (w : Cmd) (i : Instr) :
    decode w = .legal i ↔
      (∃ mask, reservedMask w.op = some mask ∧ w.payload &&& mask = 0#64) ∧
        selectInstr w.op w.payload = some i := by
  rw [decode_eq]
  cases reservedMask w.op with
  | none => simp
  | some mask =>
    cases selectInstr w.op w.payload with
    | none => simp
    | some j => by_cases hz : w.payload &&& mask = 0#64 <;> simp [hz]

/-- Some command is decoded exactly when the reserved bits are 0: OP selects one wherever it has a mask. -/
theorem exists_decode_legal_iff (w : Cmd) :
    (∃ i, decode w = .legal i) ↔
      ∃ mask, reservedMask w.op = some mask ∧ w.payload &&& mask = 0#64 := by
  simp only [decode_eq_legal_iff, exists_and_left]
  refine and_iff_left_of_imp fun ⟨mask, hmask, _⟩ => ?_
  refine Option.ne_none_iff_exists'.1 fun hnone => ?_
  simp [(selectInstr_none_iff _ _).1 hnone] at hmask

/-- OP is one of the seven of the opcode map or reserved (30_encoding.md R83). -/
theorem opcode_cases (op : BitVec 8) :
    op = 0x00#8 ∨ op = 0x01#8 ∨ op = 0x02#8 ∨ op = 0x03#8 ∨ op = 0x04#8 ∨ op = 0x05#8 ∨
      op = 0x06#8 ∨ 0x07 ≤ op.toNat := by
  bv_omega

/-- The reserved masks of 30_encoding.md R85 as fields of the payload. -/
theorem reservedBits_clear_iff (op : BitVec 8) (pl : BitVec 64) :
    (∃ mask, reservedMask op = some mask ∧ pl &&& mask = 0#64) ↔
      ((op = 0x00#8 ∨ op = 0x02#8 ∨ op = 0x06#8) ∧ pl = 0#64) ∨
        op = 0x01#8 ∨
        (op = 0x03#8 ∧ pl.extractLsb' 32 32 = 0#32) ∨
        (op = 0x04#8 ∧ pl.extractLsb' 32 24 = 0#24) ∨
        (op = 0x05#8 ∧ pl.extractLsb' 0 56 = 0#56) := by
  have whole : pl &&& 0xFFFFFFFFFFFFFFFF#64 = 0#64 ↔ pl = 0#64 := by
    rw [show 0xFFFFFFFFFFFFFFFF#64 = BitVec.allOnes 64 from rfl, BitVec.and_allOnes]
  have upper : pl &&& 0xFFFFFFFF00000000#64 = 0#64 ↔ pl.extractLsb' 32 32 = 0#32 :=
    and_fieldMask_eq_zero_iff (start := 32) (len := 32) (by decide) pl
  have middle : pl &&& 0x00FFFFFF00000000#64 = 0#64 ↔ pl.extractLsb' 32 24 = 0#24 :=
    and_fieldMask_eq_zero_iff (start := 32) (len := 24) (by decide) pl
  have lower : pl &&& 0x00FFFFFFFFFFFFFF#64 = 0#64 ↔ pl.extractLsb' 0 56 = 0#56 :=
    and_fieldMask_eq_zero_iff (start := 0) (len := 56) (by decide) pl
  rcases opcode_cases op with rfl | rfl | rfl | rfl | rfl | rfl | rfl | h
  · simp [reservedMask, whole]
  · simp [reservedMask]
  · simp [reservedMask, whole]
  · simp [reservedMask, upper]
  · simp [reservedMask, middle]
  · simp [reservedMask, lower]
  · simp [reservedMask, whole]
  · have hnone := (reservedMask_none_iff op).2 h
    constructor
    · simp [hnone]
    · rintro (⟨rfl | rfl | rfl, -⟩ | rfl | ⟨rfl, -⟩ | ⟨rfl, -⟩ | ⟨rfl, -⟩) <;> exact absurd h (by decide)

/-- Settles O4: the decoder's condition, field by field. -/
theorem legalWordsAreThoseWithReservedBitsZero :
    Obligations.LegalWordsAreThoseWithReservedBitsZero := by
  unfold Obligations.LegalWordsAreThoseWithReservedBitsZero
  intro w
  rw [exists_decode_legal_iff, reservedBits_clear_iff, extractLsb'_payload w 32 32 (by decide),
    extractLsb'_payload w 32 24 (by decide), extractLsb'_payload w 0 56 (by decide), Cmd.payload]

/-! ### Decoding and encoding -/

/-- The operands are read from where `encode` puts them (30_encoding.md R81, R82). -/
theorem selectInstr_encode (i : Instr) :
    selectInstr (encode i).op (encode i).payload = some i := by
  cases i with
  | nop => rfl
  | enc a b c d =>
    obtain ⟨ha, hb, hc, hd⟩ := formatQ_read a b c d
    simp [encode, selectInstr, ha, hb, hc, hd]
  | tick => rfl
  | frames count => simp [encode, selectInstr, formatN_read count]
  | wrreg regno data =>
    obtain ⟨hregno, hdata⟩ := formatW_read regno data
    simp [encode, selectInstr, hregno, hdata]
  | rdreg regno => simp [encode, selectInstr, formatR_read regno]
  | reset => rfl

theorem encode_reservedBits_clear (i : Instr) :
    ∃ mask, reservedMask (encode i).op = some mask ∧ (encode i).payload &&& mask = 0#64 := by
  cases i with
  | nop => exact Laws.ReservedBitsClear.nop
  | enc a b c d => exact Laws.ReservedBitsClear.enc a b c d
  | tick => exact Laws.ReservedBitsClear.tick
  | frames count => exact Laws.ReservedBitsClear.frames count
  | wrreg regno data => exact Laws.ReservedBitsClear.wrreg regno data
  | rdreg regno => exact Laws.ReservedBitsClear.rdreg regno
  | reset => exact Laws.ReservedBitsClear.reset

theorem decode_encode (i : Instr) : decode (encode i) = .legal i :=
  (decode_eq_legal_iff _ i).2 ⟨encode_reservedBits_clear i, selectInstr_encode i⟩

/-- Settles O6: the reserved bits are 0 and the operands stand where they are read. -/
theorem decodingAnEncodedCommandGivesItBack : Obligations.DecodingAnEncodedCommandGivesItBack := by
  unfold Obligations.DecodingAnEncodedCommandGivesItBack
  exact decode_encode

/-- A selected command is encoded to the halves it was selected from, if the reserved bits are 0. -/
theorem encode_of_selectInstr {op : BitVec 8} {pl : BitVec 64} {i : Instr}
    (hclear : ∃ mask, reservedMask op = some mask ∧ pl &&& mask = 0#64)
    (hi : selectInstr op pl = some i) : encode i = Cmd.make op pl := by
  rcases (reservedBits_clear_iff op pl).1 hclear with
    ⟨rfl | rfl | rfl, rfl⟩ | rfl | ⟨rfl, h⟩ | ⟨rfl, h⟩ | ⟨rfl, h⟩ <;> cases hi
  case inl.inl | inl.inr.inl | inl.inr.inr => rfl
  case inr.inl => rw [encode, formatQ_append]
  case inr.inr.inl => rw [encode, formatN_append h]
  case inr.inr.inr.inl => rw [encode, formatW_append h]
  case inr.inr.inr.inr => rw [encode, formatR_append h]

/-- Settles O7: a word is its two halves. -/
theorem encodingADecodedWordGivesItBack : Obligations.EncodingADecodedWordGivesItBack := by
  unfold Obligations.EncodingADecodedWordGivesItBack
  intro w i hw
  obtain ⟨hclear, hi⟩ := (decode_eq_legal_iff w i).1 hw
  rw [encode_of_selectInstr hclear hi, make_halves]

/-- A word that is written for a command is read as that command. -/
theorem decode_of_encode_eq {w : Cmd} {i : Instr} (h : encode i = w) : decode w = .legal i :=
  h ▸ decode_encode i

/-- Settles O8: each word is what its command encodes to. -/
theorem workedEncodingsDecode : Obligations.WorkedEncodingsDecode := by
  unfold Obligations.WorkedEncodingsDecode
  exact ⟨decode_of_encode_eq (by decide), decode_of_encode_eq (by decide),
    decode_of_encode_eq (by decide), by decide, decode_of_encode_eq (by decide), by decide,
    decode_of_encode_eq (by decide), by decide, by decide⟩

end Sys2Proof

/-!
PROOFS. The checkword encoder (40_checkword.md).
-/

namespace Sys2Proof.Machine

/-- Stream 0 uses the offset words of 30_encoding.md R94, whatever the configuration. -/
theorem offsetWord_zero (p : Params) (k : Position) (v : Bool) :
    offsetWord p 0 k v = legacyOffset k v := rfl

/-- Settles O11: the clauses are the equations of `legacyOffset`. -/
theorem offsetWordsOfStreamZero : Obligations.OffsetWordsOfStreamZero := by
  unfold Obligations.OffsetWordsOfStreamZero
  intro p v
  simp only [offsetWord_zero]
  exact ⟨rfl, rfl, rfl, rfl, rfl⟩

end Sys2Proof.Machine

/-!
PROOFS. Crc10 as a linear map and as a division over GF(2) (40_checkword.md R112, R117). Both
speak of sums of selected terms, such as the words that are the sum of their bits.
-/

namespace Sys2Proof.Machine

/-! ### Sums over GF(2) -/

/-- The XOR of the terms that are selected among the first `n`. -/
def xorSelected {w : Nat} (n : Nat) (sel : Nat → Bool) (term : Nat → BitVec w) : BitVec w :=
  (List.range n).foldl (fun x i => if sel i then x ^^^ term i else x) 0#w

theorem xorSelected_zero {w : Nat} (sel : Nat → Bool) (term : Nat → BitVec w) :
    xorSelected 0 sel term = 0#w := rfl

theorem xorSelected_succ {w : Nat} (n : Nat) (sel : Nat → Bool) (term : Nat → BitVec w) :
    xorSelected (n + 1) sel term =
      xorSelected n sel term ^^^ (if sel n then term n else 0#w) := by
  simp only [xorSelected, List.range_succ, List.foldl_append, List.foldl_cons, List.foldl_nil]
  split <;> simp

theorem xorSelected_congr {w : Nat} {n : Nat} {sel sel' : Nat → Bool} {term term' : Nat → BitVec w}
    (hsel : ∀ i < n, sel i = sel' i) (hterm : ∀ i < n, term i = term' i) :
    xorSelected n sel term = xorSelected n sel' term' := by
  induction n with
  | zero => rfl
  | succ n ih =>
    rw [xorSelected_succ, xorSelected_succ, hsel n n.lt_succ_self, hterm n n.lt_succ_self,
      ih (fun i hi => hsel i (hi.trans n.lt_succ_self))
        (fun i hi => hterm i (hi.trans n.lt_succ_self))]

/-- The top bit of the selection selects the last term. -/
theorem xorSelected_cons {w n : Nat} (b : Bool) (q : BitVec n) (term : Nat → BitVec w) :
    xorSelected (n + 1) (BitVec.cons b q).getLsbD term =
      xorSelected n q.getLsbD term ^^^ (if b then term n else 0#w) := by
  have low : ∀ i < n, (BitVec.cons b q).getLsbD i = q.getLsbD i := fun i hi => by
    rw [BitVec.getLsbD_cons, if_neg hi.ne]
  rw [xorSelected_succ, xorSelected_congr low fun _ _ => rfl, BitVec.getLsbD_cons, if_pos rfl]

theorem map_zero_of_map_xor {v w : Nat} {f : BitVec v → BitVec w}
    (add : ∀ a b, f (a ^^^ b) = f a ^^^ f b) : f 0#v = 0#w := by
  simpa using add 0#v 0#v

/-- An additive map goes through to the terms. -/
theorem map_xorSelected {v w : Nat} {f : BitVec v → BitVec w}
    (add : ∀ a b, f (a ^^^ b) = f a ^^^ f b) (n : Nat) (sel : Nat → Bool) (term : Nat → BitVec v) :
    f (xorSelected n sel term) = xorSelected n sel (fun i => f (term i)) := by
  induction n with
  | zero => exact map_zero_of_map_xor add
  | succ n ih =>
    rw [xorSelected_succ, xorSelected_succ, add, ih, apply_ite f, map_zero_of_map_xor add]

theorem getLsbD_xorSelected_bits {w : Nat} (x : BitVec w) (n j : Nat) :
    (xorSelected n x.getLsbD (BitVec.twoPow w)).getLsbD j = (decide (j < n) && x.getLsbD j) := by
  induction n with
  | zero => simp [xorSelected_zero]
  | succ n ih =>
    rw [xorSelected_succ, BitVec.getLsbD_xor, ih]
    by_cases hj : j = n
    · subst hj
      have inRange : x.getLsbD j = true → j < w := BitVec.lt_of_getLsbD
      split <;> simp_all
    · have below : j < n + 1 ↔ j < n := by omega
      split <;> simp [BitVec.getLsbD_twoPow, below, Ne.symm hj]

/-- A word is the sum of its bits. -/
theorem eq_xorSelected_bits {w : Nat} (x : BitVec w) :
    x = xorSelected w x.getLsbD (BitVec.twoPow w) := by
  refine BitVec.eq_of_getLsbD_eq fun i hi => ?_
  rw [getLsbD_xorSelected_bits, decide_eq_true hi, Bool.true_and]

/-! ### Crc10 is linear -/

theorem crcStep_eq (reg : BitVec 10) (bit : Bool) :
    crcStep reg bit = reg <<< 1 ^^^ (if bit ^^ reg.msb then 0x1B9#10 else 0#10) := by
  unfold crcStep
  cases bit ^^ reg.msb <;> simp

theorem crcStep_xor (reg reg' : BitVec 10) (bit bit' : Bool) :
    crcStep (reg ^^^ reg') (bit ^^ bit') = crcStep reg bit ^^^ crcStep reg' bit' := by
  simp only [crcStep_eq, BitVec.shiftLeft_xor_distrib, BitVec.msb_xor]
  have feedback (p p' : Bool) : (if p ^^ p' then 0x1B9#10 else 0#10) =
      (if p then 0x1B9#10 else 0#10) ^^^ (if p' then 0x1B9#10 else 0#10) := by
    cases p <;> cases p' <;> rfl
  simp only [feedback]
  ac_rfl

/-- The register after the bits of `m` at the given indices have been shifted in. -/
def crcRun (m : BitVec 16) (indices : List Nat) (reg : BitVec 10) : BitVec 10 :=
  indices.foldl (fun reg i => crcStep reg (m.getLsbD i)) reg

theorem crc10_eq_crcRun (m : BitVec 16) : crc10 m = crcRun m (List.range 16).reverse 0#10 := rfl

theorem crcRun_cons (m : BitVec 16) (i : Nat) (rest : List Nat) (reg : BitVec 10) :
    crcRun m (i :: rest) reg = crcRun m rest (crcStep reg (m.getLsbD i)) := rfl

/-- The most significant of the low bits goes first. -/
theorem crcRun_range_succ (m : BitVec 16) (n : Nat) (reg : BitVec 10) :
    crcRun m (List.range (n + 1)).reverse reg =
      crcRun m (List.range n).reverse (crcStep reg (m.getLsbD n)) := by
  rw [List.range_succ, List.reverse_append, List.reverse_singleton, List.singleton_append,
    crcRun_cons]

theorem crcRun_xor (a b : BitVec 16) (indices : List Nat) (reg reg' : BitVec 10) :
    crcRun (a ^^^ b) indices (reg ^^^ reg') = crcRun a indices reg ^^^ crcRun b indices reg' := by
  induction indices generalizing reg reg' with
  | nil => rfl
  | cons i rest ih =>
    rw [crcRun_cons, crcRun_cons, crcRun_cons, BitVec.getLsbD_xor, crcStep_xor, ih]

theorem crc10_xor (a b : BitVec 16) : crc10 (a ^^^ b) = crc10 a ^^^ crc10 b := by
  simpa [crc10_eq_crcRun] using crcRun_xor a b (List.range 16).reverse 0#10 0#10

theorem crc10_zero : crc10 0#16 = 0#10 := map_zero_of_map_xor crc10_xor

/-- The values of the table of 40_checkword.md R117. -/
theorem crc10_twoPow {i : Nat} (h : i < 16) :
    crc10 (BitVec.twoPow 16 i) = Claims.crcBasis.getD i 0#10 := by
  revert i
  decide +kernel

/-- Settles O9: a word is the sum of its bits, and Crc10 goes through to them. -/
theorem crcIsLinearWithTheTabledBasis : Obligations.CrcIsLinearWithTheTabledBasis := by
  unfold Obligations.CrcIsLinearWithTheTabledBasis
  refine ⟨crc10_xor, crc10_zero, fun i h => ?_, fun m => ?_⟩
  · rw [← BitVec.twoPow_eq, crc10_twoPow h, List.getD_eq_getElem _ _ h]
  · calc crc10 m
        = crc10 (xorSelected 16 m.getLsbD (BitVec.twoPow 16)) := by rw [← eq_xorSelected_bits]
      _ = xorSelected 16 m.getLsbD (fun i => crc10 (BitVec.twoPow 16 i)) :=
          map_xorSelected crc10_xor ..
      _ = xorSelected 16 m.getLsbD (fun i => Claims.crcBasis.getD i 0#10) :=
          xorSelected_congr (fun _ _ => rfl) fun _ hi => crc10_twoPow hi

/-! ### Crc10 is a remainder -/

theorem timesGenerator_eq_xorSelected (q : BitVec 16) :
    Claims.timesGenerator q = xorSelected 16 q.getLsbD (fun i => 0x5B9#26 <<< i) := rfl

/-- x^10 m(x), with 0x400 for x^10. -/
theorem append_zero_eq_xorSelected (m : BitVec 16) :
    m ++ 0#10 = xorSelected 16 m.getLsbD (fun i => 0x400#26 <<< i) := by
  have add (a b : BitVec 16) : (a ^^^ b) ++ 0#10 = (a ++ 0#10) ^^^ (b ++ 0#10) := by
    rw [BitVec.xor_append, BitVec.xor_self]
  calc m ++ 0#10
      = xorSelected 16 m.getLsbD (BitVec.twoPow 16) ++ 0#10 := by rw [← eq_xorSelected_bits]
    _ = xorSelected 16 m.getLsbD (fun i => BitVec.twoPow 16 i ++ 0#10) :=
        map_xorSelected (f := (· ++ 0#10)) add ..
    _ = xorSelected 16 m.getLsbD (fun i => 0x400#26 <<< i) :=
        xorSelected_congr (fun _ _ => rfl) (by decide)

/-- Multiplication by x: the bit that leaves the register is the coefficient of x^10. -/
theorem setWidth_shiftLeft_one (reg : BitVec 10) :
    reg.setWidth 26 <<< 1 = (reg <<< 1).setWidth 26 ^^^ (if reg.msb then 0x400#26 else 0#26) := by
  refine BitVec.eq_of_getLsbD_eq fun i hi => ?_
  rw [show 0x400#26 = BitVec.twoPow 26 10 from rfl, BitVec.msb_eq_getLsbD_last]
  simp only [BitVec.getLsbD_xor, apply_ite (BitVec.getLsbD · i), BitVec.getLsbD_shiftLeft,
    BitVec.getLsbD_setWidth, BitVec.getLsbD_twoPow, BitVec.getLsbD_zero]
  grind

/-- One step of the division, at x^n: x reg(x) + bit x^10 is the next register, plus g(x) where the
feedback is 1. -/
theorem crcStep_division (reg : BitVec 10) (bit : Bool) (n : Nat) :
    reg.setWidth 26 <<< (n + 1) ^^^ (if bit then 0x400#26 <<< n else 0#26) =
      (crcStep reg bit).setWidth 26 <<< n ^^^
        (if bit ^^ reg.msb then 0x5B9#26 <<< n else 0#26) := by
  have atZero : reg.setWidth 26 <<< 1 ^^^ (if bit then 0x400#26 else 0#26) =
      (crcStep reg bit).setWidth 26 ^^^ (if bit ^^ reg.msb then 0x5B9#26 else 0#26) := by
    rw [setWidth_shiftLeft_one, crcStep_eq, BitVec.setWidth_xor, BitVec.xor_assoc, BitVec.xor_assoc]
    cases bit <;> cases reg.msb <;> rfl
  simpa only [BitVec.shiftLeft_xor_distrib, ← BitVec.shiftLeft_add, Nat.add_comm 1 n,
    apply_ite (fun x : BitVec 26 => x <<< n), BitVec.zero_shiftLeft] using
    congrArg (fun x : BitVec 26 => x <<< n) atZero

/-- Division of the low `n` bits of m(x), with the register above them: the feedback bits are the
quotient. -/
theorem crcRun_division (m : BitVec 16) (n : Nat) (reg : BitVec 10) : ∃ q : BitVec n,
    xorSelected n m.getLsbD (fun i => 0x400#26 <<< i) ^^^ reg.setWidth 26 <<< n =
      xorSelected n q.getLsbD (fun i => 0x5B9#26 <<< i) ^^^
        (crcRun m (List.range n).reverse reg).setWidth 26 := by
  induction n generalizing reg with
  | zero => exact ⟨0#0, by simp [xorSelected_zero, crcRun]⟩
  | succ n ih =>
    obtain ⟨q, hq⟩ := ih (crcStep reg (m.getLsbD n))
    refine ⟨BitVec.cons (m.getLsbD n ^^ reg.msb) q, ?_⟩
    rw [xorSelected_succ, xorSelected_cons, crcRun_range_succ, BitVec.xor_assoc,
      BitVec.xor_comm (ite _ _ _), crcStep_division, ← BitVec.xor_assoc, hq]
    ac_rfl

/-- Settles O10: the division of m(x) from the register zero. -/
theorem crcIsThePolynomialRemainder : Obligations.CrcIsThePolynomialRemainder := by
  unfold Obligations.CrcIsThePolynomialRemainder
  intro m
  obtain ⟨q, hq⟩ := crcRun_division m 16 0#10
  refine ⟨q, ?_⟩
  rw [BitVec.setWidth_zero, BitVec.zero_shiftLeft, BitVec.xor_zero, ← crc10_eq_crcRun] at hq
  rw [append_zero_eq_xorSelected, hq, timesGenerator_eq_xorSelected,
    BitVec.setWidth_eq_append (by decide)]
  rfl

end Sys2Proof.Machine

/-!
PROOFS. The coded blocks of a group and the command ENC (40_checkword.md R110 to R118).
-/

namespace Sys2Proof.Machine

/-! ### Offset words -/

/-- C' for a version-B group, C for a version-A group (40_checkword.md R113). -/
theorem legacyOffset_two (v : Bool) : legacyOffset 2 v = if v then 0x350#10 else 0x168#10 := by
  cases v <;> rfl

/-- Stream s + 1 takes the entry of P_OFFSET for s (40_checkword.md R114). -/
theorem offsetWord_succ (p : Params) (s : Fin 3) (k : Position) (v : Bool) :
    offsetWord p s.succ k v = tunnelOffset p s k v := by
  fin_cases s <;> rfl

/-- Settles O12: the offset word of the stream at the group's version bit. -/
theorem otherStreamsTakeTheParameterOffsets : Obligations.OtherStreamsTakeTheParameterOffsets := by
  unfold Obligations.OtherStreamsTakeTheParameterOffsets
  intro p s g k
  rw [codeword, offsetWord_succ]
  rfl

/-! ### The coded bitstream -/

theorem codeword_eq_append (p : Params) (s : Stream) (g : Group) (k : Position) :
    codeword p s g k =
      g.block k ++ (crc10 (g.block k) ^^^ offsetWord p s k (g.b.getLsbD 11)) := rfl

/-- Of four words in a row, each begins where the one before it ends. -/
theorem getMsbD_four_append {n : Nat} (word : Position → BitVec n) (k : Position) {i : Nat}
    (h : i < n) :
    (word 0 ++ word 1 ++ word 2 ++ word 3).getMsbD (n * k.val + i) = (word k).getMsbD i := by
  simp only [BitVec.getMsbD_append]
  match k with
  | 0 | 1 | 2 | 3 => grind

/-- The coded block at position k is sent from bit 26 k on, its top bit first. -/
theorem encodeBits_getMsbD (p : Params) (s : Stream) (g : Group) (k : Position) {i : Nat}
    (h : i < 26) : (encodeBits p s g).getMsbD (26 * k.val + i) = (codeword p s g k).getMsbD i :=
  getMsbD_four_append (codeword p s g) k h

/-- Settles O13: the coded block at k is sent from bit 26 k on. -/
theorem codedBitstreamIndexing : Obligations.CodedBitstreamIndexing := by
  unfold Obligations.CodedBitstreamIndexing
  intro p s g k i h
  rw [encodeBits_getMsbD p s g k h, BitVec.getMsbD_eq_getLsbD, decide_eq_true h, Bool.true_and,
    codeword_eq_append]

/-! ### Stream 0 -/

theorem codeword_zero_at_zero (p : Params) (g : Group) :
    codeword p 0 g 0 = g.a ++ (crc10 g.a ^^^ 0x0FC#10) := rfl

theorem codeword_zero_at_one (p : Params) (g : Group) :
    codeword p 0 g 1 = g.b ++ (crc10 g.b ^^^ 0x198#10) := rfl

theorem codeword_zero_at_two (p : Params) (g : Group) :
    codeword p 0 g 2 =
      g.c ++ (crc10 g.c ^^^ if g.b.getLsbD 11 then 0x350#10 else 0x168#10) := by
  rw [codeword_eq_append, offsetWord_zero, legacyOffset_two]
  rfl

theorem codeword_zero_at_three (p : Params) (g : Group) :
    codeword p 0 g 3 = g.d ++ (crc10 g.d ^^^ 0x1B4#10) := rfl

/-- Settles O14: the four coded blocks with the offset words of stream 0. -/
theorem encRespondsTheCodedGroup : Obligations.EncRespondsTheCodedGroup := by
  unfold Obligations.EncRespondsTheCodedGroup
  intro a b c d s
  rw [exec_enc, encodeBits, codeword_zero_at_zero, codeword_zero_at_one, codeword_zero_at_two,
    codeword_zero_at_three]
  rfl

/-- Two coded blocks of the same data differ by the XOR of their offset words. -/
theorem append_crc10_xor (m : BitVec 16) (off off' : BitVec 10) :
    (m ++ (crc10 m ^^^ off)) ^^^ (m ++ (crc10 m ^^^ off')) = 0#16 ++ (off ^^^ off') := by
  rw [BitVec.xor_append, BitVec.xor_self, BitVec.xor_comm (crc10 m) off, BitVec.xor_assoc,
    ← BitVec.xor_assoc (crc10 m), BitVec.xor_self, BitVec.zero_xor]

/-- C XOR C' (40_checkword.md R118). -/
theorem versionOffsets_xor {v v' : Bool} (h : v ≠ v') :
    ((if v' then 0x350#10 else 0x168#10) ^^^ if v then 0x350#10 else 0x168#10) = 0x238#10 := by
  revert v v'
  decide

/-- Settles O15: only at position 2 does the offset word of stream 0 look at the version bit. -/
theorem versionBitAffectsOnlyPositionTwo : Obligations.VersionBitAffectsOnlyPositionTwo := by
  unfold Obligations.VersionBitAffectsOnlyPositionTwo
  intro p g h ha hc hd
  refine ⟨?_, ?_, codeword_zero_at_one p g, fun same => ?_, fun differ => ?_⟩
  · rw [codeword_zero_at_zero, codeword_zero_at_zero, ha]
  · rw [codeword_zero_at_three, codeword_zero_at_three, hd]
  · rw [codeword_zero_at_two, codeword_zero_at_two, hc, same]
  · rw [codeword_zero_at_two, codeword_zero_at_two, hc, append_crc10_xor, versionOffsets_xor differ]
    rfl

end Sys2Proof.Machine

/-!
PROOFS. The differential biphase modulator (41_modulator.md). Each kind of call of ModStep is an equation,
and each phase says what it does to the entries of the accumulator. The request times follow from the
stream clock of 10_state.md R38. The closed form (R140) is an invariant: ahead of the read cursor, a
window of P_L entries holds the sums for the next P_L output times, and a call moves it on by one (R141).
-/

namespace Sys2Proof.Machine

/-! ### The kinds of call -/

theorem modStep_between {s : State} {k : Stream} (hs : (s.mod k).sampleCount ≠ s.params.spb) :
    modStep s k = finishStep s k (s.mod k) := if_neg hs

theorem modStep_bits_left {s : State} {k : Stream} (hs : (s.mod k).sampleCount = s.params.spb)
    (hb : (s.mod k).bitPos ≠ 104) :
    modStep s k = finishStep s k (boundary s.params s.freeIndex k (s.mod k)) := by
  simp only [modStep, if_pos hs, if_neg hb]

theorem modStep_supplied {s : State} {k : Stream} {g : Group}
    (hs : (s.mod k).sampleCount = s.params.spb) (hb : (s.mod k).bitPos = 104)
    (hg : (s.groups k).head?.join = some g) :
    modStep s k = finishStep (s.requestGroup k).2 k
      (boundary s.params s.freeIndex k (loadGroup s.params k g (s.mod k))) := by
  simp only [modStep, if_pos hs, if_pos hb, State.requestGroup, hg]

theorem modStep_unsupplied {s : State} {k : Stream} (hs : (s.mod k).sampleCount = s.params.spb)
    (hb : (s.mod k).bitPos = 104) (hg : (s.groups k).head?.join = none) :
    modStep s k = .underrun (s.requestGroup k).2 := by
  simp only [modStep, if_pos hs, if_pos hb, State.requestGroup, hg]

theorem sampleOf_of_lt {p : Params} {m : ModCtx} (h : m.r < p.accLen) :
    sampleOf p m = accRead m.acc m.r := if_pos h

theorem bitsRead_of_lt {bits : BitVec 104} {j : Nat} (h : j < 104) :
    bitsRead bits j = bits.getMsbD j := if_pos h

/-- The end of a call that is no boundary (41_modulator.md R137, R138). -/
theorem finishStep_between {s : State} {k : Stream} {m : ModCtx} (hr : m.r < s.params.accLen) :
    finishStep s k m = .sample (accRead m.acc m.r)
      (s.setMod k { m with
        sampleCount := m.sampleCount + 1
        acc := accWrite m.acc m.r F32.zero
        r := (m.r + 1) % s.params.accLen }) := by
  rw [finishStep_eq, sampleOf_of_lt hr, clearRead_countSample]

/-- The end of a call that is a boundary, once its group is there (41_modulator.md R134 to R138). -/
theorem finishStep_boundary {s : State} {k : Stream} {m : ModCtx} (hr : m.r < s.params.accLen)
    (hb : m.bitPos < 104) (tick : Nat) :
    let e := m.curOut ^^ m.bits.getMsbD m.bitPos
    let added := addShape tick k s.params.accLen m.w e s.params.shape 0 m.acc
    finishStep s k (boundary s.params tick k m) = .sample (accRead added m.r)
      (s.setMod k ⟨1, m.bitPos + 1, e, m.curOut, (m.w + s.params.spb) % s.params.accLen,
        (m.r + 1) % s.params.accLen, accWrite added m.r F32.zero, m.bits⟩) := by
  intro e added
  have he : (m.curOut ^^ bitsRead m.bits m.bitPos) = e := by rw [bitsRead_of_lt hb]
  rw [finishStep_between (m := boundary s.params tick k m) hr]
  simp only [boundary, advanceWrite, overlapAdd, consumeBit, he]
  rfl

theorem requestGroup_of_cons {s : State} {k : Stream} {answer : Option Group}
    {rest : List (Option Group)} (hg : s.groups k = answer :: rest) :
    (s.requestGroup k).2 =
      { s with groupIn := s.groupIn.set k rest, out := s.out ++ [.groupRequest k] } := by
  rw [State.requestGroup, hg]
  rfl

/-- Settles O40: the count differs from P_SPB, so no boundary falls. -/
theorem modStepBetweenBoundaries : Obligations.ModStepBetweenBoundaries := by
  unfold Obligations.ModStepBetweenBoundaries
  intro s k hm hs
  rw [modStep_between hs, finishStep_between hm.r_lt]
  rfl

/-- Settles O41, by what is left in the buffer and what the port answers. -/
theorem modStepAtABoundary : Obligations.ModStepAtABoundary := by
  unfold Obligations.ModStepAtABoundary
  intro s k hm hs m after
  refine ⟨fun hb => ?_, fun g rest hb hg => ?_, fun hb hg => ?_⟩
  · rw [modStep_bits_left hs (Nat.ne_of_lt hb)]
    exact finishStep_boundary hm.r_lt hb _
  · have hloaded := finishStep_boundary (s := (s.requestGroup k).2) (k := k)
      (m := loadGroup s.params k g (s.mod k)) hm.r_lt (by decide : 0 < 104) s.freeIndex
    rw [requestGroup_of_cons hg] at hloaded
    rw [modStep_supplied hs hb (g := g) (by rw [hg]; rfl), requestGroup_of_cons hg]
    exact hloaded
  · have hnone : (s.groups k).head?.join = none := by
      obtain hg | ⟨rest, hg⟩ := hg <;> rw [hg] <;> rfl
    exact modStep_unsupplied hs hb hnone

/-! ### The overlap-add, entry by entry -/

theorem add_mod_ne_add_mod {len i j : Nat} (hi : i < len) (hj : j < len) (h : i ≠ j) (x : Nat) :
    (x + i) % len ≠ (x + j) % len := fun e =>
  h (Nat.ModEq.eq_of_lt_of_lt (Nat.ModEq.add_left_cancel' x e) hi hj)

/-- The overlap-add leaves the entries that it does not reach (41_modulator.md R136). -/
theorem accRead_addShape_other (tick : Nat) (k : Stream) (len w : Nat) (neg : Bool) {a : Nat}
    (shape : List F32) (i : Nat) (acc : AccMem)
    (h : ∀ d, d < shape.length → a ≠ (w + (i + d)) % len) :
    accRead (addShape tick k len w neg shape i acc) a = accRead acc a := by
  induction shape generalizing i acc with
  | nil => rfl
  | cons c rest ih =>
    refine (ih (i + 1) _ fun d hd => ?_).trans
      (accRead_accWrite_other acc _ (h 0 (Nat.succ_pos _)))
    have := h (d + 1) (Nat.succ_lt_succ hd)
    rwa [Nat.add_assoc, Nat.add_comm 1 d]

/-- The overlap-add reaches an entry once, since the shape is not longer than the accumulator
(41_modulator.md R136). -/
theorem accRead_addShape_reached (tick : Nat) (k : Stream) {len : Nat} (w : Nat) (neg : Bool)
    (shape : List F32) (i : Nat) {acc : AccMem} (hwf : accWf len acc = true)
    (hlen : i + shape.length ≤ len) {d : Nat} (hd : d < shape.length) :
    accRead (addShape tick k len w neg shape i acc) ((w + (i + d)) % len) =
      fadd (Config.nanResult tick (.overlapAdd k (i + d))) (accRead acc ((w + (i + d)) % len))
        (polarised neg shape[d]) := by
  induction shape generalizing i acc d with
  | nil => exact absurd hd (Nat.not_lt_zero d)
  | cons c rest ih =>
    rw [List.length_cons] at hlen hd
    have hne : ∀ d', d' < rest.length → (w + i) % len ≠ (w + (i + 1 + d')) % len := fun d' hd' =>
      add_mod_ne_add_mod (by omega) (by omega) (by omega) w
    cases d with
    | zero =>
      exact (accRead_addShape_other tick k len w neg rest (i + 1) _ hne).trans
        (accRead_accWrite_self hwf _ _)
    | succ d =>
      have hd' := Nat.lt_of_succ_lt_succ hd
      have hwf' := accWrite_wf hwf (Nat.mod_lt (w + i) (by omega : 0 < len))
        (fadd (Config.nanResult tick (.overlapAdd k i)) (accRead acc ((w + i) % len))
          (polarised neg c))
      have hrest := ih (i + 1) hwf' (by omega) hd'
      rw [accRead_accWrite_other _ _ (hne d hd').symm, Nat.add_assoc i 1 d, Nat.add_comm 1 d] at hrest
      exact hrest

/-- Settles O42: the shape is shorter than the accumulator. -/
theorem overlapAddReachesEachEntryOnce : Obligations.OverlapAddReachesEachEntryOnce := by
  unfold Obligations.OverlapAddReachesEachEntryOnce
  intro p tick k m hwf m'
  refine ⟨fun i hi => ?_, fun a ha => ?_, rfl⟩
  · have h := accRead_addShape_reached tick k m.w m.curOut p.shape 0 hwf
      (by have := p.fs_lt_accLen; unfold ParamSet.fs at this; omega) hi
    rw [Nat.zero_add] at h
    rw [show m'.acc = addShape tick k p.accLen m.w m.curOut p.shape 0 m.acc from rfl, h, polarised]
    cases m.curOut <;> rfl
  · exact accRead_addShape_other tick k p.accLen m.w m.curOut p.shape 0 m.acc fun d hd => by
      rw [Nat.zero_add]; exact ha d hd

/-! ### The calls that ask for a group -/

/-- A boundary falls at the multiples of P_SPB (41_modulator.md R131). -/
theorem ModCtx.AtTime.boundary_iff {p : Params} {m : ModCtx} {t : Nat} (h : m.AtTime p t) :
    m.sampleCount = p.spb ↔ t % p.spb = 0 := by
  rw [h.sampleCount_eq]
  cases t with
  | zero => simp
  | succ n =>
    rw [if_neg n.succ_ne_zero, Nat.add_sub_cancel]
    rcases succ_div_mod_cases p.spb_pos n with ⟨hfull, -, hmod⟩ | ⟨hpart, -, hmod⟩ <;> omega

/-- The cursors at a boundary (10_state.md R38; 41_modulator.md R134, R137). -/
theorem ModCtx.AtTime.at_boundary {p : Params} {m : ModCtx} {t : Nat} (h : m.AtTime p t)
    (ht : t % p.spb = 0) : m.w = t % p.accLen ∧ m.bitPos % 104 = t / p.spb % 104 := by
  cases t with
  | zero =>
    obtain ⟨-, hw, -, hb⟩ := (atTime_zero_iff p m).1 h
    simp [hw, hb]
  | succ n =>
    obtain ⟨-, hw, -, hb⟩ := (atTime_succ_iff p m n).1 h
    rcases succ_div_mod_cases p.spb_pos n with ⟨-, hdiv, -⟩ | ⟨-, -, hmod⟩
    · rw [hw, ← hdiv, Nat.div_mul_cancel (Nat.dvd_of_mod_eq_zero ht), hb, hdiv]
      exact ⟨rfl, by omega⟩
    · omega

theorem mod_mul_eq_zero_iff {a b t : Nat} (hb : 0 < b) :
    t % (a * b) = 0 ↔ t % b = 0 ∧ t / b % a = 0 := by
  rw [Nat.mul_comm, Nat.mod_mul]
  have : t / b % a = 0 ↔ b * (t / b % a) = 0 := by simp [Nat.ne_of_gt hb]
  omega

/-- A bit cursor that has been moved is never 0 (10_state.md R38; 41_modulator.md R134). -/
theorem ModCtx.AtTime.bitPos_pos {p : Params} {m : ModCtx} {t : Nat} (h : m.AtTime p t) :
    0 < m.bitPos := by
  rw [h.bitPos_eq]
  split <;> omega

/-- A group is asked for at the multiples of 104 P_SPB (41_modulator.md R142). -/
theorem ModCtx.AtTime.asks_iff {p : Params} {m : ModCtx} {t : Nat} (h : m.AtTime p t) :
    m.sampleCount = p.spb ∧ m.bitPos = 104 ↔ t % (104 * p.spb) = 0 := by
  rw [mod_mul_eq_zero_iff p.spb_pos, h.boundary_iff]
  refine and_congr_right fun ht => ?_
  rw [← (h.at_boundary ht).2]
  have := h.bitPos_pos
  have := h.bitPos_le
  omega

/-- The output after a call, by its time (41_modulator.md R142). -/
theorem modStep_out_atTime {s : State} {k : Stream} {t : Nat} (h : (s.mod k).AtTime s.params t) :
    (modStep s k).state.out =
      s.out ++ (if t % (104 * s.params.spb) = 0 then [.groupRequest k] else []) := by
  rw [modStep_out, if_congr ((asksFor_iff s k).trans h.asks_iff) rfl rfl]

theorem modStep_sample_params {s s' : State} {k : Stream} {y : F32}
    (h : modStep s k = .sample y s') : s'.params = s.params := by
  have := (modStep_sameBut s k).params_eq
  rwa [h] at this

/-- Calls that each give a sample, the context passed on from one to the next, follow the clock
(10_state.md R38). -/
theorem calls_atTime {calls : Nat → State} {k : Stream} {t : Nat}
    (h0 : (calls 0).mod k = freshCtx (calls 0).params)
    (hcalls : ∀ j, j < t → ∃ y s', modStep (calls j) k = .sample y s' ∧
      (calls (j + 1)).mod k = s'.mod k ∧ (calls (j + 1)).params = s'.params) :
    (calls t).params = (calls 0).params ∧ ((calls t).mod k).AtTime (calls 0).params t := by
  induction t with
  | zero => exact ⟨rfl, h0 ▸ freshCtx_atTime _⟩
  | succ t ih =>
    obtain ⟨hp, hm⟩ := ih fun j hj => hcalls j (Nat.lt_succ_of_lt hj)
    obtain ⟨y, s', hstep, hmod, hpar⟩ := hcalls t (Nat.lt_succ_self t)
    rw [hpar, modStep_sample_params hstep, hmod, ← hp]
    exact ⟨rfl, modStep_atTime (hp ▸ hm) hstep⟩

/-- Settles O44: the clock says which calls ask. -/
theorem groupRequestsComeEvery104Bits : Obligations.GroupRequestsComeEvery104Bits := by
  unfold Obligations.GroupRequestsComeEvery104Bits
  intro calls k t h0 hcalls after
  obtain ⟨hp, hm⟩ := calls_atTime h0 hcalls
  have hafter : after = (modStep (calls t) k).state.out := by
    simp only [after]
    cases modStep (calls t) k <;> rfl
  rw [hafter, modStep_out_atTime (hp ▸ hm), hp]
  exact ⟨fun ht => by rw [if_pos ht], fun ht => by rw [if_neg ht, List.append_nil]⟩

/-! ### A stream that is not active -/

/-- `t` is `s` after commands that did not step stream `k`, which is not active (41_modulator.md R139). -/
structure Frozen (k : Stream) (s t : State) : Prop where
  mod_eq : t.mod k = s.mod k
  groups_eq : t.groups k = s.groups k
  enabled_eq : t.enabled k = false
  out_eq : ∃ new : List Output, t.out = s.out ++ new ∧ Output.groupRequest k ∉ new

theorem Frozen.refl {k : Stream} {s : State} (h : s.enabled k = false) : Frozen k s s :=
  ⟨rfl, rfl, h, [], (List.append_nil _).symm, List.not_mem_nil⟩

theorem Frozen.trans {k : Stream} {s t u : State} (h : Frozen k s t) (h' : Frozen k t u) :
    Frozen k s u where
  mod_eq := h'.mod_eq.trans h.mod_eq
  groups_eq := h'.groups_eq.trans h.groups_eq
  enabled_eq := h'.enabled_eq
  out_eq := by
    obtain ⟨new, hout, hnew⟩ := h.out_eq
    obtain ⟨new', hout', hnew'⟩ := h'.out_eq
    exact ⟨new ++ new', by rw [hout', hout, List.append_assoc], by simp [hnew, hnew']⟩

/-- A pass over the streams steps the active ones alone (43_mixer.md R171), so a tick freezes the others,
whether it completes or underruns. -/
theorem tickBody_frozen {k : Stream} {s : State} (hk : s.enabled k = false) :
    Frozen k s (tickBody s) := by
  have hne : ¬ s.enabled k = true := by simp [hk]
  have hen := (tickBody_enabled s k).trans hk
  rcases tickBody_cases s with ⟨samples, s', -, h, e⟩ | ⟨j, s', -, -, h, e⟩ <;>
    obtain ⟨js, hjs, hout⟩ := h.out_eq <;> rw [e] at hen ⊢ <;>
    have hreq : k ∉ js := fun hm => hne (hjs k hm)
  · exact ⟨h.mods_eq k hne, h.groupIn_eq k hne, hen, _, by
      rw [finishTick, emit_out, advanceOscs_out, hout, List.append_assoc], by simp [hreq]⟩
  · exact ⟨rfl, h.groupIn_eq k hne, hen, _, hout, by simp [hreq]⟩

/-- Settles O55: a TICK or a FRAMES is a run of ticks, each of which freezes the stream. -/
theorem disabledStreamIsFrozen : Obligations.DisabledStreamIsFrozen := by
  unfold Obligations.DisabledStreamIsFrozen
  intro s t k i hk hi h
  have htick : ∀ u, Frozen k s u → Frozen k s (tickBody u) := fun u hu =>
    hu.trans (tickBody_frozen hu.enabled_eq)
  have hrun : Frozen k s t := by
    obtain rfl | ⟨count, rfl⟩ := hi
    · rw [exec_tick] at h
      cases h
      split
      · exact .refl hk
      · exact htick s (.refl hk)
    · rw [exec_frames] at h
      cases h
      exact tickTimes_induct htick count.toNat s (.refl hk)
  exact ⟨hrun.mod_eq, hrun.groups_eq, hrun.enabled_eq, hrun.out_eq⟩


/-! ### The closed form -/

section ClosedForm

open Claims

/-- The sum `y` for output time `τ` with the contribution of bit `j`, where one reaches it
(41_modulator.md R140): one step of `closedForm`. -/
def contribute (p : Params) (k : Stream) (q : Nat → Group) (n τ : Nat) (y : F32) (j : Nat) : F32 :=
  match p.shape[τ - j * p.spb]? with
  | some c =>
    fadd (Config.nanResult (n + j * p.spb) (.overlapAdd k (τ - j * p.spb))) y
      (polarised (polarity p k q j) c)
  | none => y

/-- The sum for output time `τ` of the contributions of the bits below `b`. -/
def partialSum (p : Params) (k : Stream) (q : Nat → Group) (n τ b : Nat) : F32 :=
  (List.range b).foldl (contribute p k q n τ) F32.zero

theorem closedForm_eq_partialSum (p : Params) (k : Stream) (q : Nat → Group) (n t : Nat) :
    closedForm p k q n t = partialSum p k q n t (t / p.spb + 1) := rfl

theorem partialSum_succ (p : Params) (k : Stream) (q : Nat → Group) (n τ b : Nat) :
    partialSum p k q n τ (b + 1) = contribute p k q n τ (partialSum p k q n τ b) b := by
  simp [partialSum, List.range_succ]

/-- A bit contributes to the output times from its own call on that its shape spans. -/
theorem contribute_reached {p : Params} (k : Stream) (q : Nat → Group) (n : Nat) (y : F32) (b : Nat)
    {i : Nat} (hi : i < p.shape.length) :
    contribute p k q n (b * p.spb + i) y b =
      fadd (Config.nanResult (n + b * p.spb) (.overlapAdd k i)) y
        (polarised (polarity p k q b) p.shape[i]) := by
  simp [contribute, hi]

theorem contribute_past {p : Params} (k : Stream) (q : Nat → Group) (n : Nat) (y : F32) {τ j : Nat}
    (h : p.fs ≤ τ - j * p.spb) : contribute p k q n τ y j = y := by
  rw [contribute, List.getElem?_eq_none h]

/-- No bit that has been consumed reaches an output time past its shape. -/
theorem partialSum_past {p : Params} (k : Stream) (q : Nat → Group) (n : Nat) {τ b : Nat}
    (h : ∀ j, j < b → p.fs ≤ τ - j * p.spb) : partialSum p k q n τ b = F32.zero := by
  induction b with
  | zero => rfl
  | succ b ih =>
    rw [partialSum_succ, contribute_past k q n _ (h b (Nat.lt_succ_self b))]
    exact ih fun j hj => h j (Nat.lt_succ_of_lt hj)

/-- e_(b-1) of 41_modulator.md R140: the encoded bit before bit `b`. -/
def polarityBefore (p : Params) (k : Stream) (q : Nat → Group) : Nat → Bool
  | 0 => false
  | b + 1 => polarity p k q b

theorem polarity_eq (p : Params) (k : Stream) (q : Nat → Group) (b : Nat) :
    polarity p k q b = (polarityBefore p k q b ^^ bitSent p k q b) := by
  cases b <;> simp [polarity, polarityBefore]

/-- The slots of 41_modulator.md R141: `b` bits have been consumed, and from the output time `t` on, the
P_L entries hold the sums of their contributions to the next P_L output times. What is left in the buffer
begins with bit `b`. -/
structure ModCtx.Holds (p : Params) (k : Stream) (q : Nat → Group) (n t b : Nat) (m : ModCtx) :
    Prop where
  acc_wf : accWf p.accLen m.acc = true
  curOut_eq : m.curOut = polarityBefore p k q b
  bits_eq : m.bitPos < 104 → m.bits = encodeBits p k (q (b / 104))
  window : ∀ i, i < p.accLen → accRead m.acc ((t + i) % p.accLen) = partialSum p k q n (t + i) b

theorem freshCtx_holds (p : Params) (k : Stream) (q : Nat → Group) (n : Nat) :
    (freshCtx p).Holds p k q n 0 0 :=
  ⟨accWf_nil _, rfl, fun h => absurd h (by decide : ¬ 104 < 104), fun _ _ => rfl⟩

/-- A boundary adds the contributions of its bit to the window (41_modulator.md R134 to R136). -/
theorem ModCtx.Holds.boundary {p : Params} {k : Stream} {q : Nat → Group} {n t b : Nat} {m : ModCtx}
    (h : m.Holds p k q n t b) (ht : t = b * p.spb) (hw : m.w = t % p.accLen)
    (hpos : m.bitPos = b % 104) : (boundary p (n + t) k m).Holds p k q n t (b + 1) := by
  have hlt : b % 104 < 104 := Nat.mod_lt b (by decide)
  have hbits := h.bits_eq (hpos ▸ hlt)
  have hcur : (consumeBit m).curOut = polarity p k q b := by
    rw [polarity_eq, ← h.curOut_eq, bitSent, ← hbits, ← bitsRead_of_lt hlt, ← hpos]
    rfl
  obtain ⟨hreached, hother, -⟩ :=
    overlapAddReachesEachEntryOnce p (n + t) k (consumeBit m) h.acc_wf
  have hw' : (consumeBit m).w = t % p.accLen := hw
  simp only [hw', Nat.mod_add_mod, hcur] at hreached hother
  refine ⟨addShape_wf _ k p.accLen_pos _ _ _ _ h.acc_wf, hcur, fun hleft => ?_, fun i hi => ?_⟩
  · have hleft' : b % 104 + 1 < 104 := hpos ▸ hleft
    rw [show (b + 1) / 104 = b / 104 by omega]
    exact hbits
  · rw [partialSum_succ, ← h.window i hi]
    by_cases hif : i < p.shape.length
    · refine (hreached i hif).trans ?_
      rw [ht, contribute_reached k q n _ b hif]
      cases polarity p k q b <;> rfl
    · have hpast : p.fs ≤ t + i - b * p.spb := by
        rw [ht, Nat.add_sub_cancel_left]
        exact Nat.not_lt.mp hif
      rw [contribute_past k q n _ hpast]
      refine hother _ fun d hd => add_mod_ne_add_mod hi ?_ ?_ _
      · exact Nat.lt_trans hd p.fs_lt_accLen
      · omega

/-- The end of a call reads the sum for its output time, and its cleared entry is that of the output time
that enters the window, which no consumed bit reaches (41_modulator.md R138, R141). -/
theorem ModCtx.Holds.clearRead {p : Params} {k : Stream} {q : Nat → Group} {n t b : Nat} {m : ModCtx}
    (h : m.Holds p k q n t b) (hr : m.r = t % p.accLen) (hb : ∀ j, j < b → j * p.spb ≤ t) :
    sampleOf p m = partialSum p k q n t b ∧
      (clearRead p (countSample m)).Holds p k q n (t + 1) b := by
  have hrlt : m.r < p.accLen := hr ▸ Nat.mod_lt t p.accLen_pos
  refine ⟨?_, accWrite_wf h.acc_wf hrlt F32.zero, h.curOut_eq, h.bits_eq, fun i hi => ?_⟩
  · rw [sampleOf_of_lt hrlt, hr]
    exact h.window 0 p.accLen_pos
  · rw [clearRead_countSample, Nat.add_assoc t 1 i, Nat.add_comm 1 i, hr]
    by_cases hlast : i + 1 = p.accLen
    · rw [hlast, Nat.add_mod_right, partialSum_past k q n fun j hj => ?_]
      · exact accRead_accWrite_self h.acc_wf _ _
      · have := hb j hj
        have := p.fs_lt_accLen
        omega
    · have hne := add_mod_ne_add_mod (by omega : i + 1 < p.accLen) p.accLen_pos i.succ_ne_zero t
      exact (accRead_accWrite_other m.acc _ hne).trans (h.window (i + 1) (by omega))

/-- The bits that a stream has consumed before its call `t` (41_modulator.md R131, R134). -/
def bitsBefore (p : Params) (t : Nat) : Nat :=
  if t % p.spb = 0 then t / p.spb else t / p.spb + 1

theorem bitsBefore_succ (p : Params) (t : Nat) : bitsBefore p (t + 1) = t / p.spb + 1 := by
  unfold bitsBefore
  rcases succ_div_mod_cases p.spb_pos t with ⟨-, hdiv, hmod⟩ | ⟨-, hdiv, hmod⟩
  · rw [if_pos hmod, hdiv]
  · rw [if_neg (hmod ▸ Nat.succ_ne_zero _), hdiv]

/-- The context of stream `k` and what is left of the answers on its port, before the call `t` since the
state `s0` in which it was reset: the port has given one group for every 104 bits begun
(41_modulator.md R133). -/
structure Tracks (s0 : State) (k : Stream) (q : Nat → Group) (t : Nat) (m : ModCtx)
    (answers : List (Option Group)) : Prop where
  clock : m.AtTime s0.params t
  holds : m.Holds s0.params k q s0.freeIndex t (bitsBefore s0.params t)
  answers_eq : answers = (s0.groups k).drop ((bitsBefore s0.params t + 103) / 104)

/-- The host answers every request up to call `t` with the next group of `q` (41_modulator.md R142). -/
def Supplied (s0 : State) (k : Stream) (q : Nat → Group) (t : Nat) : Prop :=
  ∀ g, 104 * g * s0.params.spb ≤ t → (s0.groups k)[g]? = some (some (q g))

theorem freshCtx_tracks {s0 : State} {k : Stream} (h : s0.mod k = freshCtx s0.params)
    (q : Nat → Group) : Tracks s0 k q 0 (s0.mod k) (s0.groups k) := by
  have hb : bitsBefore s0.params 0 = 0 := by simp [bitsBefore]
  exact ⟨h ▸ freshCtx_atTime _, by rw [h, hb]; exact freshCtx_holds _ k q _, by rw [hb]; rfl⟩

variable {s0 s : State} {k : Stream} {q : Nat → Group} {t : Nat}

/-- The port after a call: one answer less, where the call has begun the next 104 bits. -/
theorem Tracks.answers_next (hp : s.params = s0.params)
    (h : Tracks s0 k q t (s.mod k) (s.groups k)) :
    (modStep s k).state.groups k =
      (s0.groups k).drop ((bitsBefore s0.params (t + 1) + 103) / 104) := by
  have hask := (asksFor_iff s k).trans (hp ▸ h.clock.asks_iff)
  rw [hp, mod_mul_eq_zero_iff s0.params.spb_pos] at hask
  rw [modStep_groups, bitsBefore_succ, h.answers_eq, bitsBefore, if_congr hask rfl rfl]
  split_ifs with hnew hboundary hboundary
  · rw [List.tail_drop]
    congr 1
    omega
  · exact absurd hnew.1 hboundary
  · congr 1
    omega
  · rfl

/-- A call up to its last phase (41_modulator.md R130): whether or not it is a boundary, and whether or
not it asks for a group, the bits that reach its output time have been added. -/
theorem Tracks.before_finish (hp : s.params = s0.params) (hf : s.freeIndex = s0.freeIndex + t)
    (h : Tracks s0 k q t (s.mod k) (s.groups k)) (hq : Supplied s0 k q t) :
    ∃ (s1 : State) (m1 : ModCtx), modStep s k = finishStep s1 k m1 ∧ s1.params = s0.params ∧
      m1.r = (s.mod k).r ∧ m1.Holds s0.params k q s0.freeIndex t (t / s0.params.spb + 1) := by
  obtain ⟨hclock, hholds, hanswers⟩ := h
  have hiff := hclock.boundary_iff
  rw [← hp] at hiff
  by_cases hs : (s.mod k).sampleCount = s.params.spb
  · have ht : t % s0.params.spb = 0 := hp ▸ hiff.1 hs
    have htime := (Nat.div_mul_cancel (Nat.dvd_of_mod_eq_zero ht)).symm
    obtain ⟨hw, hpos⟩ := hclock.at_boundary ht
    rw [bitsBefore, if_pos ht] at hholds hanswers
    by_cases hb : (s.mod k).bitPos = 104
    · have hnew : t / s0.params.spb % 104 = 0 := by omega
      have hg : (s.groups k).head?.join = some (q (t / s0.params.spb / 104)) := by
        rw [hanswers, List.head?_drop,
          show (t / s0.params.spb + 103) / 104 = t / s0.params.spb / 104 by omega, hq]
        · rfl
        · rw [Nat.mul_div_cancel' (Nat.dvd_of_mod_eq_zero hnew)]
          exact Nat.div_mul_le_self t _
      have hloaded : (loadGroup s0.params k (q (t / s0.params.spb / 104)) (s.mod k)).Holds
          s0.params k q s0.freeIndex t (t / s0.params.spb) :=
        ⟨hholds.acc_wf, hholds.curOut_eq, fun _ => rfl, hholds.window⟩
      refine ⟨_, _, modStep_supplied hs hb hg, hp, rfl, ?_⟩
      rw [hp, hf]
      exact hloaded.boundary htime hw hnew.symm
    · refine ⟨_, _, modStep_bits_left hs hb, hp, rfl, ?_⟩
      rw [Nat.mod_eq_of_lt (Nat.lt_of_le_of_ne hclock.bitPos_le hb)] at hpos
      rw [hp, hf]
      exact hholds.boundary htime hw hpos
  · have ht : ¬ t % s0.params.spb = 0 := fun ht => hs (hiff.2 (hp.symm ▸ ht))
    rw [bitsBefore, if_neg ht] at hholds
    exact ⟨s, s.mod k, modStep_between hs, hp, rfl, hholds⟩

/-- A call gives the closed form and goes on to the next (41_modulator.md R140). -/
theorem Tracks.call (hp : s.params = s0.params) (hf : s.freeIndex = s0.freeIndex + t)
    (h : Tracks s0 k q t (s.mod k) (s.groups k)) (hq : Supplied s0 k q t) :
    ∃ s', modStep s k = .sample (closedForm s0.params k q s0.freeIndex t) s' ∧
      Tracks s0 k q (t + 1) (s'.mod k) (s'.groups k) := by
  obtain ⟨s1, m1, hfinish, hp1, hr, hholds⟩ := h.before_finish hp hf hq
  have hsent : ∀ j, j < t / s0.params.spb + 1 → j * s0.params.spb ≤ t := fun j hj =>
    (Nat.le_div_iff_mul_le s0.params.spb_pos).1 (Nat.le_of_lt_succ hj)
  obtain ⟨hsample, hnext⟩ := hholds.clearRead (hr.trans h.clock.r_eq) hsent
  have hstep : modStep s k = .sample (closedForm s0.params k q s0.freeIndex t)
      (s1.setMod k (clearRead s0.params (countSample m1))) := by
    rw [hfinish, finishStep_eq, hp1, hsample, closedForm_eq_partialSum]
  have hclock := modStep_atTime (hp.symm ▸ h.clock) hstep
  have hanswers := h.answers_next hp
  rw [hp] at hclock
  rw [hstep] at hanswers
  refine ⟨_, hstep, hclock, ?_, hanswers⟩
  rw [setMod_mod_self, bitsBefore_succ]
  exact hnext

end ClosedForm

/-! ### A stream under a run of ticks -/

/-- In a pass that completes, an active stream has given its sample as ModStep does on the state before
the pass (43_mixer.md R171). -/
theorem stepStreams_done_call {ks : List Stream} (hn : ks.Nodup) {s s' : State}
    {samples : List (Stream × F32)} (h : stepStreams ks s = .done samples s') {k : Stream}
    (hk : k ∈ ks) (hen : s.enabled k = true) :
    ∃ y u, modStep s k = .sample y u ∧ s'.mod k = u.mod k ∧ s'.groups k = u.groups k := by
  induction ks generalizing s samples with
  | nil => exact absurd hk List.not_mem_nil
  | cons j rest ih =>
    obtain ⟨hj, hrest⟩ := List.nodup_cons.mp hn
    unfold stepStreams at h
    split at h
    case isTrue hje =>
      have hsb := modStep_sameBut s j
      cases hm : modStep s j with
      | underrun u => simp [hm] at h
      | sample y u =>
        rw [hm] at hsb
        have hsb' := stepStreams_sameBut rest u
        cases hr : stepStreams rest u with
        | underrun i u' => simp [hm, hr, Pass.withSample] at h
        | done tail u' =>
          simp only [hm, hr, Pass.withSample, Pass.done.injEq] at h
          obtain ⟨-, rfl⟩ := h
          rw [hr] at hsb'
          by_cases hkj : k = j
          · subst hkj
            exact ⟨y, u, hm, hsb'.mods_eq k fun c => hj c.1, hsb'.groupIn_eq k fun c => hj c.1⟩
          · obtain ⟨y', v, hv, hmod, hgroups⟩ := ih hrest hr
              ((List.mem_cons.mp hk).resolve_left hkj) ((hsb.enabled_eq k).trans hen)
            obtain ⟨w, hw, hwm, hwg⟩ := (modStep_local hsb.params_eq.symm hsb.freeIndex_eq.symm
              (hsb.mods_eq k hkj).symm (hsb.groupIn_eq k hkj).symm).1 y' v hv
            exact ⟨y', w, hw, hmod.trans hwm.symm, hgroups.trans hwg.symm⟩
    case isFalse hje =>
      have hkj : k ≠ j := fun e => hje (e ▸ hen)
      exact ih hrest h ((List.mem_cons.mp hk).resolve_left hkj) hen

/-- A tick after which the block is not halted has completed, so it has made the call of every active
stream (43_mixer.md R171, 60_exceptions.md R226). -/
theorem tickBody_call {s : State} {k : Stream} (hen : s.enabled k = true)
    (hgo : (tickBody s).halted = false) :
    (tickBody s).freeIndex = s.freeIndex + 1 ∧ ∃ y u, modStep s k = .sample y u ∧
      (tickBody s).mod k = u.mod k ∧ (tickBody s).groups k = u.groups k := by
  rcases tickBody_cases s with ⟨samples, s', hpass, h, e⟩ | ⟨j, s', -, -, -, e⟩
  · rw [e]
    exact ⟨congrArg (· + 1) h.freeIndex_eq,
      stepStreams_done_call (by decide) hpass (by fin_cases k <;> decide) hen⟩
  · rw [e, underrunTick, raise_halted, Cause.fatal, Bool.or_true] at hgo
    cases hgo

/-- The state before tick `t` of a run since `s0`, in which stream `k` is active. -/
structure Follows (s0 : State) (k : Stream) (q : Nat → Group) (t : Nat) (s : State) : Prop where
  params_eq : s.params = s0.params
  freeIndex_eq : s.freeIndex = s0.freeIndex + t
  enabled_eq : s.enabled k = true
  tracks : Tracks s0 k q t (s.mod k) (s.groups k)

theorem Follows.tick {s0 s : State} {k : Stream} {q : Nat → Group} {t : Nat}
    (h : Follows s0 k q t s) (hq : Supplied s0 k q t) (hgo : (tickBody s).halted = false) :
    Follows s0 k q (t + 1) (tickBody s) := by
  obtain ⟨hfree, y, u, hstep, hmod, hgroups⟩ := tickBody_call h.enabled_eq hgo
  obtain ⟨s', hstep', htracks⟩ := h.tracks.call h.params_eq h.freeIndex_eq hq
  obtain ⟨-, rfl⟩ := ModResult.sample.inj (hstep.symm.trans hstep')
  exact ⟨(tickBody_params s).trans h.params_eq, by rw [hfree, h.freeIndex_eq, Nat.add_assoc],
    (tickBody_enabled s k).trans h.enabled_eq, by rw [hmod, hgroups]; exact htracks⟩

/-- A run of ticks that completes follows the stream (43_mixer.md R176). -/
theorem ticks_follow {run : Nat → State} {k : Stream} {q : Nat → Group} {t : Nat}
    (h0 : Follows (run 0) k q 0 (run 0)) (hq : Supplied (run 0) k q t)
    (hrun : ∀ j, j < t → exec .tick (run j) = .next (run (j + 1)))
    (hgo : ∀ j, j ≤ t → (run j).halted = false) : Follows (run 0) k q t (run t) := by
  induction t with
  | zero => exact h0
  | succ t ih =>
    have hq' : Supplied (run 0) k q t := fun g hg => hq g (Nat.le_succ_of_le hg)
    have hfollows := ih hq' (fun j hj => hrun j (Nat.lt_succ_of_lt hj))
      fun j hj => hgo j (Nat.le_succ_of_le hj)
    have htick : tickBody (run t) = run (t + 1) := by
      have h := hrun t (Nat.lt_succ_self t)
      rw [exec_tick, hgo t (Nat.le_succ t)] at h
      exact Host.Outcome.next.inj h
    rw [← htick]
    exact hfollows.tick hq' (htick ▸ hgo (t + 1) (Nat.le_refl _))

/-- Settles O45: the ticks before `t` follow the stream, so call `t` reads the sum for its output time. -/
theorem modulatorOutputHasTheClosedForm : Obligations.ModulatorOutputHasTheClosedForm := by
  unfold Obligations.ModulatorOutputHasTheClosedForm
  intro run k q t hfresh hen hrun hgo hq
  have h := ticks_follow ⟨rfl, rfl, hen, freshCtx_tracks hfresh q⟩ hq hrun hgo
  obtain ⟨s', hstep, -⟩ := h.tracks.call h.params_eq h.freeIndex_eq hq
  exact ⟨s', hstep⟩

end Sys2Proof.Machine

/-!
PROOFS. The oscillators (42_oscillator.md). Tick `t` has the angle of tick 0 exactly when the table length
divides `t`; so the table length is the least period, and reading at `t` modulo it changes no angle. At a
quarter turn the argument of `quarterSine` is one of the two ends of the quarter. A tick that leaves the
block running advances every oscillator, so the phase counts the ticks.
-/

namespace Sys2Proof

/-! ### The table length -/

/-- The angle of tick `i` is 0 exactly at the multiples of the table length (42_oscillator.md R151). -/
theorem mul_mod_eq_zero_iff_tableLen_dvd {sr : Nat} (hsr : 0 < sr) (f i : Nat) :
    f * i % sr = 0 ↔ tableLen sr f ∣ i := by
  rw [← Nat.dvd_iff_mod_eq_zero, ← Nat.dvd_gcd_mul_iff_dvd_mul, tableLen,
    Nat.div_dvd_iff_dvd_mul (Nat.gcd_dvd_left sr f) (Nat.gcd_pos_of_pos_left f hsr)]

theorem mul_tableLen_mod {sr : Nat} (hsr : 0 < sr) (f : Nat) : f * tableLen sr f % sr = 0 :=
  (mul_mod_eq_zero_iff_tableLen_dvd hsr f _).2 (Nat.dvd_refl _)

theorem tableLen_zero {sr : Nat} (hsr : 0 < sr) : tableLen sr 0 = 1 := by
  rw [tableLen, Nat.gcd_zero_right, Nat.div_self hsr]

/-- Settles O31: the periods are the multiples of the table length. -/
theorem tableLengthIsTheLeastPeriod : Obligations.TableLengthIsTheLeastPeriod := by
  unfold Obligations.TableLengthIsTheLeastPeriod
  exact fun sr f hsr => ⟨tableLen_pos hsr f, mul_tableLen_mod hsr f,
    fun i hi hperiod => Nat.le_of_dvd hi ((mul_mod_eq_zero_iff_tableLen_dvd hsr f i).1 hperiod),
    Nat.div_dvd_of_dvd (Nat.gcd_dvd_left sr f), tableLen_zero hsr⟩

/-- The angle at the table index of tick `t` is the angle of tick `t` (42_oscillator.md R155). -/
theorem mul_mod_tableLen_mod {sr : Nat} (hsr : 0 < sr) (f t : Nat) :
    f * (t % tableLen sr f) % sr = f * t % sr := by
  obtain ⟨turns, hperiod⟩ := Nat.dvd_of_mod_eq_zero (mul_tableLen_mod hsr f)
  have hsplit : f * t = f * (t % tableLen sr f) + sr * (turns * (t / tableLen sr f)) :=
    calc f * t = f * (t % tableLen sr f + tableLen sr f * (t / tableLen sr f)) := by
          rw [Nat.mod_add_div]
      _ = _ := by rw [Nat.mul_add, ← Nat.mul_assoc f, hperiod, Nat.mul_assoc sr]
  rw [hsplit, Nat.add_mul_mod_self_left]

/-- Settles O33: neither table changes an angle, so the angles are 3 f t and 3 times f t. -/
theorem tableWrapIsPhaseContinuous : Obligations.TableWrapIsPhaseContinuous := by
  unfold Obligations.TableWrapIsPhaseContinuous
  intro sr f t hsr
  refine ⟨mul_mod_tableLen_mod hsr f t, ?_⟩
  rw [mul_mod_tableLen_mod hsr, mul_mod_tableLen_mod hsr, Nat.mul_mod_mod, Nat.mul_assoc]

/-! ### Aliased frequencies -/

theorem tableLen_congr {sr f g : Nat} (h : g % sr = f % sr) : tableLen sr g = tableLen sr f := by
  rw [← tableLen_mod sr g, h, tableLen_mod]

theorem ParamSet.pTrig_congr (p : ParamSet) {f g : Nat} (h : g % p.sr = f % p.sr) :
    p.pTrig g = p.pTrig f := by
  funext i
  rw [← p.pTrig_mod g, h, p.pTrig_mod]

/-- Settles O34: the length and the tables depend on f only through f mod P_SR. -/
theorem aliasedFrequenciesBuildAlike : Obligations.AliasedFrequenciesBuildAlike := by
  unfold Obligations.AliasedFrequenciesBuildAlike
  intro p f g m hg
  have hmod : g.toNat % p.sr = f.toNat % p.sr := by rw [hg, Nat.add_mul_mod_self_right]
  simp only [Machine.builtOsc, tableLen_congr hmod, p.pTrig_congr hmod]

/-! ### Quarter turns -/

@[simp] theorem quarterSine_zero (sr : Nat) : quarterSine sr 0 = 0 := by
  rw [quarterSine, if_pos rfl]

theorem quarterSine_self {sr : Nat} (hsr : 0 < sr) : quarterSine sr sr = 0x3F800000 := by
  rw [quarterSine, if_neg hsr.ne', if_pos rfl]

/-- A zero is stored as +0.0, whatever sign its quarter gives it (00_scope.md R15). -/
@[simp] theorem signedTableValue_zero (neg : Bool) : signedTableValue neg 0 = 0x00000000#32 := by
  cases neg <;> rfl

/-- Settles O35, by the quarter: the arguments of `quarterSine` are 0 and P_SR. -/
theorem referenceTableIsExactAtQuarterTurns : Obligations.ReferenceTableIsExactAtQuarterTurns := by
  unfold Obligations.ReferenceTableIsExactAtQuarterTurns
  intro sr f i hsr hturn
  have hquarter : 4 * (f * i % sr) / sr < 4 := by
    have := Nat.mod_lt (f * i) hsr
    exact (Nat.div_lt_iff_lt_mul hsr).2 (by omega)
  simp only [referenceTrig, turnSine, turnCosine, hturn, Nat.sub_zero, quarterSine_zero,
    quarterSine_self hsr, signedTableValue_zero]
  generalize 4 * (f * i % sr) / sr = q at hquarter ⊢
  match q, hquarter with
  | 0, _ => exact .inl ⟨rfl, rfl⟩
  | 1, _ => exact .inr (.inl ⟨rfl, rfl⟩)
  | 2, _ => exact .inr (.inr (.inl ⟨rfl, rfl⟩))
  | 3, _ => exact .inr (.inr (.inr ⟨rfl, rfl⟩))

namespace Machine

/-! ### The phase -/

/-- Advancing `n` times moves a phase that is in its table on by `n` (42_oscillator.md R154). -/
theorem oscAdvance_iterate {o : Osc} (h : o.phase < o.n) (n : Nat) :
    oscAdvance^[n] o = { o with phase := (o.phase + n) % o.n } := by
  induction n with
  | zero => rw [Nat.add_zero, Nat.mod_eq_of_lt h, Function.iterate_zero_apply]
  | succ n ih => rw [Function.iterate_succ_apply', ih, oscAdvance, Nat.mod_add_mod, Nat.add_assoc]

theorem finishTick_oscillator (s : State) (samples : List (Stream × F32)) (k : OscId) :
    (finishTick s samples).oscillator k = oscAdvance (s.oscillator k) :=
  advanceOscs_oscillator s k

/-- An underrun is fatal (60_exceptions.md R221, R222). -/
theorem underrunTick_halted (s : State) (k : Stream) (ports : State) :
    (underrunTick s k ports).halted = true := by
  rw [underrunTick, raise_halted, Cause.fatal, Bool.or_true]

/-- A tick that leaves the block running has completed, so it has advanced every oscillator
(42_oscillator.md R154, 60_exceptions.md R226). -/
theorem tickBody_advances {s : State} (hgo : (tickBody s).halted = false) (k : OscId) :
    (tickBody s).oscillator k = oscAdvance (s.oscillator k) := by
  rcases tickBody_cases s with ⟨samples, s', -, h, e⟩ | ⟨j, s', -, -, -, e⟩
  · rw [e, finishTick_oscillator, State.oscillator, h.osc_eq, State.oscillator]
  · rw [e, underrunTick_halted] at hgo
    cases hgo

theorem not_halted_of_tickTimes {n : Nat} {s : State} (hgo : (tickTimes n s).halted = false) :
    s.halted = false :=
  Bool.eq_false_iff.2 fun h => by
    rw [tickTimes_halted h, h] at hgo
    cases hgo

/-- Of a run of ticks that leaves the block running every tick has completed (43_mixer.md R177). -/
theorem tickTimes_advances (k : OscId) (n : Nat) {s : State} (hgo : (tickTimes n s).halted = false) :
    (tickTimes n s).oscillator k = oscAdvance^[n] (s.oscillator k) := by
  induction n generalizing s with
  | zero => rfl
  | succ n ih =>
    have hstep : tickTimes (n + 1) s = tickTimes n (tickBody s) :=
      if_neg (Bool.eq_false_iff.1 (not_halted_of_tickTimes hgo))
    rw [hstep] at hgo ⊢
    rw [ih hgo, tickBody_advances (not_halted_of_tickTimes hgo), Function.iterate_succ_apply]

/-- Settles O52: FRAMES is a run of COUNT ticks, each of which has advanced the oscillator. -/
theorem phaseFollowsTheTickCount : Obligations.PhaseFollowsTheTickCount := by
  unfold Obligations.PhaseFollowsTheTickCount
  intro s t count hexec hgo k hphase
  rw [exec_frames] at hexec
  obtain rfl := Host.Outcome.next.inj hexec
  rw [tickTimes_advances k _ hgo, oscAdvance_iterate hphase]

/-! ### The default oscillators -/

theorem regOf_oscLen (k : OscId) : regOf (BitVec.ofNat 8 (0x10 + k.val)) = some (.oscLen k) := by
  revert k; decide

/-- OSC_LEN[k] after reset (10_state.md R29). -/
theorem readReg_oscLen_reset (k : OscId) : readReg State.reset (.oscLen k) =
    readNat (Config.wideOscLen k) (tableLen 190000 (oscDefault k).toNat) :=
  congrArg (fun o : Osc => readNat (Config.wideOscLen k) o.n) (resetWith_oscillator Params.reference k)

/-- A value read out of a word fits 32 bits. -/
theorem readNat_word (wide : Nat → Word) (w : Word) : readNat wide w.toNat = w :=
  BitVec.eq_of_toNat_eq (readNat_toNat wide w.isLt)

/-- Settles O32: the lengths are computed, and what OSC_LEN[k] responds is the length. -/
theorem defaultTableLengths : Obligations.DefaultTableLengths := by
  unfold Obligations.DefaultTableLengths
  intro len
  have hlen : ∀ k : OscId, tableLen 190000 (oscDefault k).toNat = len[k].toNat := by decide
  refine ⟨hlen, fun k => ?_⟩
  rw [exec_rdreg_of_regOf (regOf_oscLen k), readReg_oscLen_reset, hlen, readNat_word]
  rfl

end Machine

end Sys2Proof

/-!
PROOFS. The mixer (43_mixer.md). The output is a product of a factor in [-1, 1] with the output level: the
exact product is no further from zero than the level, and the level is itself a value, so rounding to
nearest does not go beyond it. A tick in which every active stream gives its sample is `finishTick` after
a pass that `stepStreams_done` describes, and FRAMES is a run of ticks.
-/

namespace Sys2Proof

/-! ### Bits 30:0 and the magnitude -/

theorem F32.eq_of_sign_of_bits {a b : F32} (hs : F32.sign a = F32.sign b)
    (hb : a.toNat % 2 ^ 31 = b.toNat % 2 ^ 31) : a = b := by
  have ha := a.isLt
  have hb' := b.isLt
  rw [F32.sign_eq, F32.sign_eq, decide_eq_decide] at hs
  exact BitVec.eq_of_toNat_eq (by omega)

theorem F32.bits_eq (x : F32) : x.toNat % 2 ^ 31 = F32.expo x * 2 ^ 23 + F32.frac x := by
  rw [F32.expo, F32.frac]
  omega

/-- A magnitude lies in the binade of its exponent field (20_memory.md R64). -/
theorem F32.mag_binade (x : F32) :
    F32.mag x < 2 ^ 23 * 2 ^ F32.expo x ∧
      (F32.expo x ≠ 0 → 2 ^ 23 * 2 ^ (F32.expo x - 1) ≤ F32.mag x) := by
  have hf : F32.frac x < 2 ^ 23 := Nat.mod_lt _ (by decide)
  rw [F32.mag]
  split
  case isTrue he => exact ⟨by rw [he]; omega, fun h => absurd he h⟩
  case isFalse he =>
    have hpow : 2 ^ F32.expo x = 2 * 2 ^ (F32.expo x - 1) := by
      rw [← Nat.pow_succ', Nat.succ_eq_add_one, Nat.sub_add_cancel (Nat.pos_of_ne_zero he)]
    rw [hpow, ← Nat.mul_assoc]
    exact ⟨Nat.mul_lt_mul_of_pos_right (by omega) (Nat.two_pow_pos _),
      fun _ => Nat.mul_le_mul_right _ (by omega)⟩

/-- Magnitudes are ordered as bits 30:0 are. -/
theorem F32.mag_lt_mag_of_bits_lt {a b : F32} (h : a.toNat % 2 ^ 31 < b.toNat % 2 ^ 31) :
    F32.mag a < F32.mag b := by
  have ha : F32.frac a < 2 ^ 23 := Nat.mod_lt _ (by decide)
  have hb : F32.frac b < 2 ^ 23 := Nat.mod_lt _ (by decide)
  rw [F32.bits_eq, F32.bits_eq] at h
  rcases Nat.lt_or_ge (F32.expo a) (F32.expo b) with lower | same
  · calc F32.mag a < 2 ^ 23 * 2 ^ F32.expo a := (F32.mag_binade a).1
      _ ≤ 2 ^ 23 * 2 ^ (F32.expo b - 1) :=
        Nat.mul_le_mul_left _ (Nat.pow_le_pow_right (by decide) (by omega))
      _ ≤ F32.mag b := (F32.mag_binade b).2 (by omega)
  · have hexpo : F32.expo a = F32.expo b := by omega
    rw [F32.mag, F32.mag, hexpo]
    split
    · omega
    · exact Nat.mul_lt_mul_of_pos_right (by omega) (Nat.two_pow_pos _)

theorem F32.mag_eq_of_bits_eq {a b : F32} (h : a.toNat % 2 ^ 31 = b.toNat % 2 ^ 31) :
    F32.mag a = F32.mag b := by
  have hexpo : F32.expo a = F32.expo b := by
    rw [F32.expo, F32.expo]
    omega
  have hfrac : F32.frac a = F32.frac b := by
    rw [F32.frac, F32.frac]
    omega
  rw [F32.mag, F32.mag, hexpo, hfrac]

theorem F32.mag_le_mag_iff (a b : F32) :
    F32.mag a ≤ F32.mag b ↔ a.toNat % 2 ^ 31 ≤ b.toNat % 2 ^ 31 := by
  rcases Nat.lt_trichotomy (a.toNat % 2 ^ 31) (b.toNat % 2 ^ 31) with h | h | h
  · exact iff_of_true (F32.mag_lt_mag_of_bits_lt h).le h.le
  · exact iff_of_true (F32.mag_eq_of_bits_eq h).le h.le
  · exact iff_of_false (F32.mag_lt_mag_of_bits_lt h).not_ge h.not_ge

theorem F32.eq_of_sign_of_mag {a b : F32} (hs : F32.sign a = F32.sign b)
    (hm : F32.mag a = F32.mag b) : a = b :=
  F32.eq_of_sign_of_bits hs
    (Nat.le_antisymm ((F32.mag_le_mag_iff a b).1 hm.le) ((F32.mag_le_mag_iff b a).1 hm.ge))

theorem F32.mag_fneg (x : F32) : F32.mag (fneg x) = F32.mag x := by
  rw [F32.mag, F32.mag, fneg_expo, fneg_frac]

theorem F32.mag_one : F32.mag F32.one = 2 ^ 149 := by decide

theorem F32.inUnit_iff_mag (x : F32) : F32.inUnit x = true ↔ F32.mag x ≤ 2 ^ 149 := by
  rw [F32.inUnit_iff, ← F32.mag_one, F32.mag_le_mag_iff]
  rfl

/-! ### A product with a factor in [-1, 1] -/

/-- Rounding does not go beyond a value that bounds the exact magnitude, and gives that value where the
exact magnitude is its (00_scope.md R17). -/
theorem mag_roundMag_le (neg : Bool) {m sh : Nat} (hfin : roundMag m sh < 255 * 2 ^ 23) {c : F32}
    (h : m ≤ F32.mag c * 2 ^ sh) :
    F32.mag (F32.ofSignMag neg (roundMag m sh)) ≤ F32.mag c ∧
      (m = F32.mag c * 2 ^ sh → F32.mag (F32.ofSignMag neg (roundMag m sh)) = F32.mag c) := by
  obtain ⟨near, -⟩ := roundMag_nearest neg hfin c
  have hp := Nat.two_pow_pos sh
  exact ⟨Nat.le_of_mul_le_mul_right (by omega) hp,
    fun heq => Nat.eq_of_mul_eq_mul_right hp (by omega)⟩

/-- The product of a value in [-1, 1] and a level in [+0.0, 1.0] has the sign of the value, is no further
from zero than the level, and as far where the value is 1.0 or -1.0. -/
theorem fmul_unit_level (nan : NaNBits) {x v : F32} (hx : F32.inUnit x = true)
    (hv : F32.inUnit v = true) (hpos : F32.sign v = false) :
    F32.sign (fmul nan x v) = F32.sign x ∧ F32.mag (fmul nan x v) ≤ F32.mag v ∧
      (F32.mag x = 2 ^ 149 → F32.mag (fmul nan x v) = F32.mag v) := by
  rw [fmul_finite nan (F32.inUnit_finite hx) (F32.inUnit_finite hv), hpos, Bool.bne_false,
    Int.natAbs_mul, F32.natAbs_units, F32.natAbs_units]
  rw [F32.inUnit_iff_mag] at hx hv
  have hexact : F32.mag x * F32.mag v ≤ F32.mag v * 2 ^ 149 := by
    rw [Nat.mul_comm]
    exact Nat.mul_le_mul_left _ hx
  have hfin : roundMag (F32.mag x * F32.mag v) 149 < 255 * 2 ^ 23 := by
    rw [roundMag_lt_iff]
    omega
  obtain ⟨hle, heq⟩ := mag_roundMag_le (F32.sign x) hfin hexact
  exact ⟨(F32.ofSignMag_fields _ (by omega)).1, hle, fun h => heq (by rw [h, Nat.mul_comm])⟩

/-- 1.0 and -1.0 give the level and its negative exactly (43_mixer.md R179). -/
theorem fmul_one_level (nan : NaNBits) {x v : F32} (hx : F32.mag x = 2 ^ 149)
    (hv : F32.inUnit v = true) (hpos : F32.sign v = false) :
    fmul nan x v = if F32.sign x then fneg v else v := by
  obtain ⟨hsign, -, hmag⟩ := fmul_unit_level nan ((F32.inUnit_iff_mag x).2 hx.le) hv hpos
  cases hs : F32.sign x with
  | false =>
    rw [if_neg Bool.false_ne_true]
    exact F32.eq_of_sign_of_mag (by rw [hsign, hs, hpos]) (hmag hx)
  | true =>
    rw [if_pos rfl]
    refine F32.eq_of_sign_of_mag ?_ ((hmag hx).trans (F32.mag_fneg v).symm)
    rw [hsign, hs, fneg_sign, hpos, Bool.not_false]

theorem F32.key_of_not_sign {x : F32} (h : F32.sign x = false) :
    F32.key x = (x.toNat % 2 ^ 31 : Nat) := by
  rw [F32.key, if_neg (by simp [h])]

/-- Values in [-1, 1] of magnitude at most that of a level lie between its negative and it. -/
theorem F32.le_of_mag_le {y v : F32} (hv : F32.inUnit v = true) (hpos : F32.sign v = false)
    (h : F32.mag y ≤ F32.mag v) : F32.le (fneg v) y = true ∧ F32.le y v = true := by
  have number : ∀ {w : F32}, w.toNat % 2 ^ 31 ≤ 0x3F800000 → F32.isNaN w = false := fun hw =>
    F32.isNaN_of_finite (F32.inUnit_finite ((F32.inUnit_iff _).2 hw))
  have hkey : F32.key (fneg v) = -F32.key v := by
    have hbits : (fneg v).toNat % 2 ^ 31 = v.toNat % 2 ^ 31 := by
      rw [F32.bits_eq, F32.bits_eq, fneg_expo, fneg_frac]
    rw [F32.key, F32.key, fneg_sign, hpos, hbits]
    rfl
  have hneg : F32.isNaN (fneg v) = F32.isNaN v := by
    rw [F32.isNaN, F32.isNaN, fneg_expo, fneg_frac]
  rw [F32.mag_le_mag_iff] at h
  rw [F32.inUnit_iff] at hv
  have hvkey := F32.key_of_not_sign hpos
  have hykey : (F32.key y).natAbs = y.toNat % 2 ^ 31 := by
    rw [F32.key]
    split <;> omega
  simp only [F32.le, hneg, number hv, number (h.trans hv), hkey, Bool.not_false, Bool.true_and,
    decide_eq_true_eq]
  omega

namespace Machine

/-! ### The clip and the output value -/

theorem clip_of_gt {x : F32} (h : F32.lt F32.one x = true) : clip x = F32.one := if_pos h

theorem clip_of_not_gt {x : F32} (h : F32.lt F32.one x = false) :
    clip x = if F32.lt x F32.negOne then F32.negOne else x := if_neg (by simp [h])

theorem not_gt_one_of_lt_negOne {x : F32} (h : F32.lt x F32.negOne = true) :
    F32.lt F32.one x = false := by
  have hone : F32.key F32.one = 0x3F800000 := rfl
  have hneg : F32.key F32.negOne = -0x3F800000 := rfl
  simp only [F32.lt, Bool.and_eq_true, decide_eq_true_eq, hneg] at h
  simp only [F32.lt, hone, Bool.and_eq_false_imp, decide_eq_false_iff_not]
  omega

theorem clip_of_lt {x : F32} (h : F32.lt x F32.negOne = true) : clip x = F32.negOne := by
  rw [clip_of_not_gt (not_gt_one_of_lt_negOne h), if_pos h]

theorem clip_between {x : F32} (h : F32.lt F32.one x = false) (h' : F32.lt x F32.negOne = false) :
    clip x = x := by
  rw [clip_of_not_gt h, if_neg (by simp [h'])]

/-- Settles O38: the three ranges, in which a NaN lies in none but the last. -/
theorem clipLimitsToOne : Obligations.ClipLimitsToOne := by
  unfold Obligations.ClipLimitsToOne
  refine ⟨fun x => ⟨clip_of_gt, clip_of_lt, clip_between, fun hnan => clip_between ?_ ?_⟩,
    by decide, by decide, by decide⟩ <;> simp [F32.lt, hnan]

/-- A sum that is no NaN is clipped into [-1, 1] (43_mixer.md R174). -/
theorem clip_inUnit {x : F32} (hnum : F32.isNaN x = false) : F32.inUnit (clip x) = true := by
  cases hgt : F32.lt F32.one x with
  | true => rw [clip_of_gt hgt]; decide
  | false =>
    cases hlt : F32.lt x F32.negOne with
    | true => rw [clip_of_lt hlt]; decide
    | false =>
      have hone : F32.isNaN F32.one = false := rfl
      have hneg : F32.isNaN F32.negOne = false := rfl
      rw [clip_between hgt hlt]
      simp only [F32.lt, hnum, hone, hneg, Bool.not_false, Bool.true_and,
        decide_eq_false_iff_not, Int.not_lt] at hgt hlt
      simp only [F32.inUnit, F32.le, hnum, hone, hneg, Bool.not_false, Bool.true_and,
        Bool.and_eq_true, decide_eq_true_eq]
      exact ⟨hlt, hgt⟩

theorem levelOk_one_inUnit {v : F32} (h : levelOk F32.one v) : F32.inUnit v = true := by
  obtain ⟨hpos, hle⟩ := h
  have hone : F32.key F32.one = 0x3F800000 := rfl
  simp only [F32.le, Bool.and_eq_true, decide_eq_true_eq, hone, F32.key_of_not_sign hpos] at hle
  rw [F32.inUnit_iff]
  omega

/-- Settles O39: the factor is in [-1, 1], and 1.0 or -1.0 where the sum is beyond. -/
theorem outputNeverExceedsTheOutputLevel : Obligations.OutputNeverExceedsTheOutputLevel := by
  unfold Obligations.OutputNeverExceedsTheOutputLevel
  intro s samples hvol
  have hunit := levelOk_one_inUnit hvol
  refine ⟨fun hnum => ?_, fun hgt => ?_, fun hlt => ?_⟩
  · exact F32.le_of_mag_le hunit hvol.1 (fmul_unit_level _ (clip_inUnit hnum) hunit hvol.1).2.1
  · rw [outputValue, clip_of_gt hgt]
    exact fmul_one_level _ (by decide) hunit hvol.1
  · rw [outputValue, clip_of_lt hlt]
    exact fmul_one_level _ (by decide) hunit hvol.1

/-! ### TICK and FRAMES as functions of the state -/

/-- The state that a TICK answers (43_mixer.md R176, 60_exceptions.md R224). -/
def State.ticked (s : State) : State := if s.halted then s else tickBody s

theorem exec_tick_ticked (s : State) : exec .tick s = .next s.ticked := rfl

theorem ticked_of_halted {s : State} (h : s.halted = true) : s.ticked = s := if_pos h

theorem ticked_of_running {s : State} (h : s.halted = false) : s.ticked = tickBody s :=
  if_neg (by simp [h])

/-- A run of ticks that stops at a halt is one that goes on, as a halted block ignores a TICK. -/
theorem tickTimes_eq_iterate (n : Nat) (s : State) : tickTimes n s = State.ticked^[n] s := by
  induction n generalizing s with
  | zero => rfl
  | succ n ih =>
    rw [Function.iterate_succ_apply, ← ih, tickTimes]
    split
    case isTrue h => rw [ticked_of_halted h, tickTimes_halted h]
    case isFalse h => rw [ticked_of_running (Bool.eq_false_iff.2 h)]

/-- Settles O50, by induction on COUNT. -/
theorem framesIsRepeatedTick : Obligations.FramesIsRepeatedTick := by
  unfold Obligations.FramesIsRepeatedTick
  exact ⟨State.ticked, exec_tick_ticked, fun count s => by rw [exec_frames, tickTimes_eq_iterate]⟩

/-- Settles O57: an underrun records no level, and a mix reads the levels of active streams alone. -/
theorem inactiveStreamLevelIsNotMixed : Obligations.InactiveStreamLevelIsNotMixed := by
  unfold Obligations.InactiveStreamLevelIsNotMixed
  intro s t k v hk h
  obtain rfl := Host.Outcome.next.inj ((exec_tick_ticked s).symm.trans h)
  rw [exec_tick_ticked]
  cases hhalt : s.halted with
  | true => rw [ticked_of_halted hhalt, ticked_of_halted (s := s.setStreamVol k v) hhalt]
  | false =>
    rw [ticked_of_running hhalt, ticked_of_running (s := s.setStreamVol k v) hhalt,
      tickBody_setStreamVol hk]

/-! ### No active stream -/

theorem stepStreams_of_noActiveStream {s : State} (h : Claims.noActiveStream s) (ks : List Stream) :
    stepStreams ks s = .done [] s := by
  induction ks with
  | nil => rfl
  | cons k rest ih => rw [stepStreams, if_neg (by simp [h k]), ih]

theorem tickBody_of_noActiveStream {s : State} (h : Claims.noActiveStream s) :
    tickBody s = finishTick s [] := by
  rw [tickBody, stepStreams_of_noActiveStream h]

/-- What a completed tick changes after the pass over the streams (43_mixer.md R176). -/
theorem finishTick_eq (s : State) (samples : List (Stream × F32)) :
    finishTick s samples =
      { s with
        osc := s.advanceOscs.osc
        out := s.out ++ [.frame (outputValue s samples) (outputValue s samples)]
        freeIndex := s.freeIndex + 1 } := rfl

/-- Settles O46: the mix of no sample is the pilot term. -/
theorem tickWithoutStreamsEmitsThePilot : Obligations.TickWithoutStreamsEmitsThePilot := by
  unfold Obligations.TickWithoutStreamsEmitsThePilot
  intro s hgo hnone y
  refine ⟨finishTick s [], ?_, finishTick_eq s [], finishTick_oscillator s []⟩
  rw [exec_tick_ticked, ticked_of_running hgo, tickBody_of_noActiveStream hnone]

/-- A run of ticks with no active stream puts out a frame for each of them, and besides changes only the
oscillators and the counter of free values (43_mixer.md R177). -/
theorem tickTimes_of_noActiveStream (n : Nat) {s : State} (hgo : s.halted = false)
    (hnone : Claims.noActiveStream s) :
    ∃ (ys : List F32) (osc : Vector Osc 5) (free : Nat), ys.length = n ∧
      tickTimes n s =
        { s with
          osc := osc, out := s.out ++ ys.map (fun y => .frame y y), freeIndex := free } := by
  induction n generalizing s with
  | zero => exact ⟨[], s.osc, s.freeIndex, rfl, by rw [List.map_nil, List.append_nil]; rfl⟩
  | succ n ih =>
    obtain ⟨ys, osc, free, hlen, hrun⟩ := ih (s := finishTick s []) hgo hnone
    refine ⟨outputValue s [] :: ys, osc, free, congrArg (· + 1) hlen, ?_⟩
    rw [tickTimes, if_neg (by simp [hgo]), tickBody_of_noActiveStream hnone, hrun]
    simp only [finishTick_eq, List.map_cons, List.append_assoc, List.singleton_append]

/-- Settles O51: every tick of the run completes, so every phase counts COUNT ticks. -/
theorem framesWithoutStreamsEmitsCountFrames : Obligations.FramesWithoutStreamsEmitsCountFrames := by
  unfold Obligations.FramesWithoutStreamsEmitsCountFrames
  intro s count hgo hnone hphase
  obtain ⟨ys, osc, free, hlen, hrun⟩ := tickTimes_of_noActiveStream count.toNat hgo hnone
  have hend : (tickTimes count.toNat s).halted = false := by rw [hrun]; exact hgo
  refine ⟨ys, tickTimes count.toNat s, exec_frames count s, ?_, hlen, fun k => ?_⟩
  · rw [hrun]
  · rw [tickTimes_advances k _ hend, oscAdvance_iterate (hphase k)]

/-! ### Every request supplied -/

/-- A call gives a sample unless it asks for a group that is not there (41_modulator.md R133). -/
theorem modStep_sample_of_supplied {s : State} {k : Stream}
    (h : Claims.wantsGroup s k = true → ∃ g rest, s.groups k = some g :: rest) :
    ∃ y u, modStep s k = .sample y u := by
  rcases modStep_cases s k with ⟨-, e⟩ | ⟨-, -, e⟩ | ⟨hs, hb, ⟨hnone, -⟩ | ⟨g, -, e⟩⟩
  · exact ⟨_, _, e⟩
  · exact ⟨_, _, e⟩
  · obtain ⟨g, rest, hg⟩ := h ((asksFor_iff s k).2 ⟨hs, hb⟩)
    rw [hg] at hnone
    cases hnone
  · exact ⟨_, _, e⟩

/-- The carriers of the four streams in order (43_mixer.md R170). -/
def carriers (s : State) : Vector F32 4 :=
  #v[oscCos (s.oscillator 1), oscSin (s.oscillator 2), fneg (oscCos (s.oscillator 3)),
    fneg (oscSin (s.oscillator 4))]

theorem getElem_carriers (s : State) (k : Stream) : (carriers s)[k] = carrier s k := by
  fin_cases k <;> rfl

/-- The output value of one sample for each stream of a list (43_mixer.md R172 to R175). -/
theorem outputValue_map (s : State) (ks : List Stream) (y : Stream → F32) :
    outputValue s (ks.map fun k => (k, y k)) =
      fmul (Config.nanResult s.freeIndex .output)
        (clip (ks.foldl
          (fun acc k => fadd (Config.nanResult s.freeIndex (.sum k)) acc
            (fmul (Config.nanResult s.freeIndex (.level k))
              (fmul (Config.nanResult s.freeIndex (.carrier k)) (carriers s)[k] (y k)) (s.level k)))
          (fmul (Config.nanResult s.freeIndex .pilot) (oscCos (s.oscillator 0)) s.pilotVol)))
        s.outVol := by
  simp only [getElem_carriers]
  rw [outputValue, mixSum, List.foldl_map]
  rfl

/-- What a completed tick leaves, from the state before it and the pass over the streams. -/
theorem SameBut.finishTick_eq {P : Stream → Prop} {s s' : State} (h : SameBut P s s')
    (samples : List (Stream × F32)) :
    finishTick s' samples =
      { s with
        mods := s'.mods
        osc := s.advanceOscs.osc
        groupIn := s'.groupIn
        out := s'.out ++ [.frame (outputValue s samples) (outputValue s samples)]
        freeIndex := s.freeIndex + 1 } := by
  have hy := outputValue_congr h.osc_eq h.streamVol_eq h.pilotVol_eq h.outVol_eq h.freeIndex_eq samples
  have hosc : s'.advanceOscs.osc = s.advanceOscs.osc := by
    simp only [advanceOscs_osc, State.oscillator, h.osc_eq]
  rw [Machine.finishTick_eq, hy, hosc, h.freeIndex_eq, ← h.params_eq, ← h.status_eq, ← h.streamEn_eq,
    ← h.outVol_eq, ← h.pilotVol_eq, ← h.streamVol_eq, ← h.hostIn_eq]

/-- A tick in which every active stream gives its sample finishes after a pass that has made their calls
and their requests (43_mixer.md R171, R176). -/
theorem tickBody_of_samples {s : State} {y : Stream → F32} {after : Stream → State}
    (h : ∀ k, s.enabled k = true → modStep s k = .sample (y k) (after k)) :
    let active := allStreams.filter fun k => s.enabled k
    ∃ s', tickBody s = finishTick s' (active.map fun k => (k, y k)) ∧
      SameBut (fun k => s.enabled k = true) s s' ∧
      (∀ k, s.enabled k = true → s'.mod k = (after k).mod k ∧ s'.groups k = (after k).groups k) ∧
      s'.out = s.out ++ (active.filter fun k => asksFor s k).map Output.groupRequest := by
  intro active
  have hmem : ∀ k : Stream, k ∈ allStreams := by decide
  obtain ⟨s', hpass, hcalls, hout⟩ :=
    stepStreams_done (ks := allStreams) (by decide) fun k _ hk => h k hk
  have hsame := stepStreams_sameBut allStreams s
  rw [hpass] at hsame
  have hreq : active.filter (fun k => asksFor s k) =
      allStreams.filter fun k => s.enabled k && asksFor s k := by
    rw [List.filter_filter]
    exact List.filter_congr fun k _ => Bool.and_comm _ _
  exact ⟨s', by rw [tickBody, hpass], hsame.mono fun _ hj => hj.2, fun k => hcalls k (hmem k),
    hreq ▸ hout⟩

/-- Settles O48: every call gives a sample, and the tick finishes with the mix of the samples. -/
theorem tickMixesTheActiveStreams : Obligations.TickMixesTheActiveStreams := by
  unfold Obligations.TickMixesTheActiveStreams
  intro s hgo hsupplied
  have hcall : ∀ k, ∃ y u, s.enabled k = true → modStep s k = .sample y u := fun k => by
    by_cases hk : s.enabled k = true
    · obtain ⟨y, u, hu⟩ := modStep_sample_of_supplied (hsupplied k hk)
      exact ⟨y, u, fun _ => hu⟩
    · exact ⟨F32.zero, s, fun h => absurd h hk⟩
  choose sample after hstep using hcall
  obtain ⟨s', htick, hsame, hcalls, hout⟩ := tickBody_of_samples hstep
  refine ⟨sample, after, tickBody s, hstep, congrArg _ (ticked_of_running hgo), ?_, ?_, ?_, ?_⟩ <;>
    rw [htick]
  · rw [hsame.finishTick_eq, outputValue_map, hout]
    rfl
  · intro k
    split
    case isTrue hk => exact (hcalls k hk).1
    case isFalse hk => exact hsame.mods_eq k hk
  · intro k
    by_cases hk : s.enabled k = true
    · have hgroups := modStep_groups s k
      rw [hstep k hk] at hgroups
      rw [hk, Bool.true_and]
      exact (hcalls k hk).2.trans hgroups
    · rw [if_neg (by simp [hk])]
      exact hsame.groupIn_eq k hk
  · intro k
    rw [finishTick_oscillator, State.oscillator, hsame.osc_eq]
    rfl

end Machine

end Sys2Proof

/-!
PROOFS. The control commands (44_control.md). A register number names its register by `regOf`, and from
the register on a read is `readReg` and a write that is not ignored is one equation for each kind of
register (10_state.md R20). So each statement is the number looked up and the equation of its kind.
-/

namespace Sys2Proof.Machine

/-! ### The numbers of the registers -/

theorem regOf_streamVol (k : Stream) : regOf (BitVec.ofNat 8 (0x04 + k.val)) = some (.streamVol k) := by
  revert k; decide

theorem regOf_oscFreq (k : OscId) : regOf (BitVec.ofNat 8 (0x08 + k.val)) = some (.oscFreq k) := by
  revert k; decide

theorem regOf_oscPhase (k : OscId) : regOf (BitVec.ofNat 8 (0x18 + k.val)) = some (.oscPhase k) := by
  revert k; decide

/-- The numbers of the registers that hold a level (10_state.md R25 to R27). -/
theorem regOf_level {n : BitVec 8} (h : n ∈ [0x02#8, 0x03#8, 0x04#8, 0x05#8, 0x06#8, 0x07#8]) :
    regOf n = some .outVol ∨ regOf n = some .pilotVol ∨ ∃ k, regOf n = some (.streamVol k) := by
  revert n; decide

/-- From 0x0D on a number names a register that is only read, or none; 0x00 names STATUS
(10_state.md R20). -/
theorem regOf_readOnly {n : BitVec 8} (h : n = 0x00#8 ∨ 0x0D ≤ n.toNat) :
    regOf n = none ∨ regOf n = some .status ∨ (∃ k, regOf n = some (.oscLen k)) ∨
      (∃ k, regOf n = some (.oscPhase k)) ∨ (∃ k, regOf n = some (.modState k)) ∨
      ∃ k, regOf n = some (.modPtr k) := by
  revert n; decide

/-! ### Reading a register -/

/-- The mask keeps the bits of the implemented streams (10_state.md R24). -/
theorem getLsbD_and_streamMask (p : Params) (x : Word) (i : Nat) :
    (x &&& streamMask p).getLsbD i = (decide (i < p.nstreams) && x.getLsbD i) := by
  have hle := p.nstreams_le
  have hmask : (streamMask p).getLsbD i = decide (i < p.nstreams) := by
    rw [streamMask, BitVec.getLsbD_ofNat, Nat.testBit_two_pow_sub_one, ← Bool.decide_and]
    exact decide_eq_decide.2 ⟨And.right, fun h => ⟨by omega, h⟩⟩
  rw [BitVec.getLsbD_and, hmask, Bool.and_comm]

/-- Settles O24: each number names its register. -/
theorem rdregRespondsTheRegister : Obligations.RdregRespondsTheRegister := by
  unfold Obligations.RdregRespondsTheRegister
  exact fun s => ⟨
    ⟨_, exec_rdreg_of_regOf (r := .streamEn) rfl s, getLsbD_and_streamMask s.params s.streamEn⟩,
    exec_rdreg_of_regOf (r := .outVol) rfl s,
    exec_rdreg_of_regOf (r := .pilotVol) rfl s,
    fun k => exec_rdreg_of_regOf (regOf_streamVol k) s,
    fun k => exec_rdreg_of_regOf (regOf_oscFreq k) s,
    fun k => ⟨_, exec_rdreg_of_regOf (regOf_oscLen k) s, readNat_toNat _⟩,
    fun k => ⟨_, exec_rdreg_of_regOf (regOf_oscPhase k) s, readNat_toNat _⟩⟩

/-- Settles O26: these are the numbers that name no register. -/
theorem rdregOfAnUnimplementedNumber : Obligations.RdregOfAnUnimplementedNumber := by
  unfold Obligations.RdregOfAnUnimplementedNumber
  intro s n hn
  rcases exec_rdreg n s with ⟨r, hr, -⟩ | ⟨-, e⟩
  · cases ((regOf_none_iff n).2 hn).symm.trans hr
  · exact e

/-! ### Writing a register, by its kind -/

section
variable {s : State} {n : BitVec 8} {data : Word}

/-- A WRREG is ignored only while HALTED (44_control.md R193). -/
theorem exec_wrreg_running (h : s.halted = false) (n : BitVec 8) (data : Word) :
    exec (.wrreg n data) s = .next (writeReg s n data) := by
  rw [exec_wrreg, h]
  rfl

/-- A register that is only read is not written (44_control.md R200). -/
theorem writeReg_readOnly (h : n = 0x00#8 ∨ 0x0D ≤ n.toNat) :
    writeReg s n data = s.raise .operand n := by
  rcases regOf_readOnly h with e | e | ⟨k, e⟩ | ⟨k, e⟩ | ⟨k, e⟩ | ⟨k, e⟩ <;> rw [writeReg, e]

theorem writeReg_outVol (h : regOf n = some .outVol) :
    writeReg s n data = writeLevel s n data F32.one fun v => { s with outVol := v } := by
  rw [writeReg, h]

theorem writeReg_pilotVol (h : regOf n = some .pilotVol) :
    writeReg s n data = writeLevel s n data volMax fun v => { s with pilotVol := v } := by
  rw [writeReg, h]

theorem writeReg_streamVol {k : Stream} (h : regOf n = some (.streamVol k)) :
    writeReg s n data = writeLevel s n data volMax fun v => s.setStreamVol k v := by
  rw [writeReg, h]

theorem writeReg_oscFreq {k : OscId} (h : regOf n = some (.oscFreq k)) :
    writeReg s n data = s.oscBuild k data := by
  rw [writeReg, h]

/-! ### Levels -/

theorem writeLevel_of_isNaN (h : F32.isNaN data = true) (max : F32) (store : F32 → State) :
    writeLevel s n data max store = s.raise .operand n := by
  rw [writeLevel, levelOperand, if_pos h]

theorem writeLevel_of_not_isNaN (h : F32.isNaN data = false) (max : F32) (store : F32 → State) :
    writeLevel s n data max store = store (clampLevel data max) := by
  rw [writeLevel, levelOperand, h]
  rfl

/-- Whatever the level register, a NaN is refused (44_control.md R197, R198). -/
theorem writeReg_level_of_isNaN (hn : n ∈ [0x02#8, 0x03#8, 0x04#8, 0x05#8, 0x06#8, 0x07#8])
    (h : F32.isNaN data = true) : writeReg s n data = s.raise .operand n := by
  rcases regOf_level hn with e | e | ⟨k, e⟩
  · rw [writeReg_outVol e, writeLevel_of_isNaN h]
  · rw [writeReg_pilotVol e, writeLevel_of_isNaN h]
  · rw [writeReg_streamVol e, writeLevel_of_isNaN h]

end

/-- Settles O27: none of these numbers names a register that can be written. -/
theorem wrregOfAReadOnlyOrUnimplementedNumber : Obligations.WrregOfAReadOnlyOrUnimplementedNumber := by
  unfold Obligations.WrregOfAReadOnlyOrUnimplementedNumber
  intro s n data hgo hn
  rw [exec_wrreg_running hgo, writeReg_readOnly hn]
  rfl

/-- Settles O28: above the ceiling, at or below zero and between are the three branches of the clamp. -/
theorem wrregOfALevelClamps : Obligations.WrregOfALevelClamps := by
  unfold Obligations.WrregOfALevelClamps
  intro s data hgo stored
  simp only [exec_wrreg_running hgo]
  constructor
  · intro hnan n hn
    rw [writeReg_level_of_isNaN hn hnan]
    rfl
  · intro hnum
    refine ⟨?_, ?_, fun k => ?_⟩
    · rw [writeReg_outVol rfl, writeLevel_of_not_isNaN hnum]
      rfl
    · rw [writeReg_pilotVol rfl, writeLevel_of_not_isNaN hnum]
      rfl
    · rw [writeReg_streamVol (regOf_streamVol k), writeLevel_of_not_isNaN hnum]
      rfl

/-! ### STREAM_EN -/

/-- A stream is active after a write when its bit exists and is set in the data (44_control.md R196). -/
theorem writeStreamEn_enabled (s : State) (data : Word) (k : Stream) :
    (writeStreamEn s data).enabled k = (decide (k.val < s.params.nstreams) && data.getLsbD k.val) := by
  show (decide (k.val < s.params.nstreams) && (data &&& streamMask s.params).getLsbD k.val) = _
  rw [getLsbD_and_streamMask, ← Bool.and_assoc, Bool.and_self]

/-- A context that has just been reset asks at its next step (41_modulator.md R139). -/
theorem wantsGroup_of_freshCtx {s : State} {k : Stream} (h : s.mod k = freshCtx s.params) :
    Claims.wantsGroup s k = true := by
  simp [Claims.wantsGroup, h, freshCtx]

/-- Settles O29: the mask gives the bits, and the contexts are those of `writeStreamEn_mod`. -/
theorem wrregOfStreamEnable : Obligations.WrregOfStreamEnable := by
  unfold Obligations.WrregOfStreamEnable
  intro s data hgo on
  have hmod : ∀ k, (writeStreamEn s data).mod k = if on k then freshCtx s.params else s.mod k :=
    fun k => by rw [writeStreamEn_mod, getLsbD_and_streamMask]
  refine ⟨writeStreamEn s data, exec_wrreg_running hgo _ _, rfl,
    getLsbD_and_streamMask s.params data, hmod, fun k hk => ⟨?_, ?_⟩⟩
  · rw [writeStreamEn_enabled]
    exact (Bool.and_eq_true_iff.1 hk).1
  · exact wantsGroup_of_freshCtx ((hmod k).trans (if_pos hk))

/-! ### OSC_FREQ -/

/-- The tables of an oscillator that was built are the N values of P_TRIG (42_oscillator.md R150). -/
theorem builtOsc_tables (p : Params) (f : Word) :
    (builtOsc p f).sin.length = tableLen p.sr f.toNat ∧
      (builtOsc p f).cos.length = tableLen p.sr f.toNat ∧
      ∀ i, i < tableLen p.sr f.toNat →
        (builtOsc p f).sin[i]? = some (p.pTrig f.toNat i).1 ∧
          (builtOsc p f).cos[i]? = some (p.pTrig f.toNat i).2 :=
  ⟨by simp [builtOsc], by simp [builtOsc], fun i hi => by simp [builtOsc, hi]⟩

/-- Settles O30: the write is OscBuild, and either its tables fit or they do not. -/
theorem wrregOfAnOscillatorFrequency : Obligations.WrregOfAnOscillatorFrequency := by
  unfold Obligations.WrregOfAnOscillatorFrequency
  intro s k f hgo n
  have hwrite : exec (.wrreg (BitVec.ofNat 8 (0x08 + k.val)) f) s = .next (s.oscBuild k f) := by
    rw [exec_wrreg_running hgo, writeReg_oscFreq (regOf_oscFreq k)]
  rcases oscBuild_cases s k f with ⟨hfit, hbuild⟩ | ⟨hover, hbuild⟩ <;> rw [hbuild] at hwrite
  · exact ⟨fun _ => ⟨_, _, hwrite, builtOsc_tables s.params f⟩,
      fun hover => absurd hfit (Nat.not_le.2 hover)⟩
  · exact ⟨fun hfit => absurd hfit (Nat.not_le.2 hover),
      fun _ => ⟨_, hwrite, rfl, by rw [raise_halted, Cause.fatal, Bool.or_true]⟩⟩

/-! ### NOP -/

/-- Settles O20: NOP has no other effect (44_control.md R190). -/
theorem nopChangesNothing : Obligations.NopChangesNothing := by
  unfold Obligations.NopChangesNothing
  exact exec_nop

end Sys2Proof.Machine

/-!
PROOFS. Errors and HALTED (60_exceptions.md). A word is illegal exactly where it is no command, and its
step is `raise Err` of its OP. An underrun cuts the pass over the streams in two: the streams below the one
that starves have made their calls, those above it are not reached (R226).
-/

namespace Sys2Proof.Machine

/-! ### The outcome of a step -/

/-- Settles O2: the idle block takes nothing (60_exceptions.md R238). -/
theorem idleBlockKeepsItsState : Obligations.IdleBlockKeepsItsState := by
  unfold Obligations.IdleBlockKeepsItsState
  intro s hidle
  simp only [step, hidle]

/-- Every command answers a next state, whatever it records in STATUS (60_exceptions.md R222, R231). -/
theorem exec_goes (i : Instr) (s : State) : Goes (exec i s) := by
  cases i <;> exact ⟨_, rfl⟩

/-- Settles O3: a command goes on, and every other kind of step is a next state as it stands. -/
theorem everyStepGoesOn : Obligations.EveryStepGoesOn := by
  unfold Obligations.EveryStepGoesOn
  intro s
  rcases step_cases s with ⟨-, h⟩ | ⟨w, rest, i, -, -, h⟩ | ⟨w, rest, why, -, -, h⟩ | ⟨rest, -, h⟩ |
    ⟨w, ticks, rest, -, h⟩ <;> rw [h]
  case inr.inl => exact exec_goes i _
  all_goals exact ⟨_, rfl⟩

/-! ### Illegal words -/

/-- A word is illegal, with its OP to record, exactly where its OP is reserved or a reserved bit is set
(30_encoding.md R84, 60_exceptions.md R220). -/
theorem exists_decode_illegal_iff (w : Cmd) :
    (∃ why, decode w = .illegal why ∧ why.op = w.op) ↔
      0x07 ≤ w.op.toNat ∨ ∃ mask, reservedMask w.op = some mask ∧ w.payload &&& mask ≠ 0#64 := by
  rw [decode_eq, ← reservedMask_none_iff]
  cases hmask : reservedMask w.op with
  | none => simp [Illegal.op]
  | some mask =>
    cases hinstr : selectInstr w.op w.payload with
    | none => simp [(selectInstr_none_iff _ _).1 hinstr] at hmask
    | some i => by_cases hz : w.payload &&& mask = 0#64 <;> simp [hz, Illegal.op]

/-- Settles O5: the decoder refuses the word, and the step records its OP, halted or not. -/
theorem illegalWordOnlyRecordsTheError : Obligations.IllegalWordOnlyRecordsTheError := by
  unfold Obligations.IllegalWordOnlyRecordsTheError
  intro s w rest hin hbad
  obtain ⟨why, hdecode, hop⟩ := (exists_decode_illegal_iff w).2 hbad
  simp only [step, hin, runWord, hdecode]
  rw [execIllegal, hop, State.raise]

/-! ### STATUS and HALTED -/

/-- The fatal causes are those of the codes 3 and 4 (60_exceptions.md R221, R222). -/
theorem Cause.fatal_iff_code (c : Cause) : c.fatal = true ↔ c.code = 3#4 ∨ c.code = 4#4 := by
  cases c <;> decide

/-- Settles O16: the flags, the first cause and HALTED, each by what `raise Err` says of it. -/
theorem raisingAnErrorUpdatesStatus : Obligations.RaisingAnErrorUpdatesStatus := by
  unfold Obligations.RaisingAnErrorUpdatesStatus
  intro st c info t
  obtain ⟨first, later⟩ := raise_first st c info
  refine ⟨fun d => raise_flag st c d info, fun h => ⟨first h, if_pos h⟩, later, ?_⟩
  rw [← c.fatal_iff_code]
  exact Bool.or_eq_true_iff

/-- Settles O18: each of the three commands asks for HALTED before it acts. -/
theorem haltedBlockIgnoresTickFramesAndWrreg : Obligations.HaltedBlockIgnoresTickFramesAndWrreg := by
  unfold Obligations.HaltedBlockIgnoresTickFramesAndWrreg
  intro s count regno data hhalt
  refine ⟨?_, ?_, ?_⟩
  · rw [exec_tick_ticked, ticked_of_halted hhalt]
  · rw [exec_frames, tickTimes_halted hhalt]
  · rw [exec_wrreg, if_pos hhalt]

/-! ### A pass that underruns -/

/-- The streams of a pass in increasing number, cut at one of them (43_mixer.md R171). -/
theorem allStreams_cut (k : Stream) :
    allStreams = allStreams.filter (· < k) ++ k :: allStreams.filter (k < ·) := by
  revert k; decide

theorem allStreams_filter_le (k : Stream) :
    allStreams.filter (· ≤ k) = allStreams.filter (· < k) ++ [k] := by
  revert k; decide

/-- A pass over streams whose requests are all supplied goes through: the streams that ask have made their
requests, and one answer of each of their ports is used up (43_mixer.md R171; log 7). -/
theorem stepStreams_of_supplied {ks : List Stream} (hn : ks.Nodup) {s : State}
    (h : ∀ k ∈ ks, s.enabled k = true → asksFor s k = true → ∃ g rest, s.groups k = some g :: rest) :
    ∃ samples s', stepStreams ks s = .done samples s' ∧
      SameBut (fun k => k ∈ ks ∧ s.enabled k = true) s s' ∧
      (∀ k ∈ ks, s'.groups k =
        if s.enabled k && asksFor s k then (s.groups k).tail else s.groups k) ∧
      s'.out = s.out ++ (ks.filter fun k => s.enabled k && asksFor s k).map Output.groupRequest := by
  have hcall : ∀ k, ∃ y u, k ∈ ks → s.enabled k = true → modStep s k = .sample y u := fun k => by
    by_cases hk : k ∈ ks ∧ s.enabled k = true
    · obtain ⟨y, u, hu⟩ := modStep_sample_of_supplied (h k hk.1 hk.2)
      exact ⟨y, u, fun _ _ => hu⟩
    · exact ⟨F32.zero, s, fun hmem hen => absurd ⟨hmem, hen⟩ hk⟩
  choose y after hstep using hcall
  obtain ⟨s', hpass, hcalls, hout⟩ := stepStreams_done hn hstep
  have hsame := stepStreams_sameBut ks s
  rw [hpass] at hsame
  refine ⟨_, s', hpass, hsame, fun k hk => ?_, hout⟩
  by_cases hen : s.enabled k = true
  · have hgroups := modStep_groups s k
    rw [hstep k hk hen] at hgroups
    rw [hen, Bool.true_and]
    exact (hcalls k hk hen).2.trans hgroups
  · rw [if_neg (by simp [hen])]
    exact hsame.groupIn_eq k fun c => hen c.2

/-- A pass stops at the first stream that asks and gets no group: the requests made are those of the
streams before it and its own (43_mixer.md R171, 60_exceptions.md R226). -/
theorem stepStreams_underrun_at {below later : List Stream} {k : Stream}
    (hn : (below ++ [k]).Nodup) {s : State} (hen : s.enabled k = true) (hask : asksFor s k = true)
    (hnone : (s.groups k).head?.join = none)
    (h : ∀ j ∈ below, s.enabled j = true → asksFor s j = true → ∃ g rest, s.groups j = some g :: rest) :
    ∃ t, stepStreams (below ++ k :: later) s = .underrun k t ∧
      (∀ j, t.groups j =
        if j ∈ below ++ [k] ∧ (s.enabled j && asksFor s j) = true then (s.groups j).tail
        else s.groups j) ∧
      t.out = s.out ++
        ((below ++ [k]).filter fun j => s.enabled j && asksFor s j).map Output.groupRequest := by
  have hk : k ∉ below := fun hmem => List.disjoint_of_nodup_append hn hmem (List.mem_singleton_self k)
  obtain ⟨samples, s', hpass, hsame, hgroups, hout⟩ := stepStreams_of_supplied hn.of_append_left h
  have hport : s'.groups k = s.groups k := hsame.groupIn_eq k fun c => hk c.1
  have hask' : asksFor s' k = true := (hsame.asksFor_eq fun c => hk c.1).trans hask
  obtain ⟨hcount, hbits⟩ := (asksFor_iff s' k).1 hask'
  have hstop : stepStreams (k :: later) s' = .underrun k (s'.requestGroup k).2 := by
    rw [stepStreams, if_pos ((hsame.enabled_eq k).trans hen),
      modStep_unsupplied hcount hbits (by rw [hport, hnone])]
  refine ⟨_, stepStreams_append hpass hstop, fun j => ?_, ?_⟩
  · rw [requestGroup_groups]
    by_cases hjk : j = k
    · subst hjk
      simp [hport, hen, hask]
    · by_cases hj : j ∈ below
      · simp [hjk, hj, hgroups j hj]
      · simp [hjk, hj, hsame.groupIn_eq j fun c => hj c.1]
  · rw [requestGroup_out, hout]
    simp [hen, hask]

/-- Settles O49: the pass stops at stream k, and the tick keeps of it the error and the ports alone. -/
theorem underrunOnlyRecordsTheLowestStream : Obligations.UnderrunOnlyRecordsTheLowestStream := by
  unfold Obligations.UnderrunOnlyRecordsTheLowestStream
  intro s k hgo hen hask hstarves hsupplied asks
  have hnone : (s.groups k).head?.join = none := by
    rcases hstarves with h | ⟨rest, h⟩ <;> rw [h] <;> rfl
  have hn : (allStreams.filter (· < k) ++ [k]).Nodup :=
    allStreams_filter_le k ▸ List.Nodup.filter _ (by decide)
  obtain ⟨ports, hpass, hgroups, hout⟩ :=
    stepStreams_underrun_at (later := allStreams.filter (k < ·)) hn hen hask hnone
      fun j hj => hsupplied j (by simpa using List.of_mem_filter hj)
  rw [← allStreams_cut] at hpass
  rw [← allStreams_filter_le] at hgroups hout
  have htick : tickBody s = underrunTick s k ports := by rw [tickBody, hpass]
  have hasks : ∀ j, asks j = (decide (j ≤ k) && (s.enabled j && asksFor s j)) := fun j =>
    Bool.and_assoc _ _ _
  have hasked : (allStreams.filter (· ≤ k)).filter (fun j => s.enabled j && asksFor s j) =
      allStreams.filter asks := by
    rw [List.filter_filter]
    exact List.filter_congr fun j _ => by rw [hasks, Bool.and_comm]
  refine ⟨underrunTick s k ports, ?_, ?_, ?_, fun j => ?_⟩
  · rw [exec_tick_ticked, ticked_of_running hgo, htick]
  · rw [underrunTick, hout, hasked]
    rfl
  · exact underrunTick_halted s k ports
  · have hmem : j ∈ allStreams := by revert j; decide
    refine (hgroups j).trans ?_
    simp [hmem, hasks]

end Sys2Proof.Machine

/-!
PROOFS. The reset (70_reset_and_hazards.md). BlockReset gives the power-on state on the ports as they are,
so what a reset does is read from that state. From the power-on state the ticks are written out in full:
each pilot product has the factor +0.0 and a finite carrier, so every frame is a zero with the sign of the
carrier.
-/

namespace Sys2Proof

/-- A product of finite operands one of which is a zero is a zero, with the sign of the product
(00_scope.md R17). -/
theorem fmul_of_mag_zero (nan : NaNBits) {a b : F32} (ha : F32.finite a = true)
    (hb : F32.finite b = true) (hzero : F32.mag a = 0 ∨ F32.mag b = 0) :
    fmul nan a b = F32.ofSignMag (F32.sign a != F32.sign b) 0 := by
  rw [fmul_finite nan ha hb, Int.natAbs_mul, F32.natAbs_units, F32.natAbs_units,
    Nat.mul_eq_zero.2 hzero, roundMag_zero]

theorem referenceTrig_zero {sr : Nat} (hsr : 0 < sr) (f : Nat) :
    referenceTrig sr f 0 = (F32.zero, F32.one) := by
  simp only [referenceTrig, turnSine, turnCosine, Nat.mul_zero, Nat.zero_mod, Nat.zero_div,
    Nat.sub_zero, quarterSine_zero, quarterSine_self hsr]
  rfl

namespace Machine

/-! ### The reset state -/

@[simp] theorem blockReset_level (s : State) (k : Stream) : s.blockReset.level k = F32.zero := by
  rw [blockReset_eq]
  exact resetWith_level s.params k

@[simp] theorem blockReset_oscillator (s : State) (k : OscId) :
    s.blockReset.oscillator k = builtOsc s.params (oscDefault k) := by
  rw [blockReset_eq]
  exact resetWith_oscillator s.params k

@[simp] theorem blockReset_status (s : State) : s.blockReset.status = clearStatus := by
  rw [blockReset_eq]
  rfl

theorem clearStatus_word : clearStatus.word = 0#32 := by decide

/-- Settles O22: the parameters and the ports of the power-on state are its own. -/
theorem powerOnIsTheResetState : Obligations.PowerOnIsTheResetState := by
  unfold Obligations.PowerOnIsTheResetState
  intro p
  rw [exec_reset, blockReset_eq]
  rfl

/-- Settles O21, row by row of 10_state.md R48. -/
theorem resetGivesEveryFieldItsResetValue : Obligations.ResetGivesEveryFieldItsResetValue := by
  unfold Obligations.ResetGivesEveryFieldItsResetValue
  intro s
  refine ⟨s.blockReset, exec_reset s, ?word, ?streamEn, ?outVol, ?pilotVol, blockReset_level s,
    fun k => ?context, fun k => ?oscillator, blockReset_params s, ?hostIn, ?groupIn, blockReset_out s⟩
  case word => rw [blockReset_status, clearStatus_word]
  case context =>
    rw [blockReset_mod]
    exact ⟨rfl, rfl, rfl, rfl, rfl, rfl, accRead_nil, rfl⟩
  case oscillator =>
    rw [blockReset_oscillator]
    exact ⟨rfl, rfl, rfl, builtOsc_tables s.params (oscDefault k)⟩
  case hostIn | groupIn => rw [blockReset_eq]
  all_goals exact congrArg _ (blockReset_eq s)

/-! ### The reset input -/

@[simp] theorem tickBody_hostIn (s : State) : (tickBody s).hostIn = s.hostIn := by
  rcases tickBody_cases s with ⟨samples, s', -, h, e⟩ | ⟨k, s', -, -, -, e⟩ <;> rw [e]
  · exact h.hostIn_eq
  · rfl

@[simp] theorem tickTimes_hostIn (n : Nat) (s : State) : (tickTimes n s).hostIn = s.hostIn :=
  tickTimes_induct (P := fun t => t.hostIn = s.hostIn) (fun t ht => (tickBody_hostIn t).trans ht) n s
    rfl

/-- A run of ticks withdraws no output (10_state.md R47). -/
theorem tickTimes_out (n : Nat) (s : State) : ExtendsOutput s.out (tickTimes n s) :=
  tickTimes_induct (fun t => (extendsOutput_keptBySteps s.out).tick t) n s
    ⟨[], (List.append_nil _).symm, fun _ _ hm => absurd hm List.not_mem_nil⟩

/-- The ticks of a FRAMES that a reset cuts show on the ports and in the counter alone
(70_reset_and_hazards.md R251; log 6). -/
theorem blockReset_tickTimes (n : Nat) (s : State) :
    ∃ gi more fi, (tickTimes n s).blockReset =
      { State.resetWith s.params with
        hostIn := s.hostIn, groupIn := gi, out := s.out ++ more, freeIndex := fi } := by
  obtain ⟨more, hout, -⟩ := tickTimes_out n s
  exact ⟨_, more, _, by rw [blockReset_eq, tickTimes_params, tickTimes_hostIn, hout]⟩

/-- Settles O23: either way of asserting the input ends in BlockReset, and only a FRAMES has ticked. -/
theorem resetInputActsInEveryState : Obligations.ResetInputActsInEveryState := by
  unfold Obligations.ResetInputActsInEveryState
  refine ⟨fun s rest hin => ?between, fun s w n rest hin => ?during⟩
  case between => simp only [step, hin, blockReset_eq]
  case during =>
    have hstep : step s = .next (resetDuring w n { s with hostIn := rest }) := by
      simp only [step, hin]
    rw [hstep]
    rcases resetDuring_cases w n { s with hostIn := rest } with
      ⟨count, done, hframes, h⟩ | ⟨-, h⟩ <;> rw [h]
    · obtain ⟨gi, more, fi, hcut⟩ := blockReset_tickTimes done { s with hostIn := rest }
      exact ⟨gi, more, fi, congrArg _ hcut, fun hother => absurd hframes (hother count)⟩
    · exact ⟨s.groupIn, [], s.freeIndex, by rw [blockReset_eq, List.append_nil],
        fun _ => ⟨rfl, rfl, rfl⟩⟩

/-! ### Ticks from reset -/

theorem clip_zero (neg : Bool) : clip (F32.ofSignMag neg 0) = F32.ofSignMag neg 0 := by
  cases neg <;> decide

/-- A zero of either sign times 1.0 is that zero (43_mixer.md R175). -/
theorem fmul_zero_one (nan : NaNBits) (neg : Bool) :
    fmul nan (F32.ofSignMag neg 0) F32.one = F32.ofSignMag neg 0 := by
  cases neg <;> exact fmul_of_mag_zero nan (by decide) (by decide) (.inl (by decide))

/-- A finite value times +0.0 is a zero with the sign of the value (43_mixer.md R172). -/
theorem fmul_finite_zero (nan : NaNBits) {x : F32} (hx : F32.finite x = true) :
    fmul nan x F32.zero = F32.ofSignMag (F32.sign x) 0 := by
  rw [fmul_of_mag_zero nan hx (by decide) (.inr (by decide))]
  exact congrArg (F32.ofSignMag · 0) (Bool.bne_false _)

/-- While PILOT_VOL is +0.0 and OUT_VOL is 1.0, the mix of no sample is a zero with the sign of the pilot
carrier (43_mixer.md R172, R174, R175). -/
theorem outputValue_of_silent_pilot {s : State} (hpilot : s.pilotVol = F32.zero)
    (hvol : s.outVol = F32.one) (hcarrier : F32.finite (oscCos (s.oscillator 0)) = true) :
    outputValue s [] = F32.ofSignMag (F32.sign (oscCos (s.oscillator 0))) 0 := by
  rw [outputValue, mixSum, List.foldl_nil, pilotTerm, hpilot, fmul_finite_zero _ hcarrier, clip_zero,
    hvol, fmul_zero_one]

/-- The pilot carrier of the j-th tick after a reset (42_oscillator.md R152, R153). -/
def resetCarrier (p : Params) (j : Nat) : F32 := (p.pTrig 19000 (j % tableLen p.sr 19000)).2

/-- The value that the j-th tick after a reset puts out. -/
def resetValue (p : Params) (j : Nat) : F32 := F32.ofSignMag (F32.sign (resetCarrier p j)) 0

theorem resetValue_eq (p : Params) (j : Nat) : resetValue p j =
    if F32.sign (resetCarrier p j) then 0x80000000#32 else 0x00000000#32 := by
  rw [resetValue]
  cases F32.sign (resetCarrier p j) <;> rfl

/-- The block `n` ticks after a reset. -/
def ticksFromReset (p : Params) (n : Nat) : State :=
  { State.resetWith p with
    osc := perOsc fun k =>
      { builtOsc p (oscDefault k) with phase := n % tableLen p.sr (oscDefault k).toNat }
    out := ((List.range n).map (resetValue p)).map fun y => .frame y y
    freeIndex := n }

theorem oscCos_ticksFromReset (p : Params) (n : Nat) :
    oscCos ((ticksFromReset p n).oscillator 0) = resetCarrier p n := by
  have hentry := ((builtOsc_tables p (oscDefault 0)).2.2 _ (Nat.mod_lt n (tableLen_pos p.sr_pos _))).2
  have hosc : (ticksFromReset p n).oscillator 0 =
      { builtOsc p (oscDefault 0) with phase := n % tableLen p.sr (oscDefault 0).toNat } :=
    getElem_perOsc _ 0
  rw [hosc, oscCos, tableRead, hentry]
  rfl

/-- No stream is active after a reset (10_state.md R24). -/
theorem ticksFromReset_noActiveStream (p : Params) (n : Nat) :
    Claims.noActiveStream (ticksFromReset p n) := fun _ =>
  Bool.and_eq_false_imp.2 fun _ => BitVec.getLsbD_zero

theorem tickBody_ticksFromReset (p : Params) (n : Nat) :
    tickBody (ticksFromReset p n) = ticksFromReset p (n + 1) := by
  have hvalue : outputValue (ticksFromReset p n) [] = resetValue p n := by
    rw [outputValue_of_silent_pilot rfl rfl, oscCos_ticksFromReset, resetValue]
    rw [oscCos_ticksFromReset]
    exact F32.inUnit_finite (p.pTrig_inUnit _ _).2
  have hosc : (ticksFromReset p n).advanceOscs.osc = (ticksFromReset p (n + 1)).osc := by
    refine oscs_ext fun k => ?_
    simp only [advanceOscs_osc, ticksFromReset, State.oscillator, getElem_perOsc, oscAdvance, builtOsc,
      Nat.mod_add_mod]
  rw [tickBody_of_noActiveStream (ticksFromReset_noActiveStream p n), finishTick_eq, hvalue, hosc]
  simp only [ticksFromReset, List.range_succ, List.map_append, List.map_cons, List.map_nil]

/-- A run of ticks from the power-on state. -/
theorem tickTimes_resetWith (p : Params) (n : Nat) :
    tickTimes n (State.resetWith p) = ticksFromReset p n := by
  rw [tickTimes_eq_iterate]
  induction n with
  | zero =>
    rw [Function.iterate_zero_apply]
    simp only [ticksFromReset, Nat.zero_mod]
    rfl
  | succ n ih =>
    rw [Function.iterate_succ_apply', ih, ticked_of_running (s := ticksFromReset p n) rfl,
      tickBody_ticksFromReset]

/-- With the reference P_TRIG the pilot starts at 1.0 (00_scope.md R15). -/
theorem resetCarrier_zero {p : Params} (href : p.trig = []) : resetCarrier p 0 = F32.one := by
  rw [resetCarrier, Nat.zero_mod, ParamSet.pTrig, href, List.lookup_nil]
  exact congrArg Prod.snd (referenceTrig_zero p.sr_pos 19000)

/-- Settles O47: the frames are those of the written-out run, and the first TICK is a run of one. -/
theorem firstTickAfterResetIsSilent : Obligations.FirstTickAfterResetIsSilent := by
  unfold Obligations.FirstTickAfterResetIsSilent
  intro p
  refine ⟨fun count => ⟨(List.range count.toNat).map (resetValue p), ticksFromReset p count.toNat,
    ?_, rfl, ?_, fun j hj => ?_⟩, fun href => ⟨ticksFromReset p 1, ?_, ?_⟩⟩
  · rw [exec_frames, tickTimes_resetWith]
  · rw [List.length_map, List.length_range]
  · rw [List.getElem?_map, List.getElem?_range hj, Option.map_some, resetValue_eq]
    rfl
  · rw [exec_tick_ticked, ← tickTimes_resetWith, tickTimes_eq_iterate, Function.iterate_one]
  · have hfirst : resetValue p 0 = 0x00000000#32 := by
      rw [resetValue, resetCarrier_zero href]
      rfl
    simp only [ticksFromReset, List.range_one, List.map_cons, List.map_nil, hfirst]

end Machine

end Sys2Proof
